-- ==== Sys2Proof/Word.lean ====
section
/-! DEFINITION. The word types of LSDEC (00_scope.md R10, R11): bytes, 16-bit cells and words, 32-bit window registers. -/

namespace Sys2Proof

/-- An input or output byte (20_memory.md R80). -/
abbrev Byte := BitVec 8

/-- A 16-bit cell, tile index, pattern or control word. -/
abbrev Half := BitVec 16

/-- A register of the window (10_state.md R32 to R39, R60, R61). -/
abbrev Word32 := BitVec 32

end Sys2Proof
end

