-- ==== Sys2Proof/Config.lean ====
section
/-! DEFINITION. The parameters of 00_scope.md R8 with their decided values, and the free values of the model.
Each parameter is a field of `Params`, which the state carries (`State.cfg`), so that a proof says which value it
assumes. What the values that are not decided do, where the spec names them or leaves them open, is log 20. -/

namespace Sys2Proof

/-- LZ_CTRL_LOAD (D14, 91_not_in_source.md N13). -/
inductive LzCtrlLoad
  /-- A control byte is read only when a control bit is needed and none remain. -/
  | lazy
  /-- The next control byte is read right after the 8th token of a group, also when that token is LZ.END (log 20). -/
  | eager
deriving DecidableEq, Repr

/-- BT_MTF_OOR and, for `clamp`, BT_MTF_CLAMP_VALUE (D21, D57). -/
inductive MtfOutOfRange
  /-- InvalidDictionaryIndex. -/
  | fault
  /-- The open parameter's value is returned and the queue is unchanged (42_bigtile.md R218). -/
  | clamp (value : Half)
deriving DecidableEq, Repr

/-- TM_PASS_EXTENT (D26, 90_conflicts.md C4). -/
inductive PassExtent
  /-- Phases 1 and 2 run once over all T cells. -/
  | whole
  /-- Phases 1 and 2 run over the first T/2 cells and then over the others (log 20). -/
  | perLayer
deriving DecidableEq, Repr

/-- What a propagated cell at or beyond the end does (D28). -/
inductive PastEnd
  /-- RunOverrun (43_tilemap.md R262). -/
  | fault
  /-- It ends the inner run and writes nothing (log 20). -/
  | endRun
deriving DecidableEq, Repr

/-- TM_PROPAGATE (D28): the procedure of 43_tilemap.md R259 as an argument, one field for each point that
91_not_in_source.md N18 leaves open. The values of the bits A and B are those of opcode_table.json. -/
structure Propagation where
  /-- TM_SEL at the start of each Propagate call: which stride comes first. -/
  firstSel : Bool
  /-- Whether an inner run starts again from the command cell, rather than from the last cell. -/
  fromCommand : Bool
  /-- Whether the bit A that starts an inner run is consumed, rather than peeked. -/
  consumeRun : Bool
  /-- Whether the bit A that stops the propagation is consumed. -/
  consumeStop : Bool
  /-- Whether the bit B that adds a cell is consumed. -/
  consumeCell : Bool
  /-- Whether the bit B that ends an inner run is consumed. -/
  consumeEndrun : Bool
  /-- What a cell at or beyond the end does. -/
  pastEnd : PastEnd
deriving DecidableEq, Repr

/-- The reference procedure of 43_tilemap.md R259. -/
def Propagation.reference : Propagation where
  firstSel := false
  fromCommand := false
  consumeRun := true
  consumeStop := true
  consumeCell := true
  consumeEndrun := true
  pastEnd := .fault

/-- TM_ILOG2 (D31), with the two other readings that 91_not_in_source.md N22 names. -/
inductive Ilog2
  /-- floor(log2 x), the decided value. -/
  | floorLog2
  /-- ceil(log2 x). -/
  | ceilLog2
  /-- floor(log2 x) + 1. -/
  | bitLength
deriving DecidableEq, Repr

/-- TM_SEL1_BOUND (D31): the bound whose bit count sizes selector 1. -/
inductive Sel1Bound
  | boundB0
  | boundB1
deriving DecidableEq, Repr

/-- HM_ZERO_RUN (D32). -/
inductive ZeroRun
  /-- InvalidControlCode. -/
  | fault
  /-- The run writes nothing, and the next run is read (log 20). -/
  | writeNothing
deriving DecidableEq, Repr

/-- HM_FIELD_ORDER (D33): the lowest bit of each field of a heightmap cell. -/
structure HmFieldOrder where
  /-- Of the 4 bits of restrictions. -/
  restrictions : Nat
  /-- Of the 4 bits of height. -/
  height : Nat
  /-- Of the 8 bits of classification. -/
  classification : Nat
deriving DecidableEq, Repr

/-- What a reserved bit or an odd length does: refused with InvalidControlCode, or taken without effect. -/
inductive OnReserved
  | fault
  | accept
deriving DecidableEq, Repr

/-- SPR_LZ_COUNT (D41). -/
inductive LzCount
  /-- The sub-stream's own terminator ends it, whatever the count. -/
  | ignore
  /-- A sub-stream of another decompressed length than `count` words is refused with InvalidControlCode (log 20). -/
  | outputWords
deriving DecidableEq, Repr

/-- SPR_LZ_WINDOW (D42): the window base of a nested LZ77 sub-stream. -/
inductive LzWindow
  /-- The sub-stream's first output byte. -/
  | substream
  /-- OUT index 0 (91_not_in_source.md N14, 95_test_vectors.md). -/
  | wholeOut
deriving DecidableEq, Repr

/-- ALIGN_WHEN_ALIGNED (D12). -/
inductive WhenAligned
  /-- Align moves nothing at a byte boundary. -/
  | noop
  /-- Align skips a whole byte at a byte boundary. -/
  | skipByte
deriving DecidableEq, Repr

/-- The implementation parameters of 00_scope.md R8. SRC_LEN and OUT_CAP are registers of the window. -/
structure Params where
  /-- VARINT_MAX_EXP. -/
  varintMaxExp : Nat
  /-- LZ_CTRL_LOAD. -/
  lzCtrlLoad : LzCtrlLoad
  /-- BT_MTF_OOR, BT_MTF_CLAMP_VALUE. -/
  btMtfOor : MtfOutOfRange
  /-- BT_PUSH_DERIVED. -/
  btPushDerived : Bool
  /-- TM_PASS_EXTENT. -/
  tmPassExtent : PassExtent
  /-- TM_CMD_EXT_MAP: entry 4*(c-6) + e is the dictionary index of the extended command (c, e). -/
  tmCmdExtMap : Vector (Fin 14) 8
  /-- TM_PROPAGATE. -/
  tmPropagate : Propagation
  /-- TM_INITIAL_MODE: `none` is the value `fault`, `some m` the mode m before the first non-zero cell. -/
  tmInitialMode : Option Half
  /-- TM_ILOG2. -/
  tmIlog2 : Ilog2
  /-- TM_SEL1_BOUND. -/
  tmSel1Bound : Sel1Bound
  /-- TM_COUNTERS_ALIAS. -/
  tmCountersAlias : Bool
  /-- HM_ZERO_RUN. -/
  hmZeroRun : ZeroRun
  /-- HM_FIELD_ORDER. -/
  hmFieldOrder : HmFieldOrder
  /-- SPR_POS_MASK. -/
  sprPosMask : Byte
  /-- SPR_POS_SHIFT. -/
  sprPosShift : Nat
  /-- SPR_B1_BIT7. -/
  sprB1Bit7 : OnReserved
  /-- SPR_COUNT_BIAS. -/
  sprCountBias : Nat
  /-- SPR_BIT12. -/
  sprBit12 : OnReserved
  /-- SPR_LZ_COUNT. -/
  sprLzCount : LzCount
  /-- SPR_LZ_WINDOW. -/
  sprLzWindow : LzWindow
  /-- SPR_ODD_LZ. -/
  sprOddLz : OnReserved
  /-- ALIGN_WHEN_ALIGNED. -/
  alignWhenAligned : WhenAligned
deriving DecidableEq, Repr

/-- The values 00_scope.md R8 decides. -/
def Config.decided : Params where
  varintMaxExp := 15
  lzCtrlLoad := .lazy
  btMtfOor := .fault
  btPushDerived := false
  tmPassExtent := .whole
  tmCmdExtMap := #v[6, 7, 8, 9, 10, 11, 12, 13]
  tmPropagate := Propagation.reference
  tmInitialMode := none
  tmIlog2 := .floorLog2
  tmSel1Bound := .boundB1
  tmCountersAlias := false
  hmZeroRun := .fault
  hmFieldOrder := { restrictions := 12, height := 8, classification := 0 }
  sprPosMask := 0x7C
  sprPosShift := 1
  sprB1Bit7 := .fault
  sprCountBias := 0
  sprBit12 := .fault
  sprLzCount := .ignore
  sprLzWindow := .substream
  sprOddLz := .fault
  alignWhenAligned := .noop

/-- FREE VALUE (log 6, log 7, log 8, log 14): a w-bit value the spec leaves unspecified. `tag` names the register or
space, `stamp` the event (reset, START or fault) after which it is unspecified, `idx` the element. It has no body:
nothing proves what it is, so a claim holds whatever it is. -/
opaque Config.freeBits (w tag stamp idx : Nat) : BitVec w

/-- FREE VALUE (log 15, log 16): what HOST reads from element `idx` of an output space, or from an offset `idx` inside a
word of the window, where the spec leaves the read unspecified (20_memory.md R98.3, 70_reset_and_hazards.md R384);
`time` is the cursor at the read. -/
opaque Config.freeRead (w tag stamp time idx : Nat) : BitVec w

end Sys2Proof
end

