-- ==== Sys2Proof/Machine/State.lean ====
section
/-! DEFINITION. The state of LSDEC as plain data (10_state.md, 20_memory.md), the reasons a step can stop, and the
state after block reset (70_reset_and_hazards.md R380). Registers are grouped by unit, each under the spec's name. -/

namespace Sys2Proof.Machine

/-- The engine state (10_state.md R31). -/
inductive Engine
  /-- No job has run since reset (0). -/
  | idle
  /-- A job is running (1). -/
  | busy
  /-- The last job completed (2). -/
  | done
  /-- The last job failed (3). -/
  | fault
deriving DecidableEq, Repr

/-- The fault kinds of 60_exceptions.md R340. Codes 7 to 15 are never raised and have no name. -/
inductive FaultKind
  /-- Code 1 (R341). -/
  | unexpectedEndOfStream
  /-- Code 2 (R342). -/
  | invalidDictionaryIndex
  /-- Code 3 (R343). -/
  | invalidControlCode
  /-- Code 4 (R344). -/
  | sizeMismatch
  /-- Code 5 (R345). -/
  | backRefOutOfWindow
  /-- Code 6 (R346). -/
  | runOverrun
deriving DecidableEq, Repr

/-- The attribute pass of BTD (10_state.md R46: 0 priority, 1 vflip, 2 hflip). -/
inductive Attr
  | priority
  | vflip
  | hflip
deriving DecidableEq, Repr

/-- The grammar position: what the job's rules read next (30_encoding.md R135). The MODEL's own field (log 4). -/
inductive Phase
  /-- No job. -/
  | none
  /-- The LZD loop (41_lz77.md R185), of a standalone job or nested in SPR.LZ. -/
  | lz (nested : Bool)
  /-- BT.COUNT (42_bigtile.md R210). -/
  | btCount
  /-- A skip run of the mask pass BT_ATTR (R212); BT_FIRST says which row. -/
  | btSkip
  /-- The apply run after it (R212). -/
  | btApply
  /-- The index of tile 2k (R222). -/
  | btIndex
  /-- The companion flag of pair k (R222). -/
  | btCompanion
  /-- The independent index of tile 2k+1 (R221). -/
  | btCompIndex
  /-- TM.HDR (43_tilemap.md R250). -/
  | tmHdr
  /-- TM.TDICT. -/
  | tmTdict
  /-- TM.ODICT. -/
  | tmOdict
  /-- The next delta of phase 1 (R254). -/
  | tmDelta
  /-- The command at the cursor (R254). -/
  | tmCmd
  /-- Propagation bit A (R259). -/
  | tmPropA
  /-- Propagation bit B (R259). -/
  | tmPropB
  /-- Cell TM_I of phase 2 (R264). -/
  | tmCell
  /-- TM.ALIGN (R271). -/
  | tmAlign
  /-- HM.DIM (R272). -/
  | hmDim
  /-- Cell HM_J of phase 3 (R274). -/
  | hmCell
  /-- A subframe header (44_sprite.md R300). -/
  | sprHeader
  /-- A control word (R304). -/
  | sprWord
deriving DecidableEq, Repr

/-! ## Memories -/

/-- One address space. `cells` lists elements that have been written, by rising index. An unlisted element below
`zeroTo` reads as zero (START zeroes the first OUT_CAP elements of some spaces, 70_reset_and_hazards.md R382); any
other unlisted element has no known value and reads as a free value named by `stamp` (log 7). -/
structure Memory (α : Type) where
  stamp : Nat
  zeroTo : Nat
  cells : List (Nat × α)
deriving DecidableEq, Repr

/-- The attribute bits of a Tile record (20_memory.md R83). -/
structure TileAttr where
  hflip : Bool
  vflip : Bool
  priority : Bool
deriving DecidableEq, Repr, Inhabited

/-- A Tile record (20_memory.md R83). -/
structure Tile where
  index : Half
  attr : TileAttr
deriving DecidableEq, Repr, Inhabited

/-- A SpriteSubframe record (20_memory.md R85): x and y are signed pixel offsets, w and h 1..4. -/
structure Subframe where
  x : Int
  y : Int
  w : Nat
  h : Nat
  tileIdx : Half
deriving DecidableEq, Repr, Inhabited

/-- The address spaces (20_memory.md R80). TILES is held as its index fields and its attribute bits (log 25). -/
structure Spaces where
  /-- SRC. -/
  src : Memory Byte
  /-- OUT. -/
  out : Memory Byte
  /-- TILES[i].index. -/
  tileIdx : Memory Half
  /-- The attribute bits of TILES[i]. -/
  tileAttr : Memory TileAttr
  /-- TMBUF. -/
  tmbuf : Memory Half
  /-- HM. -/
  hm : Memory Half
  /-- SF. -/
  sf : Memory Subframe
deriving DecidableEq, Repr

/-! ## Registers -/

/-- The register window (10_state.md R32 to R39, R60, R61). CTRL stores CODEC alone, STATUS is STATE and FAULT_CODE. -/
structure Window where
  /-- CTRL.CODEC (R32). -/
  codec : BitVec 2
  /-- STATUS.STATE (R31). -/
  engine : Engine
  /-- STATUS.FAULT_CODE (R33). -/
  faultCode : BitVec 4
  /-- SRC_LEN (R34). -/
  srcLen : Word32
  /-- OUT_CAP (R35). -/
  outCap : Word32
  /-- RESULT_COUNT (R36). -/
  resultCount : Word32
  /-- RESULT_CONSUMED (R37). -/
  resultConsumed : Word32
  /-- RESULT_AUX (R38). -/
  resultAux : Word32
  /-- FAULT_POS (R39). -/
  faultPos : Word32
  /-- RESULT_GEOM (R60). -/
  resultGeom : Word32
  /-- RESULT_AUX2 (R61). -/
  resultAux2 : Word32
deriving DecidableEq, Repr

/-- LZD registers (10_state.md R45). -/
structure LzRegs where
  /-- LZ_CTL. -/
  ctl : Byte
  /-- LZ_NCTL, 0..8. -/
  nctl : Nat
  /-- LZ_OUT. -/
  out : Nat
  /-- LZ_BASE. -/
  base : Nat
  /-- The control bit 41_lz77.md R181 returned and R185 has not used yet. The MODEL's own field (log 9). -/
  bit : Option Bool
deriving DecidableEq, Repr

/-- BTD registers (10_state.md R46 to R48). -/
structure BtRegs where
  /-- BT_N. -/
  n : Half
  /-- BT_TOTAL. -/
  total : Nat
  /-- BT_ATTR. -/
  attr : Attr
  /-- BT_POS. -/
  pos : Nat
  /-- BT_FIRST. -/
  first : Bool
  /-- Q[0..15]. -/
  q : Vector Half 16
  /-- BT_OCC, 0..16. -/
  occ : Nat
  /-- BT_K. -/
  k : Nat
deriving DecidableEq, Repr

/-- TMD registers (10_state.md R49 to R53). -/
structure TmRegs where
  /-- TM_LEFT. -/
  left : Byte
  /-- TM_TOP. -/
  top : Byte
  /-- TM_W. -/
  w : Nat
  /-- TM_L. -/
  l : Nat
  /-- TM_H. -/
  h : Nat
  /-- TM_T. -/
  t : Nat
  /-- OD[0..13]. -/
  od : Vector Half 14
  /-- B0. With TM_COUNTERS_ALIAS the storage of B0 is `c0` (R51), and this field is not used. -/
  b0 : BitVec 10
  /-- B1. With TM_COUNTERS_ALIAS the storage of B1 is `c1` (R51), and this field is not used. -/
  b1 : BitVec 10
  /-- C0; with TM_COUNTERS_ALIAS also B0, widened to 16 bits. -/
  c0 : Half
  /-- C1; with TM_COUNTERS_ALIAS also B1, widened to 16 bits. -/
  c1 : Half
  /-- TM_C, signed. -/
  c : Int
  /-- TM_PC. -/
  pc : Nat
  /-- TM_SEL: false is stride W, true stride W+1. -/
  sel : Bool
  /-- TM_V. -/
  v : Half
  /-- TM_I. -/
  i : Nat
  /-- TM_MODE; `none` is the distinguished value NONE of R53. -/
  mode : Option Half
  /-- With TM_PASS_EXTENT = per_layer: the passes are over the second half. The MODEL's own field (log 20). -/
  second : Bool
deriving DecidableEq, Repr

/-- Heightmap registers (10_state.md R54). -/
structure HmRegs where
  /-- HM_W. -/
  w : Byte
  /-- HM_H. -/
  h : Byte
  /-- HM_J. -/
  j : Nat
  /-- HM_RUN. -/
  run : Nat
  /-- HM_PAT. -/
  pat : Half
deriving DecidableEq, Repr

/-- SPD registers (10_state.md R55). -/
structure SpRegs where
  /-- SP_Q. -/
  q : Nat
  /-- SP_O. -/
  o : Nat
  /-- SP_CW. -/
  cw : Half
  /-- SP_NSF. -/
  nsf : Nat
  /-- SP_NEED. -/
  need : Nat
  /-- SP_TIDX. -/
  tidx : Nat
deriving DecidableEq, Repr

/-! ## The schedule -/

/-- A move of HOST (00_scope.md R6; 20_memory.md R80; 70_reset_and_hazards.md R380, R381). -/
inductive HostMove
  /-- A write of a whole 32-bit word at a byte offset of the register window (10_state.md R32 to R40). -/
  | writeWindow (offset : Nat) (value : Word32)
  /-- A write of one byte of the input buffer (R80, R383). -/
  | writeSrc (index : Nat) (value : Byte)
  /-- The platform's reset of the block (R380). -/
  | reset
deriving DecidableEq, Repr

/-- Whose turn a step is. -/
inductive Turn
  | host (m : HostMove)
  | dec
deriving DecidableEq, Repr

/-- The whole machine. -/
structure State where
  /-- The parameters of 00_scope.md R8; no step changes them. -/
  cfg : Params
  /-- The register window. -/
  win : Window
  /-- The codec of the job, as START took it from CTRL.CODEC (70_reset_and_hazards.md R381 step 1). -/
  jobCodec : BitVec 2
  /-- p, the input cursor in bits (10_state.md R41). -/
  p : Nat
  /-- VE (10_state.md R56). -/
  ve : Nat
  /-- The value VarInt() returned to the rule that called it (40_bitstream.md R156). The MODEL's own field (log 12). -/
  varVal : Nat
  lz : LzRegs
  bt : BtRegs
  tm : TmRegs
  hm : HmRegs
  sp : SpRegs
  mem : Spaces
  /-- The grammar position. The MODEL's own field (log 4). -/
  phase : Phase
  /-- Names the next event's free values. The MODEL's own field (log 6). -/
  stamp : Nat
  /-- The turns to come; when none is left, DEC moves. The MODEL's own field (log 2). -/
  sched : List Turn
deriving DecidableEq, Repr

/-- Why a step stops with a fault of the MODEL. LSDEC's own faults are no stop: they are next states (R349). -/
inductive Fault
  /-- Raised by a step of DEC in a state that is BUSY with no grammar position. START sets one and the end of a job
  leaves BUSY, so no run reaches such a state. Safe: the model stops. -/
  | noGrammarPosition
deriving DecidableEq, Repr

/-- Why the model gives no meaning. -/
inductive Refusal
  /-- Raised by `exec` for a token with no meaning yet. Safe: the model stops. -/
  | notModelled (mnemonic : String)
  /-- Raised by a HOST write of SRC while BUSY: 20_memory.md R102 forbids the move and no claim covers a host that makes
  it (93_implementation_defined.md M2; log 17). Safe: the model stops. -/
  | hostWroteSrcWhileBusy
deriving DecidableEq, Repr

/-- A fault a token's rule raises: its kind and the position it records (60_exceptions.md R349). -/
structure Trap where
  kind : FaultKind
  pos : Nat
deriving DecidableEq, Repr

/-- What a token's rule does: the state after it, or the fault it raises and the state it had reached by then, which
holds the bits already consumed (40_bitstream.md R151) and the registers already assigned. -/
abbrev Effect := Except (Trap × State) State

/-- The answer of a step or of a token's meaning. -/
abbrev Answer := Host.Outcome State Fault Refusal

/-- An address space with no known contents (10_state.md R57, R59). -/
def Memory.unknown {α : Type} (stamp : Nat) : Memory α := ⟨stamp, 0, []⟩

/-- The state after block reset (10_state.md R59, 70_reset_and_hazards.md R380): IDLE, every window register 0, the
spaces with no known contents. p and the unit registers are unspecified; the values here are DESIGN CHOICE (log 5). -/
def State.reset : State where
  cfg := Config.decided
  win :=
    { codec := 0, engine := .idle, faultCode := 0, srcLen := 0, outCap := 0, resultCount := 0, resultConsumed := 0
      resultAux := 0, faultPos := 0, resultGeom := 0, resultAux2 := 0 }
  jobCodec := 0
  p := 0
  ve := 0
  varVal := 0
  lz := { ctl := 0, nctl := 0, out := 0, base := 0, bit := none }
  bt :=
    { n := 0, total := 0, attr := .priority, pos := 0, first := false
      q := #v[0, 0, 0, 0, 0, 0, 0, 0, 0, 0, 0, 0, 0, 0, 0, 0], occ := 0, k := 0 }
  tm :=
    { left := 0, top := 0, w := 0, l := 0, h := 0, t := 0
      od := #v[0, 0, 0, 0, 0, 0, 0, 0, 0, 0, 0, 0, 0, 0]
      b0 := 0, b1 := 0, c0 := 0, c1 := 0, c := 0, pc := 0, sel := false, v := 0, i := 0, mode := none
      second := false }
  hm := { w := 0, h := 0, j := 0, run := 0, pat := 0 }
  sp := { q := 0, o := 0, cw := 0, nsf := 0, need := 0, tidx := 0 }
  mem :=
    { src := .unknown 0, out := .unknown 0, tileIdx := .unknown 0, tileAttr := .unknown 0
      tmbuf := .unknown 0, hm := .unknown 0, sf := .unknown 0 }
  phase := .none
  stamp := 1
  sched := []

end Sys2Proof.Machine
end

