-- ==== Sys2Proof/Machine/Flags.lean ====
section
/-! DEFINITION. The flag state of LSDEC: STATUS (10_state.md R33, R44). There are no condition codes; no token
computes a flag. -/

namespace Sys2Proof.Machine

/-- STATE as STATUS[1:0] shows it (10_state.md R31). -/
def Engine.code : Engine → BitVec 2
  | .idle => 0
  | .busy => 1
  | .done => 2
  | .fault => 3

/-- The fault codes of 60_exceptions.md R340. -/
def FaultKind.code : FaultKind → BitVec 4
  | .unexpectedEndOfStream => 1
  | .invalidDictionaryIndex => 2
  | .invalidControlCode => 3
  | .sizeMismatch => 4
  | .backRefOutOfWindow => 5
  | .runOverrun => 6

/-- STATUS (10_state.md R33): FAULT_CODE in bits 7..4, STATE in bits 1..0, every other bit 0. -/
def Window.status (w : Window) : Word32 :=
  (w.faultCode.setWidth 32 <<< 4) ||| w.engine.code.setWidth 32

/-- CTRL as HOST reads it (10_state.md R32): CODEC in bits 1..0; START and the reserved bits read 0. -/
def Window.ctrl (w : Window) : Word32 :=
  w.codec.setWidth 32

end Sys2Proof.Machine
end

