-- ==== Sys2Proof/Syntax.lean ====
section
/-! DEFINITION. The tokens of LSDEC (00_scope.md R7): one constructor of `Instr` per row of opcode_table.json, with
the fields its format carries (30_encoding.md R111 to R127). -/

namespace Sys2Proof

/-- An F-VAR coded number (30_encoding.md R111): `exp` zeros, a 1, then `man` in `exp` bits. -/
structure VarCode where
  exp : Nat
  man : Nat
deriving DecidableEq, Repr

/-- A stream token. -/
inductive Instr
  /-- VARINT (40_bitstream.md R156). -/
  | varint (c : VarCode)
  /-- LZ.CTRL (41_lz77.md R181): eight control bits. -/
  | lzCtrl (c : Byte)
  /-- LZ.LIT (R182): a literal byte. -/
  | lzLit (lit : Byte)
  /-- LZ.REF (R183): offset, not 0, and the length code. -/
  | lzRef (offset : BitVec 12) (lcode : BitVec 4)
  /-- LZ.END (R184): offset 0; the length code is don't-care. -/
  | lzEnd (lcode : BitVec 4)
  /-- BT.COUNT (42_bigtile.md R211). -/
  | btCount (n : Half)
  /-- BT.SKIP0 (R213): first skip run of a mask. -/
  | btSkip0 (c : VarCode)
  /-- BT.SKIP (R214): a later skip run. -/
  | btSkip (c : VarCode)
  /-- BT.APPLY (R215): an apply run. -/
  | btApply (c : VarCode)
  /-- BT.IDX.MTF (R218): queue position. -/
  | btIdxMtf (i : BitVec 4)
  /-- BT.IDX.RAW (R219): raw tile index. -/
  | btIdxRaw (r : BitVec 11)
  /-- BT.COMP.DER (R220). -/
  | btCompDer
  /-- BT.COMP.IND (R221): the flag; an index token follows. -/
  | btCompInd
  /-- TM.HDR (43_tilemap.md R251). -/
  | tmHdr (left top wm1 hs : Byte)
  /-- TM.TDICT (R252). -/
  | tmTdict (b0 b1 : BitVec 10)
  /-- TM.ODICT (R253): the eight extension values OD[6] .. OD[13]. -/
  | tmOdict (v6 v7 v8 v9 v10 v11 v12 v13 : BitVec 12)
  /-- TM.DELTA (R255): a delta that stays below T. -/
  | tmDelta (c : VarCode)
  /-- TM.END (R256): the delta that takes the cursor to T or beyond. -/
  | tmEnd (c : VarCode)
  /-- TM.CMD.S (R257): c at most 5. -/
  | tmCmdS (c : BitVec 3)
  /-- TM.CMD.X (R258): x = c[0] of c = 6 + x, and e. -/
  | tmCmdX (x : BitVec 1) (e : BitVec 2)
  /-- TM.PROP.RUN (R260): bit A = 1. -/
  | tmPropRun
  /-- TM.PROP.STOP (R261): bit A = 0. -/
  | tmPropStop
  /-- TM.PROP.CELL (R262): bit B = 1. -/
  | tmPropCell
  /-- TM.PROP.ENDRUN (R263): bit B = 0. -/
  | tmPropEndrun
  /-- TM.COPY (R265): implicit. -/
  | tmCopy
  /-- TM.LIT.RAW (R266): selector 00, then `v` in `n` payload bits. -/
  | tmLitRaw (n v : Nat)
  /-- TM.LIT.OFS (R267): selector 01, then `v` in `n` payload bits. -/
  | tmLitOfs (n v : Nat)
  /-- TM.LIT.CNT0 (R268): selector 10. -/
  | tmLitCnt0
  /-- TM.LIT.CNT1 (R269): selector 11. -/
  | tmLitCnt1
  /-- TM.ALIGN (R271): the padding bits, don't-care. -/
  | tmAlign (pad : List Bool)
  /-- HM.DIM (R272). -/
  | hmDim (hw hh : Byte)
  /-- HM.RUN (R273): pattern, `k` chain bytes of 0xFF and the last chain byte, which is below 0xFF. -/
  | hmRun (pat : Half) (k : Nat) (last : Byte)
  /-- HM.CELL (R274): implicit. -/
  | hmCell
  /-- SPR.SF (44_sprite.md R301): y field, w-1, the reserved bit b1[7], x field, h-1. -/
  | sprSf (y : BitVec 5) (w : BitVec 2) (r : Bool) (x : BitVec 5) (h : BitVec 2)
  /-- SPR.SF.LAST (R311): the same fields. -/
  | sprSfLast (y : BitVec 5) (w : BitVec 2) (r : Bool) (x : BitVec 5) (h : BitVec 2)
  /-- SPR.ZERO (R306): stop, the don't-care L bit, the reserved bit 12, count. -/
  | sprZero (stop l r : Bool) (count : BitVec 12)
  /-- SPR.LZ (R307): stop, the reserved bit 12, the don't-care count; an lz_stream follows. -/
  | sprLz (stop r : Bool) (count : BitVec 12)
  /-- SPR.RAW (R308): stop, the reserved bit 12, count; count 16-bit words follow, which the meaning reads. -/
  | sprRaw (stop r : Bool) (count : BitVec 12)
deriving DecidableEq, Repr

end Sys2Proof
end

