-- ==== Sys2Proof/WellFormed.lean ====
section
/-! DEFINITION. Which terms of `Instr` an encoding stands for (30_encoding.md R111 to R127). The only bound that is a
parameter is VARINT_MAX_EXP (00_scope.md R8). -/

namespace Sys2Proof

/-- An F-VAR code: at most VARINT_MAX_EXP zeros, and a mantissa of `exp` bits (30_encoding.md R111, R128). -/
def VarCode.wf (cfg : Params) (c : VarCode) : Bool :=
  decide (c.exp ≤ cfg.varintMaxExp) && decide (c.man < 2 ^ c.exp)

/-- Well-formed tokens. -/
def Instr.wf (cfg : Params) : Instr → Bool
  | .varint c => c.wf cfg
  | .lzCtrl _ => true
  | .lzLit _ => true
  | .lzRef offset _ => decide (offset ≠ 0)
  | .lzEnd _ => true
  | .btCount _ => true
  | .btSkip0 c => c.wf cfg
  | .btSkip c => c.wf cfg
  | .btApply c => c.wf cfg
  | .btIdxMtf _ => true
  | .btIdxRaw _ => true
  | .btCompDer => true
  | .btCompInd => true
  | .tmHdr _ _ _ _ => true
  | .tmTdict _ _ => true
  | .tmOdict _ _ _ _ _ _ _ _ => true
  | .tmDelta c => c.wf cfg
  | .tmEnd c => c.wf cfg
  | .tmCmdS c => decide (c.toNat ≤ 5)
  | .tmCmdX _ _ => true
  | .tmPropRun => true
  | .tmPropStop => true
  | .tmPropCell => true
  | .tmPropEndrun => true
  | .tmCopy => true
  | .tmLitRaw n v => decide (v < 2 ^ n)
  | .tmLitOfs n v => decide (v < 2 ^ n)
  | .tmLitCnt0 => true
  | .tmLitCnt1 => true
  | .tmAlign pad => pad.length < 8 || (cfg.alignWhenAligned == .skipByte && pad.length == 8)
  | .hmDim _ _ => true
  | .hmRun _ _ last => decide (last ≠ 0xFF)
  | .hmCell => true
  | .sprSf _ _ _ _ _ => true
  | .sprSfLast _ _ _ _ _ => true
  | .sprZero _ _ _ _ => true
  | .sprLz _ _ _ => true
  | .sprRaw _ _ _ => true

end Sys2Proof
end

