-- ==== Sys2Proof/Decode.lean ====
section
/-! DEFINITION. Reading a token from the input bits, and writing one (30_encoding.md). The input is one bit stream,
most significant bit first within each byte (20_memory.md R86); a list of bits that ends is the end of the input
(10_state.md R42). Which format is read is fixed by the grammar (30_encoding.md R135), here the argument `Expect`. -/

namespace Sys2Proof

/-- What the grammar asks for next (30_encoding.md R135), with the state that fixes a format's length (R142) or splits
a format into two rows. -/
inductive Expect
  /-- A coded number by itself (40_bitstream.md R156). -/
  | varint
  /-- A control byte (41_lz77.md R181). -/
  | lzCtrl
  /-- The token after control bit 1 (R182). -/
  | lzLit
  /-- The token after control bit 0 (R183, R184). -/
  | lzPair
  /-- BT.COUNT (42_bigtile.md R211). -/
  | btCount
  /-- The first skip run of a mask (R213). -/
  | btSkip0
  /-- A later skip run (R214). -/
  | btSkip
  /-- An apply run (R215). -/
  | btApply
  /-- An index token (R221, DecodeIndex). -/
  | btIndex
  /-- A companion flag (R222). -/
  | btCompanion
  /-- TM.HDR (43_tilemap.md R251). -/
  | tmHdr
  /-- TM.TDICT (R252). -/
  | tmTdict
  /-- TM.ODICT (R253). -/
  | tmOdict
  /-- A cursor delta; one of `room` or more is TM.END (R255, R256). -/
  | tmDelta (room : Nat)
  /-- A command (R257, R258). -/
  | tmCmd
  /-- Propagation bit A (R260, R261). -/
  | tmPropA
  /-- Propagation bit B (R262, R263). -/
  | tmPropB
  /-- A cell in copy mode (R265). -/
  | tmCopy
  /-- A cell in literal mode, with the payload lengths of selectors 0 and 1 (R266 to R269). -/
  | tmLit (n0 n1 : Nat)
  /-- Alignment over `k` bits (R271). -/
  | tmAlign (k : Nat)
  /-- HM.DIM (R272). -/
  | hmDim
  /-- HM.RUN (R273). -/
  | hmRun
  /-- HM.CELL (R274). -/
  | hmCell
  /-- A subframe header (44_sprite.md R301, R311). -/
  | sprHeader
  /-- A control word (R304). -/
  | sprWord
deriving DecidableEq, Repr

/-- Why no token can be read. -/
inductive DecodeError
  /-- The input ends inside the token: UnexpectedEndOfStream (40_bitstream.md R150, 20_memory.md R81). -/
  | endOfStream
  /-- More than VARINT_MAX_EXP leading zeros: InvalidControlCode (40_bitstream.md R157). -/
  | varintTooLong
deriving DecidableEq, Repr

/-! ## Reading fields -/

/-- ReadBits(n) over the remaining input, the bits read so far being `acc` (40_bitstream.md R151). -/
def readBitsFrom : Nat → Nat → List Bool → Except DecodeError (Nat × List Bool)
  | 0, acc, bits => .ok (acc, bits)
  | _ + 1, _, [] => .error .endOfStream
  | n + 1, acc, b :: bits => readBitsFrom n (2 * acc + b.toNat) bits

/-- ReadBits(n): n bits folded most significant bit first (40_bitstream.md R151). -/
def readNat (n : Nat) (bits : List Bool) : Except DecodeError (Nat × List Bool) :=
  readBitsFrom n 0 bits

/-- A field of w bits. -/
def readField (w : Nat) (bits : List Bool) : Except DecodeError (BitVec w × List Bool) :=
  match readNat w bits with
  | .ok (v, rest) => .ok (BitVec.ofNat w v, rest)
  | .error e => .error e

/-- A field of one bit. -/
def readFlag : List Bool → Except DecodeError (Bool × List Bool)
  | [] => .error .endOfStream
  | b :: bits => .ok (b, bits)

/-- The leading zeros of a coded number and its terminator; `room` more zeros are allowed (40_bitstream.md R156, R157:
the fault comes as soon as one zero too many has been read). -/
def readExponent : Nat → Nat → List Bool → Except DecodeError (Nat × List Bool)
  | _, _, [] => .error .endOfStream
  | _, e, true :: bits => .ok (e, bits)
  | 0, _, false :: _ => .error .varintTooLong
  | room + 1, e, false :: bits => readExponent room (e + 1) bits

/-- An F-VAR coded number (30_encoding.md R111, R139). -/
def readVar (cfg : Params) (bits : List Bool) : Except DecodeError (VarCode × List Bool) := do
  let (e, bits) ← readExponent cfg.varintMaxExp 0 bits
  let (m, bits) ← readNat e bits
  .ok (⟨e, m⟩, bits)

/-- The byte whose bits are given, most significant first (20_memory.md R86). -/
def byteOfBits (b7 b6 b5 b4 b3 b2 b1 b0 : Bool) : Byte :=
  BitVec.ofNat 8 (128 * b7.toNat + 64 * b6.toNat + 32 * b5.toNat + 16 * b4.toNat
    + 8 * b3.toNat + 4 * b2.toNat + 2 * b1.toNat + b0.toNat)

/-- The byte chain of a heightmap run: bytes of 0xFF, counted from `k`, and the byte below 0xFF that ends it
(30_encoding.md R127, R133). -/
def readChain : Nat → List Bool → Except DecodeError (Nat × Byte × List Bool)
  | k, b7 :: b6 :: b5 :: b4 :: b3 :: b2 :: b1 :: b0 :: bits =>
    let v := byteOfBits b7 b6 b5 b4 b3 b2 b1 b0
    if v = 0xFF then readChain (k + 1) bits else .ok (k, v, bits)
  | _, _ => .error .endOfStream

/-! ## Decoding -/

/-- The value of a coded number (40_bitstream.md R156, 30_encoding.md R128). -/
def VarCode.value (c : VarCode) : Nat :=
  if c.exp = 0 then 0 else 2 ^ c.exp + c.man - 1

/-- The cursor delta of the value VarInt() returned: 0 is treated as 1 (43_tilemap.md R255). -/
def deltaOf (v : Nat) : Nat :=
  if v = 0 then 1 else v

/-- The delta a coded number stands for in phase 1 (43_tilemap.md R255). -/
def VarCode.delta (c : VarCode) : Nat :=
  deltaOf c.value

/-- A back-reference pair (30_encoding.md R114): LZ.END exactly when the offset is 0. -/
def decodeLzPair (bits : List Bool) : Except DecodeError (Instr × List Bool) := do
  let (hi, bits) ← readField 4 bits
  let (lcode, bits) ← readField 4 bits
  let (lo, bits) ← readField 8 bits
  let offset : BitVec 12 := hi ++ lo
  .ok (if offset = 0 then .lzEnd lcode else .lzRef offset lcode, bits)

/-- A tilemap command: 3 bits, and 2 more when they are 6 or 7 (30_encoding.md R122, R123, R140). -/
def decodeTmCmd (bits : List Bool) : Except DecodeError (Instr × List Bool) := do
  let (c, bits) ← readField 3 bits
  if c.toNat ≤ 5 then .ok (.tmCmdS c, bits)
  else
    let (e, bits) ← readField 2 bits
    .ok (.tmCmdX (c.setWidth 1) e, bits)

/-- A phase-2 literal: 2 selector bits and the payload (30_encoding.md R125). -/
def decodeTmLit (n0 n1 : Nat) (bits : List Bool) : Except DecodeError (Instr × List Bool) := do
  let (s1, bits) ← readFlag bits
  let (s0, bits) ← readFlag bits
  match s1, s0 with
  | false, false =>
    let (v, bits) ← readNat n0 bits
    .ok (.tmLitRaw n0 v, bits)
  | false, true =>
    let (v, bits) ← readNat n1 bits
    .ok (.tmLitOfs n1 v, bits)
  | true, false => .ok (.tmLitCnt0, bits)
  | true, true => .ok (.tmLitCnt1, bits)

/-- A subframe header, `SYYYYYWWRXXXXXHH` (30_encoding.md R127). -/
def decodeSprHeader (bits : List Bool) : Except DecodeError (Instr × List Bool) := do
  let (s, bits) ← readFlag bits
  let (y, bits) ← readField 5 bits
  let (w, bits) ← readField 2 bits
  let (r, bits) ← readFlag bits
  let (x, bits) ← readField 5 bits
  let (h, bits) ← readField 2 bits
  .ok (if s then .sprSfLast y w r x h else .sprSf y w r x h, bits)

/-- A control word, `ZSLRcccccccccccc`; Z is tested before L (30_encoding.md R127, 44_sprite.md R305). -/
def decodeSprWord (bits : List Bool) : Except DecodeError (Instr × List Bool) := do
  let (z, bits) ← readFlag bits
  let (s, bits) ← readFlag bits
  let (l, bits) ← readFlag bits
  let (r, bits) ← readFlag bits
  let (count, bits) ← readField 12 bits
  .ok (if z then .sprZero s l r count else if l then .sprLz s r count else .sprRaw s r count, bits)

/-- The token the grammar asks for, read from the remaining input, and the input after it. -/
def decode (cfg : Params) (want : Expect) (bits : List Bool) : Except DecodeError (Instr × List Bool) :=
  match want with
  | .varint => do let (c, bits) ← readVar cfg bits; .ok (.varint c, bits)
  | .lzCtrl => do let (c, bits) ← readField 8 bits; .ok (.lzCtrl c, bits)
  | .lzLit => do let (b, bits) ← readField 8 bits; .ok (.lzLit b, bits)
  | .lzPair => decodeLzPair bits
  | .btCount => do let (n, bits) ← readField 16 bits; .ok (.btCount n, bits)
  | .btSkip0 => do let (c, bits) ← readVar cfg bits; .ok (.btSkip0 c, bits)
  | .btSkip => do let (c, bits) ← readVar cfg bits; .ok (.btSkip c, bits)
  | .btApply => do let (c, bits) ← readVar cfg bits; .ok (.btApply c, bits)
  | .btIndex => do
    let (flag, bits) ← readFlag bits
    if flag then
      let (i, bits) ← readField 4 bits
      .ok (.btIdxMtf i, bits)
    else
      let (r, bits) ← readField 11 bits
      .ok (.btIdxRaw r, bits)
  | .btCompanion => do
    let (flag, bits) ← readFlag bits
    .ok (if flag then .btCompDer else .btCompInd, bits)
  | .tmHdr => do
    let (left, bits) ← readField 8 bits
    let (top, bits) ← readField 8 bits
    let (wm1, bits) ← readField 8 bits
    let (hs, bits) ← readField 8 bits
    .ok (.tmHdr left top wm1 hs, bits)
  | .tmTdict => do
    let (b0, bits) ← readField 10 bits
    let (b1, bits) ← readField 10 bits
    .ok (.tmTdict b0 b1, bits)
  | .tmOdict => do
    let (v6, bits) ← readField 12 bits
    let (v7, bits) ← readField 12 bits
    let (v8, bits) ← readField 12 bits
    let (v9, bits) ← readField 12 bits
    let (v10, bits) ← readField 12 bits
    let (v11, bits) ← readField 12 bits
    let (v12, bits) ← readField 12 bits
    let (v13, bits) ← readField 12 bits
    .ok (.tmOdict v6 v7 v8 v9 v10 v11 v12 v13, bits)
  | .tmDelta room => do
    let (c, bits) ← readVar cfg bits
    .ok (if room ≤ c.delta then .tmEnd c else .tmDelta c, bits)
  | .tmCmd => decodeTmCmd bits
  | .tmPropA => do
    let (flag, bits) ← readFlag bits
    .ok (if flag then .tmPropRun else .tmPropStop, bits)
  | .tmPropB => do
    let (flag, bits) ← readFlag bits
    .ok (if flag then .tmPropCell else .tmPropEndrun, bits)
  | .tmCopy => .ok (.tmCopy, bits)
  | .tmLit n0 n1 => decodeTmLit n0 n1 bits
  | .tmAlign k => .ok (.tmAlign (bits.take k), bits.drop k)
  | .hmDim => do
    let (hw, bits) ← readField 8 bits
    let (hh, bits) ← readField 8 bits
    .ok (.hmDim hw hh, bits)
  | .hmRun => do
    let (pat, bits) ← readField 16 bits
    let (k, last, bits) ← readChain 0 bits
    .ok (.hmRun pat k last, bits)
  | .hmCell => .ok (.hmCell, bits)
  | .sprHeader => decodeSprHeader bits
  | .sprWord => decodeSprWord bits

/-! ## Encoding -/

/-- The n low bits of v, most significant first (20_memory.md R86). -/
def natBits : Nat → Nat → List Bool
  | 0, _ => []
  | n + 1, v => v.testBit n :: natBits n v

/-- The bits of a field. -/
def fieldBits {w : Nat} (v : BitVec w) : List Bool := natBits w v.toNat

/-- The bits of a coded number (30_encoding.md R111). -/
def VarCode.bits (c : VarCode) : List Bool :=
  List.replicate c.exp false ++ true :: natBits c.exp c.man

/-- The bits of a back-reference pair: offset[11:8], length code, offset[7:0] (30_encoding.md R114). -/
def lzPairBits (offset : BitVec 12) (lcode : BitVec 4) : List Bool :=
  fieldBits (offset.extractLsb' 8 4) ++ fieldBits lcode ++ fieldBits (offset.setWidth 8)

/-- The bits of a subframe header (30_encoding.md R127). -/
def sprHeaderBits (s : Bool) (y : BitVec 5) (w : BitVec 2) (r : Bool) (x : BitVec 5) (h : BitVec 2) : List Bool :=
  s :: (fieldBits y ++ fieldBits w ++ r :: (fieldBits x ++ fieldBits h))

/-- The bits of a control word (30_encoding.md R127). -/
def sprWordBits (z s l r : Bool) (count : BitVec 12) : List Bool :=
  z :: s :: l :: r :: fieldBits count

/-- The bits of a token in stream order (30_encoding.md R111 to R127). The index after BT.COMP.IND, the sub-stream of
SPR.LZ and the data words of SPR.RAW are bits of their own after these (30_encoding.md R135). -/
def encode : Instr → List Bool
  | .varint c => c.bits
  | .lzCtrl c => fieldBits c
  | .lzLit lit => fieldBits lit
  | .lzRef offset lcode => lzPairBits offset lcode
  | .lzEnd lcode => lzPairBits 0 lcode
  | .btCount n => fieldBits n
  | .btSkip0 c => c.bits
  | .btSkip c => c.bits
  | .btApply c => c.bits
  | .btIdxMtf i => true :: fieldBits i
  | .btIdxRaw r => false :: fieldBits r
  | .btCompDer => [true]
  | .btCompInd => [false]
  | .tmHdr left top wm1 hs => fieldBits left ++ fieldBits top ++ fieldBits wm1 ++ fieldBits hs
  | .tmTdict b0 b1 => fieldBits b0 ++ fieldBits b1
  | .tmOdict v6 v7 v8 v9 v10 v11 v12 v13 =>
    fieldBits v6 ++ fieldBits v7 ++ fieldBits v8 ++ fieldBits v9
      ++ fieldBits v10 ++ fieldBits v11 ++ fieldBits v12 ++ fieldBits v13
  | .tmDelta c => c.bits
  | .tmEnd c => c.bits
  | .tmCmdS c => fieldBits c
  | .tmCmdX x e => true :: true :: (fieldBits x ++ fieldBits e)
  | .tmPropRun => [true]
  | .tmPropStop => [false]
  | .tmPropCell => [true]
  | .tmPropEndrun => [false]
  | .tmCopy => []
  | .tmLitRaw n v => false :: false :: natBits n v
  | .tmLitOfs n v => false :: true :: natBits n v
  | .tmLitCnt0 => [true, false]
  | .tmLitCnt1 => [true, true]
  | .tmAlign pad => pad
  | .hmDim hw hh => fieldBits hw ++ fieldBits hh
  | .hmRun pat k last => fieldBits pat ++ List.replicate (8 * k) true ++ fieldBits last
  | .hmCell => []
  | .sprSf y w r x h => sprHeaderBits false y w r x h
  | .sprSfLast y w r x h => sprHeaderBits true y w r x h
  | .sprZero stop l r count => sprWordBits true stop l r count
  | .sprLz stop r count => sprWordBits false stop true r count
  | .sprRaw stop r count => sprWordBits false stop false r count

/-- The length of a token's encoding in bits (30_encoding.md R110). -/
def Instr.bitLength : Instr → Nat
  | .varint c => 2 * c.exp + 1
  | .lzCtrl _ => 8
  | .lzLit _ => 8
  | .lzRef _ _ => 16
  | .lzEnd _ => 16
  | .btCount _ => 16
  | .btSkip0 c => 2 * c.exp + 1
  | .btSkip c => 2 * c.exp + 1
  | .btApply c => 2 * c.exp + 1
  | .btIdxMtf _ => 5
  | .btIdxRaw _ => 12
  | .btCompDer => 1
  | .btCompInd => 1
  | .tmHdr _ _ _ _ => 32
  | .tmTdict _ _ => 20
  | .tmOdict _ _ _ _ _ _ _ _ => 96
  | .tmDelta c => 2 * c.exp + 1
  | .tmEnd c => 2 * c.exp + 1
  | .tmCmdS _ => 3
  | .tmCmdX _ _ => 5
  | .tmPropRun => 1
  | .tmPropStop => 1
  | .tmPropCell => 1
  | .tmPropEndrun => 1
  | .tmCopy => 0
  | .tmLitRaw n _ => 2 + n
  | .tmLitOfs n _ => 2 + n
  | .tmLitCnt0 => 2
  | .tmLitCnt1 => 2
  | .tmAlign pad => pad.length
  | .hmDim _ _ => 16
  | .hmRun _ k _ => 16 + 8 * (k + 1)
  | .hmCell => 0
  | .sprSf _ _ _ _ _ => 16
  | .sprSfLast _ _ _ _ _ => 16
  | .sprZero _ _ _ _ => 16
  | .sprLz _ _ _ => 16
  | .sprRaw _ _ _ => 16

/-- The tokens an expectation can answer with: the rows the grammar offers at that point (30_encoding.md R135), and
the lengths and bounds the state fixes (R125, R142, 43_tilemap.md R256). -/
def Expect.offers (want : Expect) (i : Instr) : Bool :=
  match want with
  | .varint => match i with | .varint _ => true | _ => false
  | .lzCtrl => match i with | .lzCtrl _ => true | _ => false
  | .lzLit => match i with | .lzLit _ => true | _ => false
  | .lzPair => match i with | .lzRef _ _ => true | .lzEnd _ => true | _ => false
  | .btCount => match i with | .btCount _ => true | _ => false
  | .btSkip0 => match i with | .btSkip0 _ => true | _ => false
  | .btSkip => match i with | .btSkip _ => true | _ => false
  | .btApply => match i with | .btApply _ => true | _ => false
  | .btIndex => match i with | .btIdxMtf _ => true | .btIdxRaw _ => true | _ => false
  | .btCompanion => match i with | .btCompDer => true | .btCompInd => true | _ => false
  | .tmHdr => match i with | .tmHdr _ _ _ _ => true | _ => false
  | .tmTdict => match i with | .tmTdict _ _ => true | _ => false
  | .tmOdict => match i with | .tmOdict _ _ _ _ _ _ _ _ => true | _ => false
  | .tmDelta room =>
    match i with
    | .tmDelta c => decide (c.delta < room)
    | .tmEnd c => decide (room ≤ c.delta)
    | _ => false
  | .tmCmd => match i with | .tmCmdS _ => true | .tmCmdX _ _ => true | _ => false
  | .tmPropA => match i with | .tmPropRun => true | .tmPropStop => true | _ => false
  | .tmPropB => match i with | .tmPropCell => true | .tmPropEndrun => true | _ => false
  | .tmCopy => match i with | .tmCopy => true | _ => false
  | .tmLit n0 n1 =>
    match i with
    | .tmLitRaw n _ => decide (n = n0)
    | .tmLitOfs n _ => decide (n = n1)
    | .tmLitCnt0 => true
    | .tmLitCnt1 => true
    | _ => false
  | .tmAlign k => match i with | .tmAlign pad => decide (pad.length = k) | _ => false
  | .hmDim => match i with | .hmDim _ _ => true | _ => false
  | .hmRun => match i with | .hmRun _ _ _ => true | _ => false
  | .hmCell => match i with | .hmCell => true | _ => false
  | .sprHeader => match i with | .sprSf _ _ _ _ _ => true | .sprSfLast _ _ _ _ _ => true | _ => false
  | .sprWord => match i with | .sprZero _ _ _ _ => true | .sprLz _ _ _ => true | .sprRaw _ _ _ => true | _ => false

/-! ## Words of the opcode table

A word of the table does not say which token it is: the same bits are different tokens at different points of the
grammar (00_scope.md R7, 30_encoding.md R135). `tableExpect` picks, for a word numbered as the table numbers it, a
point of the grammar that offers a row with these bits (DESIGN CHOICE, log 21). -/

/-- For an instruction of `nbits` bits (in whole bytes) with bits `w`: the point of the grammar and how many low bits of
`w` are the token, the rest being above it. -/
def tableExpect (nbits w : Nat) : Option (Expect × Nat) :=
  if nbits ≤ 8 then
    if w = 0 then some (.btCompanion, 1)
    else if w = 1 then some (.tmPropA, 1)
    else if w = 2 ∨ w = 3 then some (.tmLit 0 0, 2)
    else if w < 0x10 then some (.lzLit, 8)
    else if w < 0x18 then some (.btIndex, 5)
    else if w < 0x20 then some (.tmCmd, 5)
    else if w < 0x100 then some (.lzLit, 8)
    else none
  else if nbits ≤ 16 then
    if w < 0x1000 ∧ w % 0x100 = 0 then some (.lzPair, 16)
    else if w < 0x800 then some (.btIndex, 12)
    else if w % 0x8000 < 0x1000 then some (.sprWord, 16)
    else if w / 0x1000 % 2 = 0 ∧ w < 0x10000 then some (.sprWord, 16)
    else if w < 0x10000 then some (.sprHeader, 16)
    else none
  else if nbits ≤ 24 then (if w < 2 ^ 20 then some (.tmTdict, 20) else none)
  else if nbits ≤ 32 then (if w < 2 ^ 32 then some (.tmHdr, 32) else none)
  else if nbits ≤ 96 then (if w < 2 ^ 96 then some (.tmOdict, 96) else none)
  else none

/-- The bits of the word in stream order, and zero bits after them up to the longest token of fixed length. -/
def tableBits (len w : Nat) : List Bool :=
  natBits len w ++ List.replicate 128 false

/-- The token this decoder reads from a word of the opcode table, at the point of the grammar `tableExpect` picks. -/
def decodeTableWord (nbits w : Nat) : Option Instr :=
  match tableExpect nbits w with
  | none => none
  | some (want, len) =>
    match decode Config.decided want (tableBits len w) with
    | .ok (i, _) => some i
    | .error _ => none

end Sys2Proof
end

