-- ==== Sys2Proof/Machine/Operands.lean ====
section
/-! DEFINITION. The values the fields of a token stand for (30_encoding.md R128 to R134) and the quantities of
00_scope.md R15. -/

namespace Sys2Proof.Machine

/-- The length of a back-reference, 3..18 (30_encoding.md R114, R129). -/
def lzLength (lcode : BitVec 4) : Nat :=
  18 - lcode.toNat

/-- TM_ILOG2 of a bound that is not 0 (43_tilemap.md R266; 92_eei_decisions.md D31). -/
def ilog2 (f : Ilog2) (x : Nat) : Nat :=
  match f with
  | .floorLog2 => x.log2
  | .ceilLog2 => if x ≤ 1 then 0 else (x - 1).log2 + 1
  | .bitLength => x.log2 + 1

/-- The dictionary index of an extended command, TM_CMD_EXT_MAP of (6 + x, e) (30_encoding.md R131). -/
def extIndex (cfg : Params) (x : BitVec 1) (e : BitVec 2) : Fin 14 :=
  cfg.tmCmdExtMap[4 * x.toNat + e.toNat]'(by have := x.isLt; have := e.isLt; omega)

/-- A heightmap run: the sum of its chain bytes (30_encoding.md R133). -/
def runLength (k : Nat) (last : Byte) : Nat :=
  255 * k + last.toNat

/-- sext8 of a value taken mod 2^8 (00_scope.md R11). -/
def sext8 (v : Byte) : Int :=
  if v.toNat < 0x80 then (v.toNat : Int) else (v.toNat : Int) - 0x100

/-- A subframe header byte from its fields: bit 7, position field, size field (30_encoding.md R127). -/
def sprByte (top : Bool) (pos : BitVec 5) (size : BitVec 2) : Byte :=
  BitVec.ofNat 8 (128 * top.toNat + 4 * pos.toNat + size.toNat)

/-- A position of a subframe header byte (44_sprite.md R302). -/
def sprPos (cfg : Params) (b : Byte) : Int :=
  sext8 ((b &&& cfg.sprPosMask) <<< cfg.sprPosShift)

/-- A size of a subframe header, 1..4 (44_sprite.md R302). -/
def sprSize (f : BitVec 2) : Nat :=
  f.toNat + 1

/-- A control word from its fields (30_encoding.md R127). -/
def sprWord (z s l r : Bool) (count : BitVec 12) : Half :=
  BitVec.ofNat 16 (0x8000 * z.toNat + 0x4000 * s.toNat + 0x2000 * l.toNat + 0x1000 * r.toNat + count.toNat)

/-- The stop bit of a control word, bit 14 (44_sprite.md R309). -/
def sprStop (cw : Half) : Bool :=
  cw.getLsbD 14

/-- The count of a control word in 16-bit words (44_sprite.md R305). -/
def sprCount (cfg : Params) (count : BitVec 12) : Nat :=
  count.toNat + cfg.sprCountBias

/-- The fields of a heightmap cell, as HOST reads them (43_tilemap.md R275): restrictions, height, classification. -/
def hmFields (cfg : Params) (cell : Half) : BitVec 4 × BitVec 4 × BitVec 8 :=
  (cell.extractLsb' cfg.hmFieldOrder.restrictions 4, cell.extractLsb' cfg.hmFieldOrder.height 4,
    cell.extractLsb' cfg.hmFieldOrder.classification 8)

end Sys2Proof.Machine
end

