-- ==== Sys2Proof/Machine/Ops.lean ====
section
/-! DEFINITION. The named operations over memory and registers: the address spaces (20_memory.md), the bit reader
(40_bitstream.md R150 to R154), fault entry (60_exceptions.md R349), the end of a job (70_reset_and_hazards.md R384),
START (R381, R382) and block reset (R380). -/

namespace Sys2Proof.Machine

/-! ## Memories -/

/-- The entry for index i, if one is listed. -/
def lookupCell {α : Type} (i : Nat) : List (Nat × α) → Option α
  | [] => none
  | (j, v) :: rest => if i = j then some v else lookupCell i rest

/-- The list without any entry for index i. -/
def eraseCell {α : Type} (i : Nat) (cells : List (Nat × α)) : List (Nat × α) :=
  cells.filter (fun e => decide (e.1 ≠ i))

/-- The list with an entry for index i put before the first greater index. -/
def insertCell {α : Type} (i : Nat) (v : α) : List (Nat × α) → List (Nat × α)
  | [] => [(i, v)]
  | (j, w) :: rest => if i < j then (i, v) :: (j, w) :: rest else (j, w) :: insertCell i v rest

/-- The known value of element i: what was written there, or the zero START put there; `none` where nothing is known. -/
def Memory.get? {α : Type} [Inhabited α] (m : Memory α) (i : Nat) : Option α :=
  match lookupCell i m.cells with
  | some v => some v
  | none => if i < m.zeroTo then some default else none

/-- What element i reads as: its known value, or the free value `free stamp i` (log 7). -/
def Memory.read {α : Type} [Inhabited α] (free : Nat → Nat → α) (m : Memory α) (i : Nat) : α :=
  (m.get? i).getD (free m.stamp i)

/-- Element i set to v; a zero where an unlisted element reads as zero is not listed. -/
def Memory.write {α : Type} [Inhabited α] [DecidableEq α] (m : Memory α) (i : Nat) (v : α) : Memory α :=
  if i < m.zeroTo ∧ v = default then { m with cells := eraseCell i m.cells }
  else { m with cells := insertCell i v (eraseCell i m.cells) }

/-- The first n elements set to zero. -/
def Memory.clearTo {α : Type} (m : Memory α) (n : Nat) : Memory α :=
  if n ≤ m.zeroTo then { m with cells := m.cells.filter (fun e => decide (n ≤ e.1)) }
  else { m with zeroTo := n, cells := m.cells.filter (fun e => decide (n ≤ e.1)) }

/-- A space whose first n elements are zero and whose others have no known value (70_reset_and_hazards.md R382). -/
def Memory.zeros {α : Type} (stamp n : Nat) : Memory α := ⟨stamp, n, []⟩

/-- The canonical form: indices strictly rising, and no entry equal to what an unlisted element reads as. -/
def Memory.wf {α : Type} [Inhabited α] [DecidableEq α] (m : Memory α) : Bool :=
  decide (m.cells.Pairwise (fun a b => a.1 < b.1))
    && m.cells.all (fun e => !(decide (e.1 < m.zeroTo) && decide (e.2 = default)))

/-! ## Free values -/

/-- Tags that keep the free values of different spaces and registers apart. -/
def tagSrc : Nat := 0
def tagOut : Nat := 1
def tagTileIdx : Nat := 2
def tagTileAttr : Nat := 3
def tagTmbuf : Nat := 4
def tagHm : Nat := 5
def tagSf : Nat := 6
def tagResult : Nat := 7
def tagRegister : Nat := 8
def tagFaultPos : Nat := 9
def tagWindow : Nat := 10

/-- A free Tile attribute record. -/
def freeAttr (stamp i : Nat) : TileAttr :=
  let v := Config.freeBits 3 tagTileAttr stamp i
  { hflip := v.getLsbD 0, vflip := v.getLsbD 1, priority := v.getLsbD 2 }

/-- A SpriteSubframe record from 36 bits, with w and h in 1..4. -/
def subframeOfBits (v : BitVec 36) : Subframe :=
  { x := sext8 (v.extractLsb' 0 8), y := sext8 (v.extractLsb' 8 8), w := sprSize (v.extractLsb' 16 2)
    h := sprSize (v.extractLsb' 18 2), tileIdx := v.extractLsb' 20 16 }

/-- A free SpriteSubframe record. -/
def freeSubframe (stamp i : Nat) : Subframe :=
  subframeOfBits (Config.freeBits 36 tagSf stamp i)

/-- A 32-bit register given the value n; the spec states no value for n of 2^32 or more (log 14). -/
def word32 (n tag stamp : Nat) : Word32 :=
  if n < 2 ^ 32 then BitVec.ofNat 32 n else Config.freeBits 32 tag stamp n

/-! ## Reads of the spaces -/

/-- SRC[i]. -/
def State.srcByte (s : State) (i : Nat) : Byte :=
  s.mem.src.read (Config.freeBits 8 tagSrc) i

/-- OutRead(OUT, i) (20_memory.md R82). -/
def State.outByte (s : State) (i : Nat) : Byte :=
  s.mem.out.read (Config.freeBits 8 tagOut) i

/-- OutRead(TMBUF, i) (20_memory.md R82). -/
def State.tmCellAt (s : State) (i : Nat) : Half :=
  s.mem.tmbuf.read (Config.freeBits 16 tagTmbuf) i

/-- Element i of HM. -/
def State.hmCellAt (s : State) (i : Nat) : Half :=
  s.mem.hm.read (Config.freeBits 16 tagHm) i

/-- TILES[i].index. -/
def State.tileIndex (s : State) (i : Nat) : Half :=
  s.mem.tileIdx.read (Config.freeBits 16 tagTileIdx) i

/-- The attribute bits of TILES[i]. -/
def State.tileAttrs (s : State) (i : Nat) : TileAttr :=
  s.mem.tileAttr.read freeAttr i

/-- TILES[i] (20_memory.md R83). -/
def State.tile (s : State) (i : Nat) : Tile :=
  { index := s.tileIndex i, attr := s.tileAttrs i }

/-- SF[i] (20_memory.md R85). -/
def State.subframe (s : State) (i : Nat) : Subframe :=
  s.mem.sf.read freeSubframe i

/-! ## The bit reader and MemRead -/

/-- Bit k of the input, counted from the most significant bit of SRC[0] (10_state.md R41, 40_bitstream.md R150). -/
def State.srcBit (s : State) (k : Nat) : Bool :=
  (s.srcByte (k / 8)).getLsbD (7 - k % 8)

/-- ReadBit() (40_bitstream.md R150). -/
def State.readBit (s : State) : Except FaultKind (Bool × State) :=
  if s.win.srcLen.toNat ≤ s.p / 8 then .error .unexpectedEndOfStream
  else .ok (s.srcBit s.p, { s with p := s.p + 1 })

/-- ReadBits(n), the bits read so far being `acc` (40_bitstream.md R151). -/
def State.readBitsFrom : Nat → Nat → State → Except FaultKind (Nat × State)
  | 0, acc, s => .ok (acc, s)
  | n + 1, acc, s =>
    match s.readBit with
    | .ok (b, t) => State.readBitsFrom n (2 * acc + b.toNat) t
    | .error k => .error k

/-- ReadBits(n) (40_bitstream.md R151). -/
def State.readBits (n : Nat) (s : State) : Except FaultKind (Nat × State) :=
  s.readBitsFrom n 0

/-- PeekBit() (40_bitstream.md R152). No token rule of the spec calls it. -/
def State.peekBit (s : State) : Except FaultKind (Bool × State) :=
  match s.readBit with
  | .ok (b, t) => .ok (b, { t with p := t.p - 1 })
  | .error k => .error k

/-- The position Align() moves p to (40_bitstream.md R153). -/
def alignedPos (cfg : Params) (p : Nat) : Nat :=
  if p % 8 ≠ 0 then (p / 8 + 1) * 8
  else
    match cfg.alignWhenAligned with
    | .noop => p
    | .skipByte => p + 8

/-- Align() (40_bitstream.md R153). -/
def State.align (s : State) : State :=
  { s with p := alignedPos s.cfg s.p }

/-- The n bytes at SRC[q ..] as a big-endian number, after the bytes `acc` (20_memory.md R81). -/
def State.srcBytes (s : State) : Nat → Nat → Nat → Nat
  | _, 0, acc => acc
  | q, n + 1, acc => s.srcBytes (q + 1) n (256 * acc + (s.srcByte q).toNat)

/-- MemRead(q, n) (20_memory.md R81). -/
def State.memRead (s : State) (q n : Nat) : Except FaultKind (Nat × State) :=
  if s.win.srcLen.toNat < q + n then .error .unexpectedEndOfStream
  else .ok (s.srcBytes q n 0, { s with p := 8 * (q + n) })

/-- The `n` input bits from bit k on. -/
def State.bitsAt (s : State) : Nat → Nat → List Bool
  | 0, _ => []
  | n + 1, k => s.srcBit k :: s.bitsAt n (k + 1)

/-- The unread input: the bits from p up to the end of byte SRC_LEN-1 (10_state.md R42). -/
def State.inputBits (s : State) : List Bool :=
  s.bitsAt (8 * s.win.srcLen.toNat - s.p) s.p

/-- p moved over n bits read (10_state.md R42). -/
def State.advance (s : State) (n : Nat) : State :=
  { s with p := s.p + n }

/-- The state when VarInt() has read one zero more than VARINT_MAX_EXP (40_bitstream.md R156, R157). -/
def State.tooManyZeros (s : State) : State :=
  { s with p := s.p + (s.cfg.varintMaxExp + 1), ve := s.cfg.varintMaxExp + 1 }

/-- VarInt() run on the coded number just read: p moves over it, VE holds its exponent, and its value is returned in
`varVal` (40_bitstream.md R156). More than VARINT_MAX_EXP zeros raise InvalidControlCode (R157). -/
def State.takeVarint (s : State) (c : VarCode) : Effect :=
  if s.cfg.varintMaxExp < c.exp then .error (⟨.invalidControlCode, s.p⟩, s.tooManyZeros)
  else .ok { s with p := s.p + (2 * c.exp + 1), ve := c.exp, varVal := c.value }

/-- Bytes consumed, ceil(p / 8) (40_bitstream.md R154). -/
def State.bytesConsumed (s : State) : Nat :=
  (s.p + 7) / 8

/-! ## Writes of the spaces -/

/-- OutWrite(OUT, i, v) (20_memory.md R82); `pos` is the token start a SizeMismatch records. -/
def State.outWrite (s : State) (i : Nat) (v : Byte) (pos : Nat) : Effect :=
  if s.win.outCap.toNat ≤ i then .error (⟨.sizeMismatch, pos⟩, s)
  else .ok { s with mem := { s.mem with out := s.mem.out.write i v } }

/-- OutWrite(TMBUF, i, v) (20_memory.md R82). -/
def State.tmWrite (s : State) (i : Nat) (v : Half) (pos : Nat) : Effect :=
  if s.win.outCap.toNat ≤ i then .error (⟨.sizeMismatch, pos⟩, s)
  else .ok { s with mem := { s.mem with tmbuf := s.mem.tmbuf.write i v } }

/-- OutWrite(HM, i, v) (20_memory.md R82). -/
def State.hmWrite (s : State) (i : Nat) (v : Half) (pos : Nat) : Effect :=
  if s.win.outCap.toNat ≤ i then .error (⟨.sizeMismatch, pos⟩, s)
  else .ok { s with mem := { s.mem with hm := s.mem.hm.write i v } }

/-- TILES[i].index <- v (42_bigtile.md R222). -/
def State.setTileIndex (s : State) (i : Nat) (v : Half) : State :=
  { s with mem := { s.mem with tileIdx := s.mem.tileIdx.write i v } }

/-- One attribute of a record set (42_bigtile.md R215). -/
def TileAttr.set (a : TileAttr) : Attr → TileAttr
  | .priority => { a with priority := true }
  | .vflip => { a with vflip := true }
  | .hflip => { a with hflip := true }

/-- The attribute set on the n tiles from index t on (42_bigtile.md R215). -/
def setAttrRun (m : Memory TileAttr) (a : Attr) : Nat → Nat → Memory TileAttr
  | _, 0 => m
  | t, n + 1 => setAttrRun (m.write t ((m.read freeAttr t).set a)) a (t + 1) n

/-! ## Taking a fault -/

/-- FAULT ENTRY (60_exceptions.md R349): FAULT_CODE, FAULT_POS and STATE are set and the job ends. The results and every
output space hold unspecified values: free values named by `stamp` (log 8). p and the unit registers keep what they hold
in the state the rule has reached (R359). There is no return from a fault: START begins a new job (R351),
`State.startJob`. -/
def State.raise (s : State) (f : Trap) : State :=
  { s with
    win :=
      { s.win with
        engine := .fault
        faultCode := f.kind.code
        faultPos := word32 f.pos tagFaultPos s.stamp
        resultCount := Config.freeBits 32 tagResult s.stamp 0
        resultConsumed := Config.freeBits 32 tagResult s.stamp 1
        resultAux := Config.freeBits 32 tagResult s.stamp 2
        resultGeom := Config.freeBits 32 tagResult s.stamp 3
        resultAux2 := Config.freeBits 32 tagResult s.stamp 4 }
    mem :=
      { src := s.mem.src, out := .unknown s.stamp, tileIdx := .unknown s.stamp, tileAttr := .unknown s.stamp
        tmbuf := .unknown s.stamp, hm := .unknown s.stamp, sf := .unknown s.stamp }
    phase := .none
    stamp := s.stamp + 1 }

/-- A token's effect as an answer: its next state, or fault entry from the state its rule has reached. -/
def settle : Effect → Answer
  | .ok t => .next t
  | .error (f, t) => .next (t.raise f)

/-! ## The end of a job -/

/-- The end of a job (70_reset_and_hazards.md R384): the result registers, then STATE = DONE. -/
def State.finishJob (s : State) (count consumed aux : Nat) (geom aux2 : Word32) : State :=
  { s with
    win :=
      { s.win with
        engine := .done
        resultCount := word32 count tagResult s.stamp
        resultConsumed := word32 consumed tagResult s.stamp
        resultAux := word32 aux tagResult s.stamp
        resultGeom := geom
        resultAux2 := aux2 }
    phase := .none
    stamp := s.stamp + 1 }

/-! ## START -/

/-- A register that START leaves unspecified (70_reset_and_hazards.md R382): a free value (log 6). -/
def freeReg (w stamp slot : Nat) : BitVec w :=
  Config.freeBits w tagRegister stamp slot

/-- The first grammar position of a codec's job (70_reset_and_hazards.md R381). -/
def firstPhase (codec : BitVec 2) : Phase :=
  if codec = 0 then .lz false
  else if codec = 1 then .btCount
  else if codec = 2 then .tmHdr
  else .sprHeader

/-- START while not BUSY (70_reset_and_hazards.md R381): FAULT_CODE, FAULT_POS and the results cleared, the job-start
values of R382, STATE = BUSY, and the job of CTRL.CODEC at its first token. -/
def State.startJob (s : State) : State :=
  let g := s.stamp
  { s with
    win :=
      { s.win with
        engine := .busy, faultCode := 0, faultPos := 0, resultCount := 0, resultConsumed := 0, resultAux := 0
        resultGeom := 0, resultAux2 := 0 }
    jobCodec := s.win.codec
    p := 0
    ve := 0
    varVal := 0
    lz := { ctl := freeReg 8 g 0, nctl := 0, out := 0, base := 0, bit := none }
    bt :=
      { n := 0, total := 0, attr := .priority, pos := 0, first := true
        q := Vector.ofFn fun j => freeReg 16 g (100 + j.val)
        occ := 0, k := 0 }
    tm :=
      { left := freeReg 8 g 1, top := freeReg 8 g 2, w := (freeReg 9 g 3).toNat, l := (freeReg 9 g 4).toNat
        h := (freeReg 10 g 5).toNat, t := (freeReg 18 g 6).toNat
        od := Vector.ofFn fun j => freeReg 16 g (200 + j.val)
        b0 := freeReg 10 g 7, b1 := freeReg 10 g 8, c0 := freeReg 16 g 9, c1 := freeReg 16 g 10, c := -1
        pc := (freeReg 18 g 11).toNat, sel := (freeReg 1 g 12).getLsbD 0, v := freeReg 16 g 13
        i := (freeReg 18 g 14).toNat, mode := none, second := false }
    hm := { w := freeReg 8 g 15, h := freeReg 8 g 16, j := (freeReg 16 g 17).toNat, run := 0, pat := freeReg 16 g 18 }
    sp := { q := 0, o := 0, cw := freeReg 16 g 19, nsf := 0, need := 0, tidx := 0 }
    mem :=
      { src := s.mem.src, out := .unknown g, tileIdx := .unknown g, tileAttr := .zeros g s.win.outCap.toNat
        tmbuf := .zeros g s.win.outCap.toNat, hm := .unknown g, sf := .unknown g }
    phase := firstPhase s.win.codec
    stamp := g + 1 }

/-! ## Block reset -/

/-- Block reset (70_reset_and_hazards.md R380), at any time: the state of `State.reset`, with every space of unknown
contents again. The parameters are the block's and stay; the turns to come are not the block's and stay (log 18). -/
def State.blockReset (s : State) : State :=
  { State.reset with
    cfg := s.cfg
    mem :=
      { src := .unknown s.stamp, out := .unknown s.stamp, tileIdx := .unknown s.stamp, tileAttr := .unknown s.stamp
        tmbuf := .unknown s.stamp, hm := .unknown s.stamp, sf := .unknown s.stamp }
    stamp := s.stamp + 1
    sched := s.sched }

end Sys2Proof.Machine
end

