-- ==== Sys2Proof/Machine/BigTile.lean ====
section
/-! DEFINITION. The big-tile block decoder (42_bigtile.md). -/

namespace Sys2Proof.Machine

/-! ## The job's sequence -/

/-- The end of a BTD job (42_bigtile.md R210). -/
def State.finishBigTiles (s : State) : State :=
  s.finishJob s.bt.n.toNat s.bytesConsumed 0 0 0

/-- The pair loop's start: the queue is emptied; without big tiles the job ends (42_bigtile.md R210). -/
def State.beginPairs (s : State) : State :=
  let t := { s with bt := { s.bt with occ := 0, k := 0 } }
  if s.bt.n = 0 then t.finishBigTiles else { t with phase := .btIndex }

/-- The start of the mask pass for one attribute (42_bigtile.md R212). -/
def State.beginMask (s : State) (a : Attr) : State :=
  { s with bt := { s.bt with attr := a, pos := 0, first := true }, phase := .btSkip }

/-- After BT.COUNT: the first mask, or, over zero tiles, three passes that read nothing and then the pair loop
(42_bigtile.md R210, R212). -/
def State.beginMasks (s : State) : State :=
  if s.bt.total = 0 then
    { s with bt := { s.bt with attr := .hflip, pos := 0, first := true } }.beginPairs
  else s.beginMask .priority

/-- After a mask pass: the next attribute's pass, or the pair loop (42_bigtile.md R210), in which BT_ATTR keeps hflip, a
DESIGN CHOICE (log 30). -/
def State.nextMask (s : State) : State :=
  match s.bt.attr with
  | .priority => s.beginMask .vflip
  | .vflip => s.beginMask .hflip
  | .hflip => s.beginPairs

/-- After a skip run: the pass ends at BT_TOTAL, else an apply run follows (42_bigtile.md R212). -/
def State.afterSkip (s : State) : State :=
  if s.bt.pos = s.bt.total then s.nextMask else { s with phase := .btApply }

/-- After an apply run: the pass ends at BT_TOTAL, else a skip run follows (42_bigtile.md R212). -/
def State.afterApply (s : State) : State :=
  if s.bt.pos = s.bt.total then s.nextMask else { s with phase := .btSkip }

/-- After pair BT_K: the next pair, or the end of the job after 2N pairs (42_bigtile.md R210, R222). The spec does not
say what BT_K holds after the last pair (10_state.md R48 bounds it by 2*BT_N): 2*BT_N, a DESIGN CHOICE (log 30). -/
def State.endPair (s : State) : State :=
  let t := { s with bt := { s.bt with k := s.bt.k + 1 } }
  if s.bt.k + 1 < 2 * s.bt.n.toNat then { t with phase := .btIndex } else t.finishBigTiles

/-! ## The queue -/

/-- PushFront(v) (42_bigtile.md R216): entries 0..min(BT_OCC, 15)-1 move back by one. -/
def BtRegs.pushFront (b : BtRegs) (v : Half) : BtRegs :=
  { b with
    q := Vector.ofFn fun j =>
      if j.val = 0 then v
      else if j.val ≤ min b.occ 15 then b.q[j.val - 1]'(by have := j.isLt; omega)
      else b.q[j]
    occ := min (b.occ + 1) 16 }

/-- MoveToFront(i) (42_bigtile.md R217): entry i to the front, entries 0..i-1 back by one. -/
def BtRegs.moveToFront (b : BtRegs) (i : BitVec 4) : BtRegs :=
  { b with
    q := Vector.ofFn fun j =>
      if j.val = 0 then b.q[i.toNat]'i.isLt
      else if j.val ≤ i.toNat then b.q[j.val - 1]'(by have := j.isLt; omega)
      else b.q[j] }

/-- A decoded tile index goes to tile 2k, whose companion flag follows, or, as an independent companion, to tile 2k+1,
which ends the pair (42_bigtile.md R221, R222). -/
def State.placeIndex (s : State) (v : Half) : State :=
  if s.phase = .btCompIndex then (s.setTileIndex (2 * s.bt.k + 1) v).endPair
  else { s.setTileIndex (2 * s.bt.k) v with phase := .btCompanion }

/-! ## Tokens -/

/-- BT.COUNT (42_bigtile.md R211). -/
def execBtCount (n : Half) (s : State) : Answer :=
  let t := s.advance 16
  let total := 4 * n.toNat
  let u := { t with bt := { t.bt with n := n, total := total } }
  settle <|
    if s.win.outCap.toNat < total then .error (⟨.sizeMismatch, s.p⟩, u)
    else .ok { u with mem := { u.mem with tileAttr := u.mem.tileAttr.clearTo total } }.beginMasks

/-- BT_POS moved by a skip run of n tiles read at p; past BT_TOTAL raises RunOverrun (42_bigtile.md R213, R214). -/
def State.skipTiles (s : State) (n pos : Nat) : Effect :=
  let t := { s with bt := { s.bt with pos := s.bt.pos + n } }
  if s.bt.total < s.bt.pos + n then .error (⟨.runOverrun, pos⟩, t)
  else .ok { t with bt := { t.bt with first := false } }.afterSkip

/-- BT.SKIP0 (42_bigtile.md R213): the first skip run of a mask, with no +1. -/
def execBtSkip0 (c : VarCode) (s : State) : Answer :=
  settle <|
    match s.takeVarint c with
    | .ok t => t.skipTiles t.varVal s.p
    | .error f => .error f

/-- BT.SKIP (42_bigtile.md R214): a later skip run. -/
def execBtSkip (c : VarCode) (s : State) : Answer :=
  settle <|
    match s.takeVarint c with
    | .ok t => t.skipTiles (t.varVal + 1) s.p
    | .error f => .error f

/-- BT.APPLY (42_bigtile.md R215): the check comes before any tile is set. -/
def execBtApply (c : VarCode) (s : State) : Answer :=
  settle <|
    match s.takeVarint c with
    | .error f => .error f
    | .ok t =>
      let a := t.varVal + 1
      if t.bt.total < t.bt.pos + a then .error (⟨.runOverrun, s.p⟩, t)
      else
        .ok
          { t with
            mem := { t.mem with tileAttr := setAttrRun t.mem.tileAttr t.bt.attr t.bt.pos a }
            bt := { t.bt with pos := t.bt.pos + a } }.afterApply

/-- BT.IDX.MTF (42_bigtile.md R218). -/
def execBtIdxMtf (i : BitVec 4) (s : State) : Answer :=
  let t := s.advance 5
  settle <|
    if t.bt.occ ≤ i.toNat then
      match s.cfg.btMtfOor with
      | .fault => .error (⟨.invalidDictionaryIndex, s.p⟩, t)
      | .clamp v => .ok (t.placeIndex v)
    else
      let u := { t with bt := t.bt.moveToFront i }
      .ok (u.placeIndex u.bt.q[0])

/-- BT.IDX.RAW (42_bigtile.md R219). -/
def execBtIdxRaw (r : BitVec 11) (s : State) : Answer :=
  let t := s.advance 12
  let v : Half := r.setWidth 16
  .next ({ t with bt := t.bt.pushFront v }.placeIndex v)

/-- BT.COMP.DER (42_bigtile.md R220): the companion is the index of tile 2k, minus 1 if that tile is hflipped, else
plus 1, mod 2^16; it is pushed only if BT_PUSH_DERIVED says so. -/
def execBtCompDer (s : State) : Answer :=
  let t := s.advance 1
  let cur := t.tileIndex (2 * t.bt.k)
  let comp := if (t.tileAttrs (2 * t.bt.k)).hflip then cur - 1 else cur + 1
  let u := if s.cfg.btPushDerived then { t with bt := t.bt.pushFront comp } else t
  .next (u.setTileIndex (2 * u.bt.k + 1) comp).endPair

/-- BT.COMP.IND (42_bigtile.md R221): an index token follows, a token of its own (log 11). -/
def execBtCompInd (s : State) : Answer :=
  .next { s.advance 1 with phase := .btCompIndex }

end Sys2Proof.Machine
end

