-- ==== Sys2Proof/Machine/Heightmap.lean ====
section
/-! DEFINITION. The end of a tilemap job: alignment and the heightmap (43_tilemap.md sections 6 and 7). -/

namespace Sys2Proof.Machine

/-- RESULT_GEOM of a TMD job (43_tilemap.md R276, 10_state.md R60). -/
def TmRegs.geom (t : TmRegs) : Word32 :=
  t.left.setWidth 32 ||| (t.top.setWidth 32 <<< 8) ||| (BitVec.ofNat 32 (t.w - 1) <<< 16)
    ||| (BitVec.ofNat 32 (t.l - 1) <<< 24)

/-- RESULT_AUX2 of a TMD job (43_tilemap.md R276, 10_state.md R61). -/
def HmRegs.dims (h : HmRegs) : Word32 :=
  h.w.setWidth 32 ||| (h.h.setWidth 32 <<< 8)

/-- HM_W * HM_H, the number of heightmap cells (43_tilemap.md R272). -/
def HmRegs.cells (h : HmRegs) : Nat :=
  h.w.toNat * h.h.toNat

/-- The end of a TMD job (43_tilemap.md R276). -/
def State.finishTilemap (s : State) : State :=
  s.finishJob s.tm.t s.bytesConsumed s.hm.cells s.tm.geom s.hm.dims

/-- TM.ALIGN (43_tilemap.md R271). The padding bits are don't-care. -/
def execTmAlign (_pad : List Bool) (s : State) : Answer :=
  .next { s.align with phase := .hmDim }

/-- HM.DIM (43_tilemap.md R272); an empty heightmap ends the job (R274). -/
def execHmDim (hw hh : Byte) (s : State) : Answer :=
  let a := s.advance 16
  let n := hw.toNat * hh.toNat
  let u := { a with hm := { a.hm with w := hw, h := hh } }
  settle <|
    if s.win.outCap.toNat < n then .error (⟨.sizeMismatch, s.p⟩, u)
    else
      let t := { u with hm := { u.hm with j := 0, run := 0 } }
      .ok (if n = 0 then t.finishTilemap else { t with phase := .hmCell })

/-- HM.RUN (43_tilemap.md R273). A run of 0 that HM_ZERO_RUN lets pass leaves HM_RUN at 0, so the next run follows. -/
def execHmRun (pat : Half) (k : Nat) (last : Byte) (s : State) : Answer :=
  let a := s.advance (16 + 8 * (k + 1))
  let r := runLength k last
  let u := { a with hm := { a.hm with pat := pat } }
  settle <|
    if r = 0 ∧ s.cfg.hmZeroRun = .fault then .error (⟨.invalidControlCode, s.p⟩, u)
    else .ok { u with hm := { u.hm with run := r } }

/-- HM.CELL (43_tilemap.md R274): implicit; the job ends after the last cell, and a run left over is ignored.
HM_J then holds HM_W * HM_H, a DESIGN CHOICE (log 30). -/
def execHmCell (s : State) : Answer :=
  settle <|
    match s.hmWrite s.hm.j s.hm.pat s.p with
    | .error f => .error f
    | .ok t =>
      let u := { t with hm := { t.hm with j := t.hm.j + 1, run := t.hm.run - 1 } }
      .ok (if u.hm.j < u.hm.cells then u else u.finishTilemap)

end Sys2Proof.Machine
end

