-- ==== Sys2Proof/Machine/Lz.lean ====
section
/-! DEFINITION. The LZ77 decoder, standalone and nested (41_lz77.md), and the end of a control word of the sprite
pixel loop, to which a nested sub-stream returns (44_sprite.md R307, R309, R310). -/

namespace Sys2Proof.Machine

/-! ## Control bits -/

/-- The control bit LZ_CTL[7], and the state with it shifted out and counted off (41_lz77.md R181). -/
def State.shiftCtl (s : State) : Bool × State :=
  (s.lz.ctl.getLsbD 7, { s with lz := { s.lz with ctl := s.lz.ctl <<< 1, nctl := s.lz.nctl - 1 } })

/-- The control bit the loop of 41_lz77.md R185 acts on: the one LZ.CTRL returned, else LZ_CTL[7]. -/
def State.ctlBit (s : State) : Bool :=
  match s.lz.bit with
  | some b => b
  | none => s.shiftCtl.1

/-- The state after the loop of R185 has taken its control bit. -/
def State.takeCtl (s : State) : State :=
  match s.lz.bit with
  | some _ => { s with lz := { s.lz with bit := none } }
  | none => s.shiftCtl.2

/-! ## LZDecode -/

/-- The initialisation of LZDecode(q0, o0) (41_lz77.md R180), with window base `base` (SPR_LZ_WINDOW, D42). -/
def State.beginLz (s : State) (q0 o0 base : Nat) (nested : Bool) : State :=
  { s with
    p := 8 * q0
    lz := { s.lz with nctl := 0, out := o0, base := base, bit := none }
    phase := .lz nested }

/-- `length` bytes copied one at a time from `offset` back (41_lz77.md R183, 70_reset_and_hazards.md R386). -/
def lzCopy (offset pos : Nat) : Nat → State → Effect
  | 0, s => .ok s
  | length + 1, s =>
    match s.outWrite s.lz.out (s.outByte (s.lz.out - offset)) pos with
    | .ok t => lzCopy offset pos length { t with lz := { t.lz with out := t.lz.out + 1 } }
    | .error f => .error f

/-! ## The end of a control word -/

/-- The results of an SPD job (44_sprite.md R310). -/
def State.finishSprite (s : State) : State :=
  s.finishJob s.sp.o s.sp.q s.sp.need 0 (word32 s.sp.nsf tagResult s.stamp)

/-- After the branch of a control word: its stop bit ends the pixel loop, else the next word follows
(44_sprite.md R304, R309). -/
def State.endWord (s : State) : State :=
  if sprStop s.sp.cw then s.finishSprite else { s with phase := .sprWord }

/-- Whether SPR_LZ_COUNT refuses a sub-stream of `nOut` bytes under the control word `cw`. -/
def lzCountRefuses (cfg : Params) (cw : Half) (nOut : Nat) : Bool :=
  match cfg.sprLzCount with
  | .ignore => false
  | .outputWords => decide (nOut ≠ 2 * sprCount cfg (cw.setWidth 12))

/-- The return from a nested sub-stream (44_sprite.md R307): SP_Q and SP_O advance by its lengths, and an odd output
length raises InvalidControlCode at the control word, which stands just before the sub-stream. -/
def State.returnFromLz (s : State) : Effect :=
  let nIn := s.p / 8 - s.sp.q
  let nOut := s.lz.out - s.sp.o
  let t := { s with sp := { s.sp with q := s.sp.q + nIn, o := s.sp.o + nOut } }
  let refused := (s.cfg.sprOddLz == .fault && nOut % 2 == 1) || lzCountRefuses s.cfg s.sp.cw nOut
  if refused then .error (⟨.invalidControlCode, 8 * (s.sp.q - 2)⟩, t) else .ok t.endWord

/-- The end of LZDecode: a standalone job ends (41_lz77.md R186), a nested sub-stream returns to the pixel loop
(44_sprite.md R307). -/
def State.endLz (s : State) : Effect :=
  if s.phase = .lz true then s.returnFromLz
  else .ok (s.finishJob s.lz.out (s.p / 8) 0 0 0)

/-! ## Tokens -/

/-- LZ.CTRL (41_lz77.md R181): the control byte is loaded and its first bit taken, which `lz.bit` then holds (log 9). -/
def execLzCtrl (c : Byte) (s : State) : Answer :=
  let t := s.advance 8
  let loaded := { t with lz := { t.lz with ctl := c, nctl := 8 } }
  let u := loaded.shiftCtl.2
  .next { u with lz := { u.lz with bit := some loaded.shiftCtl.1 } }

/-- LZ.LIT (41_lz77.md R182). -/
def execLzLit (lit : Byte) (s : State) : Answer :=
  let t := (s.advance 8).takeCtl
  settle <|
    match t.outWrite t.lz.out lit s.p with
    | .ok u => .ok { u with lz := { u.lz with out := u.lz.out + 1 } }
    | .error f => .error f

/-- LZ.REF (41_lz77.md R183): the window check comes before any byte is copied. -/
def execLzRef (offset : BitVec 12) (lcode : BitVec 4) (s : State) : Answer :=
  let t := (s.advance 16).takeCtl
  settle <|
    if t.lz.out - t.lz.base < offset.toNat then .error (⟨.backRefOutOfWindow, s.p⟩, t)
    else lzCopy offset.toNat s.p (lzLength lcode) t

/-- LZ.END (41_lz77.md R184): LZDecode ends. The length code is don't-care. With LZ_CTRL_LOAD = eager the terminator as
the 8th token of its group is followed by one more control byte, whose fault is its own (log 20). -/
def execLzEnd (_lcode : BitVec 4) (s : State) : Answer :=
  let t := (s.advance 16).takeCtl
  settle <|
    match s.cfg.lzCtrlLoad with
    | .lazy => t.endLz
    | .eager =>
      if t.lz.nctl ≠ 0 then t.endLz
      else
        match t.memRead (t.p / 8) 1 with
        | .error k => .error (⟨k, t.p⟩, t)
        | .ok (c, u) => { u with lz := { u.lz with ctl := BitVec.ofNat 8 c, nctl := 8 } }.endLz

end Sys2Proof.Machine
end

