-- ==== Sys2Proof/Machine/Sprite.lean ====
section
/-! DEFINITION. The sprite-frame dispatcher (44_sprite.md). -/

namespace Sys2Proof.Machine

/-! ## Subframe headers -/

/-- DecodeSubframe and AddSubframe for a header read at SP_Q (44_sprite.md R302, R303): b1[7] = 1 is refused. -/
def State.addSubframe (s : State) (last : Bool) (y : BitVec 5) (w : BitVec 2) (r : Bool) (x : BitVec 5)
    (h : BitVec 2) : Effect :=
  let b := s.advance 16
  let a := { b with sp := { b.sp with q := b.sp.q + 2 } }
  let area := sprSize w * sprSize h
  let record : Subframe :=
    { x := sprPos s.cfg (sprByte r x h), y := sprPos s.cfg (sprByte last y w), w := sprSize w, h := sprSize h
      tileIdx := BitVec.ofNat 16 s.sp.tidx }
  let t :=
    { a with
      sp := { a.sp with tidx := a.sp.tidx + area, need := a.sp.need + area, nsf := a.sp.nsf + 1 }
      mem := { a.mem with sf := a.mem.sf.write a.sp.nsf record } }
  match s.cfg.sprB1Bit7 with
  | .fault => if r then .error (⟨.invalidControlCode, s.p⟩, a) else .ok t
  | .accept => .ok t

/-- SPR.SF (44_sprite.md R301): another header follows. -/
def execSprSf (y : BitVec 5) (w : BitVec 2) (r : Bool) (x : BitVec 5) (h : BitVec 2) (s : State) : Answer :=
  settle <|
    match s.addSubframe false y w r x h with
    | .ok t => .ok { t with phase := .sprHeader }
    | .error f => .error f

/-- SPR.SF.LAST (44_sprite.md R311): the pixel loop follows. -/
def execSprSfLast (y : BitVec 5) (w : BitVec 2) (r : Bool) (x : BitVec 5) (h : BitVec 2) (s : State) : Answer :=
  settle <|
    match s.addSubframe true y w r x h with
    | .ok t => .ok { t with phase := .sprWord }
    | .error f => .error f

/-! ## Control words -/

/-- A control word read into SP_CW, SP_Q past it (44_sprite.md R304); bit 12 is refused (R305). -/
def State.takeWord (s : State) (cw : Half) (r : Bool) : Effect :=
  let a := s.advance 16
  let t := { a with sp := { a.sp with cw := cw, q := a.sp.q + 2 } }
  match s.cfg.sprBit12 with
  | .fault => if r then .error (⟨.invalidControlCode, s.p⟩, t) else .ok t
  | .accept => .ok t

/-- `count` zero words, each as two bytes (44_sprite.md R306). -/
def zeroWords (pos : Nat) : Nat → State → Effect
  | 0, s => .ok s
  | count + 1, s =>
    match s.outWrite s.sp.o 0 pos with
    | .error f => .error f
    | .ok t =>
      match t.outWrite (t.sp.o + 1) 0 pos with
      | .error f => .error f
      | .ok u => zeroWords pos count { u with sp := { u.sp with o := u.sp.o + 2 } }

/-- `count` input words copied, each read before its two bytes are written (44_sprite.md R308). A read past SRC_LEN
records the start of the SPR.RAW token (60_exceptions.md R349). -/
def rawWords (pos : Nat) : Nat → State → Effect
  | 0, s => .ok s
  | count + 1, s =>
    match s.memRead s.sp.q 2 with
    | .error k => .error (⟨k, pos⟩, s)
    | .ok (wd, s') =>
      let t := { s' with sp := { s'.sp with q := s'.sp.q + 2 } }
      match t.outWrite t.sp.o (BitVec.ofNat 8 (wd / 256)) pos with
      | .error f => .error f
      | .ok u =>
        match u.outWrite (u.sp.o + 1) (BitVec.ofNat 8 wd) pos with
        | .error f => .error f
        | .ok v => rawWords pos count { v with sp := { v.sp with o := v.sp.o + 2 } }

/-- SPR.ZERO (44_sprite.md R306). The L bit is don't-care. -/
def execSprZero (stop l r : Bool) (count : BitVec 12) (s : State) : Answer :=
  settle <|
    match s.takeWord (sprWord true stop l r count) r with
    | .error f => .error f
    | .ok t =>
      match zeroWords s.p (sprCount s.cfg count) t with
      | .error f => .error f
      | .ok u => .ok u.endWord

/-- SPR.LZ (44_sprite.md R307): LZDecode(SP_Q, SP_O) begins. The tokens of the sub-stream are steps of their own, and
its LZ.END returns to the pixel loop (log 10). The count is ignored (SPR_LZ_COUNT). -/
def execSprLz (stop r : Bool) (count : BitVec 12) (s : State) : Answer :=
  settle <|
    match s.takeWord (sprWord false stop true r count) r with
    | .error f => .error f
    | .ok t =>
      match s.cfg.sprLzWindow with
      | .substream => .ok (t.beginLz t.sp.q t.sp.o t.sp.o true)
      | .wholeOut => .ok (t.beginLz t.sp.q t.sp.o 0 true)

/-- SPR.RAW (44_sprite.md R308): the data words are read here, after the control word (log 13). -/
def execSprRaw (stop r : Bool) (count : BitVec 12) (s : State) : Answer :=
  settle <|
    match s.takeWord (sprWord false stop false r count) r with
    | .error f => .error f
    | .ok t =>
      match rawWords s.p (sprCount s.cfg count) t with
      | .error f => .error f
      | .ok u => .ok u.endWord

end Sys2Proof.Machine
end

