-- ==== Sys2Proof/Machine/Tilemap.lean ====
section
/-! DEFINITION. The isometric tilemap decompressor, phases 1 and 2 (43_tilemap.md sections 2 to 5). -/

namespace Sys2Proof.Machine

/-! ## Header and dictionaries -/

/-- TM.HDR (43_tilemap.md R251). -/
def execTmHdr (left top wm1 hs : Byte) (s : State) : Answer :=
  let a := s.advance 32
  let w := wm1.toNat + 1
  let l := hs.toNat + 1
  let t := w * (2 * l)
  let b := { a with tm := { a.tm with left := left, top := top, w := w, l := l, h := 2 * l, t := t } }
  settle <|
    if s.win.outCap.toNat < t then .error (⟨.sizeMismatch, s.p⟩, b)
    else .ok { b with phase := .tmTdict }

/-- B0 <- v (43_tilemap.md R252). With TM_COUNTERS_ALIAS its storage is that of C0, 16 bits wide (10_state.md R51). -/
def State.setB0 (s : State) (v : BitVec 10) : State :=
  if s.cfg.tmCountersAlias then { s with tm := { s.tm with c0 := v.setWidth 16 } }
  else { s with tm := { s.tm with b0 := v } }

/-- B1 <- v (43_tilemap.md R252). With TM_COUNTERS_ALIAS its storage is that of C1, 16 bits wide (10_state.md R51). -/
def State.setB1 (s : State) (v : BitVec 10) : State :=
  if s.cfg.tmCountersAlias then { s with tm := { s.tm with c1 := v.setWidth 16 } }
  else { s with tm := { s.tm with b1 := v } }

/-- TM.TDICT (43_tilemap.md R252). -/
def execTmTdict (b0 b1 : BitVec 10) (s : State) : Answer :=
  .next { ((s.advance 20).setB0 b0).setB1 b1 with phase := .tmOdict }

/-- The six fixed entries of OD (43_tilemap.md R253). -/
def fixedOffsets (w : Nat) : Vector Half 6 :=
  #v[0xFFFF, 1, 2, BitVec.ofNat 16 w, BitVec.ofNat 16 (2 * w), BitVec.ofNat 16 (w + 1)]

/-- TM.ODICT (43_tilemap.md R253); phase 1 then starts at the cursor -1 (R254). -/
def execTmOdict (v6 v7 v8 v9 v10 v11 v12 v13 : BitVec 12) (s : State) : Answer :=
  let a := s.advance 96
  let od : Vector Half 14 :=
    fixedOffsets a.tm.w ++
      #v[v6.setWidth 16, v7.setWidth 16, v8.setWidth 16, v9.setWidth 16,
        v10.setWidth 16, v11.setWidth 16, v12.setWidth 16, v13.setWidth 16]
  .next { a with tm := { a.tm with od := od, c := -1 }, phase := .tmDelta }

/-! ## The extent of phases 1 and 2 (TM_PASS_EXTENT) -/

/-- The first cell of the current pass: 0, or T/2 in the second pass of `perLayer` (log 20). -/
def State.passBase (s : State) : Nat :=
  match s.cfg.tmPassExtent with
  | .whole => 0
  | .perLayer => if s.tm.second then s.tm.t / 2 else 0

/-- The end of the current pass: T, or T/2 in the first pass of `perLayer` (43_tilemap.md R254; log 20). -/
def State.passEnd (s : State) : Nat :=
  match s.cfg.tmPassExtent with
  | .whole => s.tm.t
  | .perLayer => if s.tm.second then s.tm.t else s.tm.t / 2

/-- After phase 2: TM.ALIGN (43_tilemap.md R250), or, after the first pass of `perLayer`, phase 1 of the second, with
the cursor just before its first cell (log 20). -/
def State.endPass (s : State) : State :=
  if s.cfg.tmPassExtent = .perLayer ∧ s.tm.second = false then
    { s with tm := { s.tm with second := true, c := ((s.tm.t / 2 : Nat) : Int) - 1 }, phase := .tmDelta }
  else { s with phase := .tmAlign }

/-- Before cell TM_I: the cell follows, or the end of the pass (43_tilemap.md R264). After the last cell TM_I holds T, a
DESIGN CHOICE (log 30). -/
def State.nextCell (s : State) : State :=
  if s.tm.i < s.passEnd then { s with phase := .tmCell } else s.endPass

/-! ## Phase 1 -/

/-- TM.DELTA (43_tilemap.md R255): the cursor moves; a command follows (R254). -/
def execTmDelta (c : VarCode) (s : State) : Answer :=
  settle <|
    match s.takeVarint c with
    | .ok t => .ok { t with tm := { t.tm with c := t.tm.c + (deltaOf t.varVal : Int) }, phase := .tmCmd }
    | .error f => .error f

/-- C0 <- B0, C1 <- B1 (43_tilemap.md R264). With TM_COUNTERS_ALIAS they are the same storage (10_state.md R51), and
nothing changes: in the second pass of `perLayer` the counters go on. -/
def State.seedCounters (s : State) : State :=
  if s.cfg.tmCountersAlias then s
  else { s with tm := { s.tm with c0 := s.tm.b0.setWidth 16, c1 := s.tm.b1.setWidth 16 } }

/-- Phase 2 begins: the counters are seeded, no mode is set (43_tilemap.md R264). That each pass of `perLayer` begins it
anew is a DESIGN CHOICE (log 20). -/
def State.beginFill (s : State) : State :=
  let t := s.seedCounters
  { t with tm := { t.tm with mode := none, i := t.passBase } }.nextCell

/-- TM.END (43_tilemap.md R256): phase 1 ends and phase 2 begins. The cursor has moved to T or beyond (R254). -/
def execTmEnd (c : VarCode) (s : State) : Answer :=
  settle <|
    match s.takeVarint c with
    | .ok t => .ok { t with tm := { t.tm with c := t.tm.c + (deltaOf t.varVal : Int) } }.beginFill
    | .error f => .error f

/-- A command's value placed at the cursor, and propagation begun there (43_tilemap.md R254, R259). -/
def State.placeCommand (s : State) (v : Half) (pos : Nat) : Effect :=
  let a := { s with tm := { s.tm with v := v } }
  match a.tmWrite a.tm.c.toNat v pos with
  | .ok t =>
    .ok { t with tm := { t.tm with pc := t.tm.c.toNat, sel := s.cfg.tmPropagate.firstSel }, phase := .tmPropA }
  | .error f => .error f

/-- TM.CMD.S (43_tilemap.md R257). -/
def execTmCmdS (c : BitVec 3) (s : State) : Answer :=
  settle ((s.advance 3).placeCommand (s.tm.od[c.toNat]'(by have := c.isLt; omega)) s.p)

/-- TM.CMD.X (43_tilemap.md R258). -/
def execTmCmdX (x : BitVec 1) (e : BitVec 2) (s : State) : Answer :=
  settle ((s.advance 5).placeCommand s.tm.od[extIndex s.cfg x e] s.p)

/-- The stride of the current inner run: W, or W+1 when TM_SEL is set (43_tilemap.md R260). -/
def TmRegs.stride (t : TmRegs) : Nat :=
  if t.sel then t.w + 1 else t.w

/-- p moved over the propagation bit just examined, if TM_PROPAGATE consumes it (43_tilemap.md R259). -/
def State.passBit (s : State) (consumed : Bool) : State :=
  s.advance consumed.toNat

/-- An inner run ended: the stride toggles and a bit A follows (43_tilemap.md R259). -/
def State.endRun (s : State) : State :=
  { s with tm := { s.tm with sel := !s.tm.sel }, phase := .tmPropA }

/-- TM.PROP.RUN (43_tilemap.md R260): an inner run starts, from the last cell or as TM_PROPAGATE says. -/
def execTmPropRun (s : State) : Answer :=
  let a := s.passBit s.cfg.tmPropagate.consumeRun
  let pc := if s.cfg.tmPropagate.fromCommand then a.tm.c.toNat else a.tm.pc
  .next { a with tm := { a.tm with pc := pc }, phase := .tmPropB }

/-- TM.PROP.STOP (43_tilemap.md R261): the next delta follows. -/
def execTmPropStop (s : State) : Answer :=
  .next { s.passBit s.cfg.tmPropagate.consumeStop with phase := .tmDelta }

/-- TM.PROP.CELL (43_tilemap.md R262). -/
def execTmPropCell (s : State) : Answer :=
  let a := s.passBit s.cfg.tmPropagate.consumeCell
  let b := { a with tm := { a.tm with pc := a.tm.pc + a.tm.stride } }
  settle <|
    if b.passEnd ≤ b.tm.pc then
      match s.cfg.tmPropagate.pastEnd with
      | .fault => .error (⟨.runOverrun, s.p⟩, b)
      | .endRun => .ok a.endRun
    else
      match b.tmWrite b.tm.pc b.tm.v s.p with
      | .ok t => .ok { t with phase := .tmPropB }
      | .error f => .error f

/-- TM.PROP.ENDRUN (43_tilemap.md R263): the stride toggles. -/
def execTmPropEndrun (s : State) : Answer :=
  .next (s.passBit s.cfg.tmPropagate.consumeEndrun).endRun

/-! ## Phase 2 -/

/-- The mode at cell TM_I (43_tilemap.md R264): the cell's phase-1 value if that is not 0, else the mode so far; before
the first non-zero cell the parameter TM_INITIAL_MODE decides, and `none` is a fault. -/
def State.cellMode (s : State) : Option Half :=
  if s.tmCellAt s.tm.i ≠ 0 then some (s.tmCellAt s.tm.i)
  else
    match s.tm.mode with
    | some m => some m
    | none => s.cfg.tmInitialMode

/-- Cell TM_I takes its final value; the next cell follows, or TM.ALIGN after the last (43_tilemap.md R264, R250). -/
def State.fillCell (s : State) (v : Half) (pos : Nat) : Effect :=
  match s.tmWrite s.tm.i v pos with
  | .ok t => .ok { t with tm := { t.tm with i := t.tm.i + 1 } }.nextCell
  | .error f => .error f

/-- The state with TM_MODE set as the scan of R264 sets it at this cell. -/
def State.setMode (s : State) : State :=
  { s with tm := { s.tm with mode := s.cellMode } }

/-- B0, from which selector 0 takes its bit count; with TM_COUNTERS_ALIAS it is the storage of C0 (10_state.md R51,
`State.setB0`). -/
def State.bound0 (s : State) : Nat :=
  if s.cfg.tmCountersAlias then s.tm.c0.toNat else s.tm.b0.toNat

/-- B1, which selector 1 adds; with TM_COUNTERS_ALIAS it is the storage of C1 (10_state.md R51, `State.setB1`). -/
def State.bound1 (s : State) : Nat :=
  if s.cfg.tmCountersAlias then s.tm.c1.toNat else s.tm.b1.toNat

/-- The bound whose bit count sizes selector 1 (TM_SEL1_BOUND, 43_tilemap.md R267). -/
def State.sel1Bound (s : State) : Nat :=
  match s.cfg.tmSel1Bound with
  | .boundB0 => s.bound0
  | .boundB1 => s.bound1

/-- TM.COPY (43_tilemap.md R265): implicit. A cell in no mode is the fault of R264. -/
def execTmCopy (s : State) : Answer :=
  let a := s.setMode
  settle <|
    match s.cellMode with
    | none => .error (⟨.invalidControlCode, s.p⟩, s)
    | some d =>
      if a.tm.i < d.toNat then .error (⟨.backRefOutOfWindow, s.p⟩, a)
      else a.fillCell (a.tmCellAt (a.tm.i - d.toNat)) s.p

/-- TM.LIT.RAW (43_tilemap.md R266). A bound of 0 has no bit count. -/
def execTmLitRaw (n v : Nat) (s : State) : Answer :=
  settle <|
    if s.bound0 = 0 then .error (⟨.invalidDictionaryIndex, s.p⟩, (s.advance 2).setMode)
    else (s.advance (2 + n)).setMode.fillCell (BitVec.ofNat 16 v) s.p

/-- TM.LIT.OFS (43_tilemap.md R267). -/
def execTmLitOfs (n v : Nat) (s : State) : Answer :=
  settle <|
    if s.sel1Bound = 0 then .error (⟨.invalidDictionaryIndex, s.p⟩, (s.advance 2).setMode)
    else (s.advance (2 + n)).setMode.fillCell (BitVec.ofNat 16 (s.bound1 + v)) s.p

/-- TM.LIT.CNT0 (43_tilemap.md R268): C0, which then counts up mod 2^16. -/
def execTmLitCnt0 (s : State) : Answer :=
  settle <|
    match (s.advance 2).setMode.fillCell s.tm.c0 s.p with
    | .ok t => .ok { t with tm := { t.tm with c0 := t.tm.c0 + 1 } }
    | .error f => .error f

/-- TM.LIT.CNT1 (43_tilemap.md R269): C1, which then counts up mod 2^16. -/
def execTmLitCnt1 (s : State) : Answer :=
  settle <|
    match (s.advance 2).setMode.fillCell s.tm.c1 s.p with
    | .ok t => .ok { t with tm := { t.tm with c1 := t.tm.c1 + 1 } }
    | .error f => .error f

end Sys2Proof.Machine
end

