-- ==== Sys2Proof/Machine/Varint.lean ====
section
/-! DEFINITION. The VARINT row (40_bitstream.md section 2). -/

namespace Sys2Proof.Machine

/-- VARINT (40_bitstream.md R156): the coded number by itself. Its value is what `varVal` holds after it (log 12). -/
def execVarint (c : VarCode) (s : State) : Answer :=
  settle (s.takeVarint c)

end Sys2Proof.Machine
end

