-- ==== Sys2Proof/Machine/Dispatch.lean ====
section
/-! DEFINITION. The meaning of every token: one arm per constructor of `Instr`. -/

namespace Sys2Proof.Machine

def exec (i : Instr) (s : State) : Host.Outcome State Fault Refusal :=
  match i with
  | .varint c => Sys2Proof.Machine.execVarint c s
  | .lzCtrl c => Sys2Proof.Machine.execLzCtrl c s
  | .lzLit lit => Sys2Proof.Machine.execLzLit lit s
  | .lzRef offset lcode => Sys2Proof.Machine.execLzRef offset lcode s
  | .lzEnd lcode => Sys2Proof.Machine.execLzEnd lcode s
  | .btCount n => Sys2Proof.Machine.execBtCount n s
  | .btSkip0 c => Sys2Proof.Machine.execBtSkip0 c s
  | .btSkip c => Sys2Proof.Machine.execBtSkip c s
  | .btApply c => Sys2Proof.Machine.execBtApply c s
  | .btIdxMtf j => Sys2Proof.Machine.execBtIdxMtf j s
  | .btIdxRaw r => Sys2Proof.Machine.execBtIdxRaw r s
  | .btCompDer => Sys2Proof.Machine.execBtCompDer s
  | .btCompInd => Sys2Proof.Machine.execBtCompInd s
  | .tmHdr left top wm1 hs => Sys2Proof.Machine.execTmHdr left top wm1 hs s
  | .tmTdict b0 b1 => Sys2Proof.Machine.execTmTdict b0 b1 s
  | .tmOdict v6 v7 v8 v9 v10 v11 v12 v13 => Sys2Proof.Machine.execTmOdict v6 v7 v8 v9 v10 v11 v12 v13 s
  | .tmDelta c => Sys2Proof.Machine.execTmDelta c s
  | .tmEnd c => Sys2Proof.Machine.execTmEnd c s
  | .tmCmdS c => Sys2Proof.Machine.execTmCmdS c s
  | .tmCmdX x e => Sys2Proof.Machine.execTmCmdX x e s
  | .tmPropRun => Sys2Proof.Machine.execTmPropRun s
  | .tmPropStop => Sys2Proof.Machine.execTmPropStop s
  | .tmPropCell => Sys2Proof.Machine.execTmPropCell s
  | .tmPropEndrun => Sys2Proof.Machine.execTmPropEndrun s
  | .tmCopy => Sys2Proof.Machine.execTmCopy s
  | .tmLitRaw n v => Sys2Proof.Machine.execTmLitRaw n v s
  | .tmLitOfs n v => Sys2Proof.Machine.execTmLitOfs n v s
  | .tmLitCnt0 => Sys2Proof.Machine.execTmLitCnt0 s
  | .tmLitCnt1 => Sys2Proof.Machine.execTmLitCnt1 s
  | .tmAlign pad => Sys2Proof.Machine.execTmAlign pad s
  | .hmDim hw hh => Sys2Proof.Machine.execHmDim hw hh s
  | .hmRun pat k last => Sys2Proof.Machine.execHmRun pat k last s
  | .hmCell => Sys2Proof.Machine.execHmCell s
  | .sprSf y w r x h => Sys2Proof.Machine.execSprSf y w r x h s
  | .sprSfLast y w r x h => Sys2Proof.Machine.execSprSfLast y w r x h s
  | .sprZero stop l r count => Sys2Proof.Machine.execSprZero stop l r count s
  | .sprLz stop r count => Sys2Proof.Machine.execSprLz stop r count s
  | .sprRaw stop r count => Sys2Proof.Machine.execSprRaw stop r count s

end Sys2Proof.Machine
end

