-- ==== Sys2Proof/Machine/HostMoves.lean ====
section
/-! DEFINITION. HOST: its moves and what it reads (10_state.md R32 to R40, 20_memory.md R98, R102,
70_reset_and_hazards.md R380 to R385). -/

namespace Sys2Proof.Machine

/-! ## Moves -/

/-- A write of CTRL while not BUSY (10_state.md R32): CODEC takes bits 1..0, and bit 8 starts a job of the new CODEC
(70_reset_and_hazards.md R381). -/
def State.writeCtrl (s : State) (v : Word32) : State :=
  let t := { s with win := { s.win with codec := v.setWidth 2 } }
  if v.getLsbD 8 then t.startJob else t

/-- A window write (10_state.md R32 to R40). While BUSY it is ignored (70_reset_and_hazards.md R385); STATUS, the
results and the reserved offsets ignore every write, and so does an offset inside a word, where no register starts
(log 16). -/
def State.writeWindow (s : State) (offset : Nat) (v : Word32) : Answer :=
  if s.win.engine = .busy then .next s
  else if offset = 0x00 then .next (s.writeCtrl v)
  else if offset = 0x08 then .next { s with win := { s.win with srcLen := v } }
  else if offset = 0x0C then .next { s with win := { s.win with outCap := v } }
  else .next s

/-- A write of SRC (20_memory.md R80), which the spec forbids while BUSY (R102). -/
def State.writeSrc (s : State) (i : Nat) (v : Byte) : Answer :=
  if s.win.engine = .busy then .refused .hostWroteSrcWhileBusy
  else .next { s with mem := { s.mem with src := s.mem.src.write i v } }

/-- One move of HOST. -/
def State.hostMove (s : State) : HostMove → Answer
  | .writeWindow offset v => s.writeWindow offset v
  | .writeSrc i v => s.writeSrc i v
  | .reset => .next s.blockReset

/-! ## Reads -/

/-- A window read (10_state.md R32 to R40, R60, R61): reserved offsets read 0, and an offset inside a word, where no
register starts, a free value (log 16). A read has no side effect. -/
def State.readWindow (s : State) (offset : Nat) : Word32 :=
  if offset = 0x00 then s.win.ctrl
  else if offset = 0x04 then s.win.status
  else if offset = 0x08 then s.win.srcLen
  else if offset = 0x0C then s.win.outCap
  else if offset = 0x10 then s.win.resultCount
  else if offset = 0x14 then s.win.resultConsumed
  else if offset = 0x18 then s.win.resultAux
  else if offset = 0x1C then s.win.faultPos
  else if offset = 0x20 then s.win.resultGeom
  else if offset = 0x24 then s.win.resultAux2
  else if offset < 0x28 ∧ offset % 4 ≠ 0 then Config.freeRead 32 tagWindow s.stamp s.p offset
  else 0

/-- Whether element i of an output space is part of the result of the job that ended with `n` elements there
(70_reset_and_hazards.md R384): only then has a HOST read a value (20_memory.md R98.3, 60_exceptions.md R349). -/
def State.inResult (s : State) (n i : Nat) : Bool :=
  decide (s.win.engine = .done) && decide (i < n)

/-- HOST's read of OUT[i] after an LZD or SPD job; else a free value (log 15). -/
def State.hostReadOut (s : State) (i : Nat) : Byte :=
  if s.inResult s.win.resultCount.toNat i && (s.jobCodec == 0 || s.jobCodec == 3) then s.outByte i
  else Config.freeRead 8 tagOut s.stamp s.p i

/-- HOST's read of TILES[i] after a BTD job; else free values (log 15). -/
def State.hostReadTile (s : State) (i : Nat) : Tile :=
  if s.inResult (4 * s.win.resultCount.toNat) i && s.jobCodec == 1 then s.tile i
  else
    let v := Config.freeRead 19 tagTileIdx s.stamp s.p i
    { index := v.extractLsb' 3 16
      attr := { hflip := v.getLsbD 0, vflip := v.getLsbD 1, priority := v.getLsbD 2 } }

/-- HOST's view of big tile b (42_bigtile.md R223): top-left, top-right, bottom-left, bottom-right. -/
def State.hostReadBigTile (s : State) (b : Nat) : Tile × Tile × Tile × Tile :=
  (s.hostReadTile (4 * b), s.hostReadTile (4 * b + 1), s.hostReadTile (4 * b + 2), s.hostReadTile (4 * b + 3))

/-- HOST's read of TMBUF[i] after a TMD job; else a free value (log 15). -/
def State.hostReadTmbuf (s : State) (i : Nat) : Half :=
  if s.inResult s.win.resultCount.toNat i && s.jobCodec == 2 then s.tmCellAt i
  else Config.freeRead 16 tagTmbuf s.stamp s.p i

/-- The width of the layers as RESULT_GEOM gives it (10_state.md R60). -/
def State.hostWidth (s : State) : Nat :=
  (s.win.resultGeom.extractLsb' 16 8).toNat + 1

/-- HOST's read of cell (x, y) of the foreground layer (20_memory.md R84, 43_tilemap.md R270). -/
def State.hostReadFg (s : State) (x y : Nat) : Half :=
  s.hostReadTmbuf (y * s.hostWidth + x)

/-- HOST's read of cell (x, y) of the background layer (20_memory.md R84, 43_tilemap.md R270). -/
def State.hostReadBg (s : State) (x y : Nat) : Half :=
  s.hostReadTmbuf (s.win.resultCount.toNat / 2 + y * s.hostWidth + x)

/-- HOST's read of HM[i] after a TMD job; else a free value (log 15). -/
def State.hostReadHm (s : State) (i : Nat) : Half :=
  if s.inResult s.win.resultAux.toNat i && s.jobCodec == 2 then s.hmCellAt i
  else Config.freeRead 16 tagHm s.stamp s.p i

/-- HOST's read of heightmap cell (x, y): HM is row-major with width hw (20_memory.md R84), which RESULT_AUX2 shows
(10_state.md R61). -/
def State.hostReadHmAt (s : State) (x y : Nat) : Half :=
  s.hostReadHm (y * (s.win.resultAux2.extractLsb' 0 8).toNat + x)

/-- HOST's read of the fields of HM[i]: restrictions, height, classification (43_tilemap.md R275). -/
def State.hostReadHmFields (s : State) (i : Nat) : BitVec 4 × BitVec 4 × BitVec 8 :=
  hmFields s.cfg (s.hostReadHm i)

/-- HOST's read of SF[i] after an SPD job; else free values (log 15). -/
def State.hostReadSf (s : State) (i : Nat) : Subframe :=
  if s.inResult s.win.resultAux2.toNat i && s.jobCodec == 3 then s.subframe i
  else subframeOfBits (Config.freeRead 36 tagSf s.stamp s.p i)

end Sys2Proof.Machine
end

