-- ==== Sys2Proof/Machine/Fetch.lean ====
section
/-! DEFINITION. Which token DEC reads next (30_encoding.md R135, 00_scope.md R16), and reading it at the cursor. -/

namespace Sys2Proof.Machine

/-- What the grammar position and the hidden state ask for. -/
inductive Selected
  /-- A token of this kind. -/
  | token (want : Expect)
  /-- No token: an implicit check fails (43_tilemap.md R264). -/
  | trap (k : FaultKind)
  /-- No grammar position. -/
  | stuck
deriving DecidableEq, Repr

/-- The payload bits of a literal whose bound is `bound`; a bound of 0 reads none and its token faults
(43_tilemap.md R266, R267). -/
def literalBits (cfg : Params) (bound : Nat) : Nat :=
  if bound = 0 then 0 else ilog2 cfg.tmIlog2 bound

/-- Cell TM_I in phase 2: its mode selects a copy or a literal, and no mode is InvalidControlCode (43_tilemap.md
R264). -/
def State.selectCell (s : State) : Selected :=
  match s.cellMode with
  | none => .trap .invalidControlCode
  | some m =>
    if m = 0xFFFF then .token (.tmLit (literalBits s.cfg s.bound0) (literalBits s.cfg s.sel1Bound))
    else .token .tmCopy

/-- The next LZ token: a control byte when a control bit is needed and none remain, else what the control bit selects
(41_lz77.md R181, R185). Within a stream a control bit is always needed next, so LZ_CTRL_LOAD makes a difference at its
end alone (`execLzEnd`). -/
def State.selectLz (s : State) : Selected :=
  if s.lz.bit = none ∧ s.lz.nctl = 0 then .token .lzCtrl
  else if s.ctlBit then .token .lzLit
  else .token .lzPair

/-- The kind of token the grammar asks for (30_encoding.md R135). -/
def State.select (s : State) : Selected :=
  match s.phase with
  | .none => .stuck
  | .lz _ => s.selectLz
  | .btCount => .token .btCount
  | .btSkip => .token (if s.bt.first then .btSkip0 else .btSkip)
  | .btApply => .token .btApply
  | .btIndex => .token .btIndex
  | .btCompanion => .token .btCompanion
  | .btCompIndex => .token .btIndex
  | .tmHdr => .token .tmHdr
  | .tmTdict => .token .tmTdict
  | .tmOdict => .token .tmOdict
  | .tmDelta => .token (.tmDelta ((s.passEnd : Int) - s.tm.c).toNat)
  | .tmCmd => .token .tmCmd
  | .tmPropA => .token .tmPropA
  | .tmPropB => .token .tmPropB
  | .tmCell => s.selectCell
  | .tmAlign => .token (.tmAlign (alignedPos s.cfg s.p - s.p))
  | .hmDim => .token .hmDim
  | .hmCell => .token (if s.hm.run = 0 then .hmRun else .hmCell)
  | .sprHeader => .token .sprHeader
  | .sprWord => .token .sprWord

/-- What DEC fetches at the cursor. -/
inductive Fetched
  /-- A token to run. -/
  | instr (i : Instr)
  /-- A fault before a token has been read, and the state reached by then. -/
  | trap (f : Trap) (reached : State)
  /-- No grammar position. -/
  | stuck
deriving DecidableEq, Repr

/-- The fault of a token that cannot be decoded (40_bitstream.md R150, R157). -/
def decodeFault : DecodeError → FaultKind
  | .endOfStream => .unexpectedEndOfStream
  | .varintTooLong => .invalidControlCode

/-- The field of `width` bits at bit `off` of the unread input, `none` where the input ends before its last bit. -/
def State.wholeField (s : State) (width off : Nat) : Option (BitVec width) :=
  match readField width (s.inputBits.drop off) with
  | .ok (v, _) => some v
  | .error _ => none

/-- The zeros before the first 1 of the unread input, which VarInt() counts as it reads them (40_bitstream.md R156). -/
def State.zerosAhead (s : State) : Nat :=
  (s.inputBits.takeWhile (!·)).length

/-- The registers that a token has assigned when the input ends inside it: those whose whole fields were read
(43_tilemap.md R251, R252, R253, R272, R273), the exponent VarInt() has counted (40_bitstream.md R156), and the mode of
the cell of a literal (R264). The other tokens assign nothing before their last bit. -/
def State.assignRead (s : State) : Expect → State
  | .varint => { s with ve := s.zerosAhead }
  | .btSkip0 => { s with ve := s.zerosAhead }
  | .btSkip => { s with ve := s.zerosAhead }
  | .btApply => { s with ve := s.zerosAhead }
  | .tmDelta _ => { s with ve := s.zerosAhead }
  | .tmHdr =>
    { s with
      tm :=
        { s.tm with
          left := (s.wholeField 8 0).getD s.tm.left, top := (s.wholeField 8 8).getD s.tm.top
          w := ((s.wholeField 8 16).map (·.toNat + 1)).getD s.tm.w } }
  | .tmTdict =>
    match s.wholeField 10 0 with
    | some v => s.setB0 v
    | none => s
  | .tmOdict =>
    { s with
      tm :=
        { s.tm with
          od :=
            fixedOffsets s.tm.w ++
              Vector.ofFn fun k : Fin 8 =>
                ((s.wholeField 12 (12 * k.val)).map (·.setWidth 16)).getD
                  (s.tm.od[6 + k.val]'(by have := k.isLt; omega)) } }
  | .tmLit _ _ => s.setMode
  | .hmDim => { s with hm := { s.hm with w := (s.wholeField 8 0).getD s.hm.w } }
  | .hmRun => { s with hm := { s.hm with pat := (s.wholeField 16 0).getD s.hm.pat } }
  | _ => s

/-- The state in which reading a token fails (log 8). The bit reader has consumed the bits before the failing one
(40_bitstream.md R151, R157); MemRead takes all of its bytes or none (20_memory.md R81), in LZD after the control bit
(41_lz77.md R185). -/
def State.readFailed (s : State) (want : Expect) : DecodeError → State
  | .varintTooLong => s.tooManyZeros
  | .endOfStream =>
    match want with
    | .lzCtrl => s
    | .lzLit => s.takeCtl
    | .lzPair => s.takeCtl
    | .sprHeader => s
    | .sprWord => s
    | _ => (s.assignRead want).advance (8 * s.win.srcLen.toNat - s.p)

/-- The token at the cursor, or the fault that reading it raises, at the token's first bit (60_exceptions.md R349). -/
def State.fetch (s : State) : Fetched :=
  match s.select with
  | .stuck => .stuck
  | .trap k => .trap ⟨k, s.p⟩ s
  | .token want =>
    match decode s.cfg want s.inputBits with
    | .ok (i, _) => .instr i
    | .error e => .trap ⟨decodeFault e, s.p⟩ (s.readFailed want e)

end Sys2Proof.Machine
end

