-- ==== Sys2Proof/Machine/Load.lean ====
section
/-! DEFINITION. Setting the machine so that DEC's next fetch reads a given word of the opcode table (log 1, log 21). -/

namespace Sys2Proof.Machine

/-- An input buffer of n bytes holding the 8*n-bit number v, most significant byte first. -/
def srcOfNat (n v : Nat) : Memory Byte :=
  (List.range n).foldl (fun m k => m.write k (BitVec.ofNat 8 (v / 256 ^ (n - 1 - k)))) (.zeros 0 n)

/-- The grammar position and the hidden state that ask for `want` (30_encoding.md R135, 10_state.md R58). -/
def State.expectAt (s : State) (want : Expect) : State :=
  match want with
  | .varint => s
  | .lzCtrl => { s with phase := .lz false, lz := { s.lz with bit := none, nctl := 0 } }
  | .lzLit => { s with phase := .lz false, lz := { s.lz with bit := some true } }
  | .lzPair => { s with phase := .lz false, lz := { s.lz with bit := some false } }
  | .btCount => { s with phase := .btCount }
  | .btSkip0 => { s with phase := .btSkip, bt := { s.bt with first := true } }
  | .btSkip => { s with phase := .btSkip, bt := { s.bt with first := false } }
  | .btApply => { s with phase := .btApply }
  | .btIndex => { s with phase := .btIndex }
  | .btCompanion => { s with phase := .btCompanion }
  | .tmHdr => { s with phase := .tmHdr }
  | .tmTdict => { s with phase := .tmTdict }
  | .tmOdict => { s with phase := .tmOdict }
  | .tmDelta _ => { s with phase := .tmDelta }
  | .tmCmd => { s with phase := .tmCmd }
  | .tmPropA => { s with phase := .tmPropA }
  | .tmPropB => { s with phase := .tmPropB }
  | .tmCopy =>
    { s with
      phase := .tmCell, tm := { s.tm with mode := some 1 }
      mem := { s.mem with tmbuf := .zeros s.stamp (s.tm.i + 1) } }
  | .tmLit _ _ =>
    { s with
      phase := .tmCell, tm := { s.tm with mode := some 0xFFFF }
      mem := { s.mem with tmbuf := .zeros s.stamp (s.tm.i + 1) } }
  | .tmAlign _ => { s with phase := .tmAlign }
  | .hmDim => { s with phase := .hmDim }
  | .hmRun => { s with phase := .hmCell, hm := { s.hm with run := 0 } }
  | .hmCell => { s with phase := .hmCell, hm := { s.hm with run := 1 } }
  | .sprHeader => { s with phase := .sprHeader }
  | .sprWord => { s with phase := .sprWord }

/-- The state with a word of the opcode table as the input at cursor 0, zero bits after it, a job BUSY at the grammar
position that asks for it, and DEC's turn. A word that no row has leaves the state as it is. -/
def State.placeWord (s : State) (nbits w : Nat) : State :=
  match tableExpect nbits w with
  | none => s
  | some (want, len) =>
    let n := (len + 7) / 8 + 16
    let t := s.expectAt want
    { t with
      win := { t.win with engine := .busy, srcLen := BitVec.ofNat 32 n }
      p := 0
      mem := { t.mem with src := srcOfNat n (w * 2 ^ (8 * n - len)) }
      sched := [] }

end Sys2Proof.Machine
end

