-- ==== Sys2Proof/Machine/Step.lean ====
section
/-! DEFINITION. One step: a turn of HOST or of DEC (00_scope.md R6, 70_reset_and_hazards.md R391). -/

namespace Sys2Proof.Machine

/-- A turn of DEC: while BUSY it runs one token (70_reset_and_hazards.md R391); IDLE, DONE and FAULT hold every register
(60_exceptions.md R359). -/
def decStep (s : State) : Answer :=
  if s.win.engine = .busy then
    match s.fetch with
    | .instr i => exec i s
    | .trap f reached => .next (reached.raise f)
    | .stuck => .fault .noGrammarPosition
  else .next s

/-- One step: the schedule's next turn, and DEC's when it has none left (log 2). -/
def step (s : State) : Host.Outcome State Fault Refusal :=
  match s.sched with
  | [] => decStep s
  | .dec :: rest => decStep { s with sched := rest }
  | .host m :: rest => State.hostMove { s with sched := rest } m

/-- The state whose next step fetches and runs the token of a word of the opcode table (log 1, log 21). -/
def State.withFetchWord (s : State) (nbits w : Nat) : State :=
  s.placeWord nbits w

end Sys2Proof.Machine
end

