-- ==== Sys2Proof/Safety.lean ====
section
/-! DEFINITION. What counts as a safe state and a safe run. `JobInv` is what the rules promise of the registers between
two steps: the ranges of 10_state.md R45 to R55 and 00_scope.md R15, the cursor bounds of 10_state.md R42 and R43, and
the size checks that make later writes safe (60_exceptions.md R344). -/

namespace Sys2Proof.Machine

/-- Every address space is in its canonical form. -/
def Spaces.wf (m : Spaces) : Bool :=
  m.src.wf && m.out.wf && m.tileIdx.wf && m.tileAttr.wf && m.tmbuf.wf && m.hm.wf && m.sf.wf

/-- The tilemap geometry after TM.HDR (43_tilemap.md R251, 30_encoding.md R132). -/
def Geometry (s : State) : Prop :=
  1 ≤ s.tm.w ∧ s.tm.w ≤ 256 ∧ 1 ≤ s.tm.l ∧ s.tm.l ≤ 256 ∧ s.tm.h = 2 * s.tm.l ∧ s.tm.t = s.tm.w * s.tm.h ∧
    s.tm.t ≤ s.win.outCap.toNat

/-- A mask pass in progress (42_bigtile.md R211, R212): BT_POS below BT_TOTAL = 4N, which fits. -/
def MaskRange (s : State) : Prop :=
  s.bt.total = 4 * s.bt.n.toNat ∧ s.bt.total ≤ s.win.outCap.toNat ∧ s.bt.pos < s.bt.total

/-- A pair in progress (42_bigtile.md R210, 10_state.md R47, R48). -/
def PairRange (s : State) : Prop :=
  s.bt.total = 4 * s.bt.n.toNat ∧ s.bt.total ≤ s.win.outCap.toNat ∧ s.bt.k < 2 * s.bt.n.toNat ∧ s.bt.occ ≤ 16

/-- The subframe sums (44_sprite.md R303): SP_NEED equals SP_TIDX, and a header is two bytes. -/
def SubframeSums (s : State) : Prop :=
  s.sp.need = s.sp.tidx ∧ 2 * s.sp.nsf ≤ s.sp.q

/-- What holds at a grammar position. -/
def PhaseInv (s : State) : Prop :=
  match s.phase with
  | .none => True
  | .lz false =>
    s.jobCodec = 0 ∧ s.p % 8 = 0 ∧ s.lz.nctl ≤ 8 ∧ s.lz.base = 0 ∧ s.lz.out ≤ s.win.outCap.toNat
  | .lz true =>
    s.jobCodec = 3 ∧ s.p % 8 = 0 ∧ s.lz.nctl ≤ 8 ∧ s.lz.base = s.sp.o ∧ s.lz.base ≤ s.lz.out ∧
      s.lz.out ≤ s.win.outCap.toNat ∧ s.sp.o % 2 = 0 ∧ 2 ≤ s.sp.q ∧ 8 * s.sp.q ≤ s.p ∧ 1 ≤ s.sp.nsf ∧
      SubframeSums s
  | .btCount => s.jobCodec = 1 ∧ s.p = 0
  | .btSkip => s.jobCodec = 1 ∧ MaskRange s
  | .btApply => s.jobCodec = 1 ∧ MaskRange s
  | .btIndex => s.jobCodec = 1 ∧ PairRange s
  | .btCompanion => s.jobCodec = 1 ∧ PairRange s
  | .btCompIndex => s.jobCodec = 1 ∧ PairRange s
  | .tmHdr => s.jobCodec = 2 ∧ s.p = 0
  | .tmTdict => s.jobCodec = 2 ∧ Geometry s
  | .tmOdict => s.jobCodec = 2 ∧ Geometry s
  | .tmDelta => s.jobCodec = 2 ∧ Geometry s ∧ -1 ≤ s.tm.c ∧ s.tm.c < s.tm.t
  | .tmCmd => s.jobCodec = 2 ∧ Geometry s ∧ 0 ≤ s.tm.c ∧ s.tm.c < s.tm.t
  | .tmPropA => s.jobCodec = 2 ∧ Geometry s ∧ 0 ≤ s.tm.c ∧ s.tm.c < s.tm.t ∧ s.tm.pc < s.tm.t
  | .tmPropB => s.jobCodec = 2 ∧ Geometry s ∧ 0 ≤ s.tm.c ∧ s.tm.c < s.tm.t ∧ s.tm.pc < s.tm.t
  | .tmCell => s.jobCodec = 2 ∧ Geometry s ∧ s.tm.i < s.tm.t ∧ s.tm.mode ≠ some 0
  | .tmAlign => s.jobCodec = 2 ∧ Geometry s
  | .hmDim => s.jobCodec = 2 ∧ Geometry s ∧ s.p % 8 = 0
  | .hmCell =>
    s.jobCodec = 2 ∧ Geometry s ∧ s.p % 8 = 0 ∧ s.hm.j < s.hm.cells ∧ s.hm.cells ≤ s.win.outCap.toNat
  | .sprHeader => s.jobCodec = 3 ∧ s.p = 8 * s.sp.q ∧ s.sp.o = 0 ∧ SubframeSums s
  | .sprWord =>
    s.jobCodec = 3 ∧ s.p = 8 * s.sp.q ∧ s.sp.o % 2 = 0 ∧ s.sp.o ≤ s.win.outCap.toNat ∧ 1 ≤ s.sp.nsf ∧ SubframeSums s

/-- The invariant of the machine at the decided parameters. -/
structure JobInv (s : State) : Prop where
  /-- The parameters are those of 00_scope.md R8. -/
  decided : s.cfg = Config.decided
  /-- FAULT_CODE is 0 when STATE is not FAULT (10_state.md R33). -/
  noCode : s.win.engine ≠ .fault → s.win.faultCode = 0
  /-- A job has a grammar position exactly while BUSY. -/
  busyPhase : s.win.engine = .busy ↔ s.phase ≠ .none
  /-- The cursor stays within the input (10_state.md R42). -/
  cursor : s.win.engine = .busy → s.p ≤ 8 * s.win.srcLen.toNat
  /-- The ranges at this grammar position. -/
  phase : PhaseInv s

/-- A safe answer: the machine goes on. -/
def Continues (a : Answer) : Prop :=
  ∃ t, a = .next t

/-- A run from s reaches, within k steps, a state that is not BUSY (70_reset_and_hazards.md R392). -/
def EndsWithin (k : Nat) (s : State) : Prop :=
  ∃ j t, j ≤ k ∧ Sys2Proof.core.run j s = .next t ∧ t.win.engine ≠ .busy

/-- The window of a job that has ended in DONE with these results (70_reset_and_hazards.md R384). -/
def Window.ended (w : Window) (count consumed aux : Nat) (geom aux2 : Word32) : Window :=
  { w with
    engine := .done, resultCount := BitVec.ofNat 32 count, resultConsumed := BitVec.ofNat 32 consumed
    resultAux := BitVec.ofNat 32 aux, resultGeom := geom, resultAux2 := aux2 }

/-- The fault kinds a token can raise once its own bits have been read (60_exceptions.md R341 to R346): the end of the
input and a coded number with too many zeros are the fetch's, so only SPR.RAW, which reads its data words, meets the end
of the input here; the arrays of TMD are checked once, when their size is read (R344). -/
def faultsOf : Instr → List FaultKind
  | .varint _ => []
  | .lzCtrl _ => []
  | .lzLit _ => [.sizeMismatch]
  | .lzRef _ _ => [.backRefOutOfWindow, .sizeMismatch]
  | .lzEnd _ => [.invalidControlCode]
  | .btCount _ => [.sizeMismatch]
  | .btSkip0 _ => [.runOverrun]
  | .btSkip _ => [.runOverrun]
  | .btApply _ => [.runOverrun]
  | .btIdxMtf _ => [.invalidDictionaryIndex]
  | .btIdxRaw _ => []
  | .btCompDer => []
  | .btCompInd => []
  | .tmHdr _ _ _ _ => [.sizeMismatch]
  | .tmTdict _ _ => []
  | .tmOdict _ _ _ _ _ _ _ _ => []
  | .tmDelta _ => []
  | .tmEnd _ => []
  | .tmCmdS _ => []
  | .tmCmdX _ _ => []
  | .tmPropRun => []
  | .tmPropStop => []
  | .tmPropCell => [.runOverrun]
  | .tmPropEndrun => []
  | .tmCopy => [.backRefOutOfWindow]
  | .tmLitRaw _ _ => [.invalidDictionaryIndex]
  | .tmLitOfs _ _ => [.invalidDictionaryIndex]
  | .tmLitCnt0 => []
  | .tmLitCnt1 => []
  | .tmAlign _ => []
  | .hmDim _ _ => [.sizeMismatch]
  | .hmRun _ _ _ => [.invalidControlCode]
  | .hmCell => []
  | .sprSf _ _ _ _ _ => [.invalidControlCode]
  | .sprSfLast _ _ _ _ _ => [.invalidControlCode]
  | .sprZero _ _ _ _ => [.invalidControlCode, .sizeMismatch]
  | .sprLz _ _ _ => [.invalidControlCode]
  | .sprRaw _ _ _ => [.invalidControlCode, .unexpectedEndOfStream, .sizeMismatch]

/-- The position a fault of a token's meaning records: the token's first bit, but for the odd-length fault of a nested
sub-stream, which is its control word's, the two bytes before the sub-stream (60_exceptions.md R349, 44_sprite.md
R307). -/
def faultPosOf (i : Instr) (s : State) : Nat :=
  match i with
  | .lzEnd _ => 8 * (s.sp.q - 2)
  | _ => s.p

/-- The bits of the input a token takes: its own, and the data words of SPR.RAW (30_encoding.md R142). -/
def bitsTaken (cfg : Params) (i : Instr) : Nat :=
  match i with
  | .sprRaw _ _ count => 16 + 16 * sprCount cfg count
  | _ => i.bitLength

end Sys2Proof.Machine
end

