-- ==== Sys2Proof/Certificates/Slice0/Obligations.lean ====
section
/-! DEFINITION. The statements for the provers, in the order of spec/: encoding, bit reader, the step, the tokens unit by
unit, faults, the register window, reset and START, and the whole-machine statements. A statement about a token names
its next state as `s` with the fields that change, so every field not named is unchanged; where a space is written, the
statement says what every element of it reads as. -/

section
open Sys2Proof Sys2Proof.Machine

/-! ## Encoding (30_encoding.md) -/

/-- Reading the encoding of a well-formed token at a point of the grammar that offers it gives that token back, and
leaves the input after it (R110 to R127, R135). -/
def Obligations.DecodeInvertsEncode : Prop :=
  ∀ (cfg : Params) (want : Expect) (i : Instr) (rest : List Bool),
    i.wf cfg = true → want.offers i = true → decode cfg want (encode i ++ rest) = .ok (i, rest)

/-- What is read is the encoding of a well-formed token that this point of the grammar offers: no bit is dropped, and
no other bits read as a token (R138). The padding before a byte boundary is at most 7 bits, all of them in the input. -/
def Obligations.DecodeReadsOnlyEncodings : Prop :=
  ∀ (cfg : Params) (want : Expect) (bits rest : List Bool) (i : Instr),
    (∀ k, want = .tmAlign k → k < 8 ∧ k ≤ bits.length) → decode cfg want bits = .ok (i, rest) →
      i.wf cfg = true ∧ want.offers i = true ∧ bits = encode i ++ rest

/-- Words written out bit by bit from the examples of the rules decode to the tokens they stand for: LZ.REF `0801`
(41_lz77.md R183), BT.IDX.MTF `10001` (42_bigtile.md R218), TM.CMD.X `11001` (43_tilemap.md R258), TM.LIT.RAW `00101`
(R266), the run `123405`, HM.RUN of one chain byte (R273), SPR.SF `0805` (44_sprite.md R301), and VARINT `011`
(40_bitstream.md R156). -/
def Obligations.SpecExampleWordsDecode : Prop :=
  decode Config.decided .lzPair (natBits 16 0x0801) = .ok (.lzRef 1 8, []) ∧
  decode Config.decided .btIndex [true, false, false, false, true] = .ok (.btIdxMtf 1, []) ∧
  decode Config.decided .tmCmd [true, true, false, false, true] = .ok (.tmCmdX 0 1, []) ∧
  decode Config.decided (.tmLit 3 4) [false, false, true, false, true] = .ok (.tmLitRaw 3 5, []) ∧
  decode Config.decided .hmRun (natBits 24 0x123405) = .ok (.hmRun 0x1234 0 5, []) ∧
  decode Config.decided .sprHeader (natBits 16 0x0805) = .ok (.sprSf 2 0 false 1 1, []) ∧
  decode Config.decided .varint [false, true, true] = .ok (.varint ⟨1, 1⟩, [])

/-- Every value from 0 to 65534 is the value of exactly one well-formed coded number, and no coded number has a greater
one (R128). -/
def Obligations.CodedNumbersCoverTheirRange : Prop :=
  (∀ c : VarCode, c.wf Config.decided = true → c.value ≤ 65534) ∧
  ∀ v : Nat, v ≤ 65534 → ∃ c : VarCode, (c.wf Config.decided = true ∧ c.value = v) ∧
    ∀ d : VarCode, d.wf Config.decided = true → d.value = v → d = c

/-! ## The bit reader (40_bitstream.md, 20_memory.md) -/

/-- ReadBit takes bit 7 - p[2:0] of SRC[p >> 3] and moves p by one, or, at or beyond byte SRC_LEN, raises
UnexpectedEndOfStream; PeekBit answers the same bit and moves nothing; Align moves p to the next multiple of 8, and not
at all at one (R152, R153, and of R150 the bit, the move and the check). -/
def Obligations.BitReaderPrimitives : Prop :=
  ∀ s : State,
    (s.p / 8 < s.win.srcLen.toNat →
      s.readBit = .ok ((s.srcByte (s.p / 8)).getLsbD (7 - s.p % 8), { s with p := s.p + 1 }) ∧
      s.peekBit = .ok ((s.srcByte (s.p / 8)).getLsbD (7 - s.p % 8), s)) ∧
    (s.win.srcLen.toNat ≤ s.p / 8 →
      s.readBit = .error .unexpectedEndOfStream ∧ s.peekBit = .error .unexpectedEndOfStream) ∧
    (s.cfg = Config.decided → s.p % 8 ≠ 0 → s.align = { s with p := (s.p ||| 7) + 1 }) ∧
    (s.cfg = Config.decided → s.p % 8 = 0 → s.align = s)

/-- Reading a field of the unread input, as the decoder does, is ReadBits(n) of the machine, and at a byte boundary it
is MemRead of n bytes: the same value, the same move of p, and the same end of the input (R151, R155; 20_memory.md R81,
R86). -/
def Obligations.DecoderReadsAsTheBitReader : Prop :=
  ∀ (s : State) (n : Nat),
    (s.readBits n =
      match readNat n s.inputBits with
      | .ok (v, _) => .ok (v, { s with p := s.p + n })
      | .error _ => .error .unexpectedEndOfStream) ∧
    (s.p % 8 = 0 → 0 < n →
      s.memRead (s.p / 8) n =
        match readNat (8 * n) s.inputBits with
        | .ok (v, _) => .ok (v, { s with p := s.p + 8 * n })
        | .error _ => .error .unexpectedEndOfStream)

/-! ## The step -/

/-- Where the grammar asks for a token and the input at p decodes to it, a step of a BUSY machine is `exec` of that
token; with turns in the schedule, DEC's turn is used up and nothing else is added. Fields of the model's own: sched
(log 2). -/
def Obligations.StepRunsTheDecodedToken : Prop :=
  ∀ (s : State) (want : Expect) (i : Instr) (rest : List Bool),
    s.win.engine = .busy → s.select = .token want → decode s.cfg want s.inputBits = .ok (i, rest) →
      (s.sched = [] → Sys2Proof.Machine.step s = exec i s) ∧
      (∀ turns, s.sched = .dec :: turns → Sys2Proof.Machine.step s = exec i { s with sched := turns })

/-- What the grammar asks for at each position (30_encoding.md R135, 00_scope.md R16): the choice points that hidden
state decides are the control bits of LZD, BT_FIRST, the mode of a phase-2 cell and HM_RUN. Fields of the model's own:
phase (log 4), lz.bit (log 9). -/
def Obligations.GrammarSelectsTheToken : Prop :=
  ∀ s : State,
    (∀ b, s.phase = .lz b → s.lz.bit = none → s.lz.nctl = 0 → s.select = .token .lzCtrl) ∧
    (∀ b, s.phase = .lz b → s.lz.bit = none → s.lz.nctl ≠ 0 →
      s.select = .token (if s.lz.ctl.getLsbD 7 then .lzLit else .lzPair)) ∧
    (∀ b c, s.phase = .lz b → s.lz.bit = some c → s.select = .token (if c then .lzLit else .lzPair)) ∧
    (s.phase = .btCount → s.select = .token .btCount) ∧
    (s.phase = .btSkip → s.bt.first = true → s.select = .token .btSkip0) ∧
    (s.phase = .btSkip → s.bt.first = false → s.select = .token .btSkip) ∧
    (s.phase = .btApply → s.select = .token .btApply) ∧
    (s.phase = .btIndex → s.select = .token .btIndex) ∧
    (s.phase = .btCompanion → s.select = .token .btCompanion) ∧
    (s.phase = .btCompIndex → s.select = .token .btIndex) ∧
    (s.phase = .tmHdr → s.select = .token .tmHdr) ∧
    (s.phase = .tmTdict → s.select = .token .tmTdict) ∧
    (s.phase = .tmOdict → s.select = .token .tmOdict) ∧
    (s.phase = .tmCmd → s.select = .token .tmCmd) ∧
    (s.phase = .tmPropA → s.select = .token .tmPropA) ∧
    (s.phase = .tmPropB → s.select = .token .tmPropB) ∧
    (s.phase = .tmCell → ∀ m, s.cellMode = some m → m ≠ 0xFFFF → s.select = .token .tmCopy) ∧
    (s.phase = .tmCell → s.cfg = Config.decided → s.cellMode = some 0xFFFF →
      s.select = .token (.tmLit (if s.tm.b0 = 0 then 0 else s.tm.b0.toNat.log2)
        (if s.tm.b1 = 0 then 0 else s.tm.b1.toNat.log2))) ∧
    (s.phase = .tmAlign → s.cfg = Config.decided → s.select = .token (.tmAlign ((8 - s.p % 8) % 8))) ∧
    (s.phase = .hmDim → s.select = .token .hmDim) ∧
    (s.phase = .hmCell → s.hm.run = 0 → s.select = .token .hmRun) ∧
    (s.phase = .hmCell → s.hm.run ≠ 0 → s.select = .token .hmCell) ∧
    (s.phase = .sprHeader → s.select = .token .sprHeader) ∧
    (s.phase = .sprWord → s.select = .token .sprWord)

/-- With TM_PASS_EXTENT = whole a coded number where phase 1 reads a delta is TM.END exactly when it takes TM_C to TM_T
or beyond, a value of 0 counting as 1 (43_tilemap.md R254 to R256). Fields of the model's own: sched (log 2), phase
(log 4). -/
def Obligations.DeltaReachingTheEndEndsPhaseOne : Prop :=
  ∀ (s : State) (c : VarCode) (rest : List Bool),
    s.win.engine = .busy → s.sched = [] → s.cfg.tmPassExtent = .whole → s.phase = .tmDelta → c.wf s.cfg = true →
      s.inputBits = c.bits ++ rest →
        Sys2Proof.Machine.step s =
          if (s.tm.t : Int) ≤ s.tm.c + ((if c.value = 0 then 1 else c.value : Nat) : Int) then exec (.tmEnd c) s
          else exec (.tmDelta c) s

/-- Input that ends inside a token raises UnexpectedEndOfStream at the token's first bit (60_exceptions.md R341, R349):
the unread input is a proper beginning of a token's encoding. In BTD and TMD the bits that were there are consumed, so
that p is the end of the input; MemRead, in LZD and SPD, takes none (40_bitstream.md R151, 20_memory.md R81). Padding
(TM.ALIGN) reads no input and is not one of these tokens. Fields of the model's own: sched (log 2). `raise` is fault
entry (FaultEntryEndsTheJob), from the state the rule has reached (log 8). -/
def Obligations.InputEndingInsideATokenFaults : Prop :=
  ∀ (s : State) (want : Expect) (i : Instr) (missing : List Bool),
    s.win.engine = .busy → s.sched = [] → s.select = .token want → i.wf s.cfg = true → want.offers i = true →
      (∀ pad, i ≠ .tmAlign pad) → missing ≠ [] → s.inputBits ++ missing = encode i →
        Sys2Proof.Machine.step s = .next ((s.readFailed want .endOfStream).raise ⟨.unexpectedEndOfStream, s.p⟩) ∧
        (s.readFailed want .endOfStream).p =
          if want ∈ [.lzCtrl, .lzLit, .lzPair, .sprHeader, .sprWord] then s.p else max s.p (8 * s.win.srcLen.toNat)

/-- A run of 16 zeros where a coded number is read raises InvalidControlCode at the token's first bit, whatever follows
it, the end of the input too, the 16 zeros having been read; and reading a coded number fails this way for no other
input (40_bitstream.md R157, 60_exceptions.md R348). Fields of the model's own: sched (log 2). `raise` is fault entry
(FaultEntryEndsTheJob), from the state the rule has reached (log 8). -/
def Obligations.SixteenZerosFault : Prop :=
  (∀ bits : List Bool,
    readVar Config.decided bits = .error .varintTooLong ↔ ∃ rest, bits = List.replicate 16 false ++ rest) ∧
  ∀ (s : State) (want : Expect) (rest : List Bool),
    s.win.engine = .busy → s.sched = [] → s.cfg = Config.decided → s.select = .token want →
      (want = .btSkip0 ∨ want = .btSkip ∨ want = .btApply ∨ ∃ room, want = .tmDelta room) →
        s.inputBits = List.replicate 16 false ++ rest →
          Sys2Proof.Machine.step s = .next ({ s with p := s.p + 16, ve := 16 }.raise ⟨.invalidControlCode, s.p⟩)

/-! ## VARINT and LZD (40_bitstream.md, 41_lz77.md) -/

/-- VARINT completes on every coded number within the exponent limit: p moves over its 2e+1 bits, VE holds e, and the
value (1 << e) + m - 1, or 0 for e = 0, is returned; beyond the limit it raises InvalidControlCode (R156, R157). Fields
of the model's own: varVal (log 12). `raise` is fault entry (FaultEntryEndsTheJob), from the state the rule has reached
(log 8). -/
def Obligations.VarintReturnsItsValue : Prop :=
  ∀ (s : State) (c : VarCode),
    (c.exp ≤ s.cfg.varintMaxExp →
      exec (.varint c) s = .next
        { s with
          p := s.p + (2 * c.exp + 1), ve := c.exp
          varVal := if c.exp = 0 then 0 else 2 ^ c.exp + c.man - 1 }) ∧
    (s.cfg.varintMaxExp < c.exp →
      exec (.varint c) s = .next
        ({ s with p := s.p + (s.cfg.varintMaxExp + 1), ve := s.cfg.varintMaxExp + 1 }.raise
          ⟨.invalidControlCode, s.p⟩))

/-- LZ.CTRL completes always. After it the next eight control bits are those of the byte, most significant first, with
no further control byte between them, and then a control byte is asked for again (30_encoding.md R112, R141;
41_lz77.md R181). Fields of the model's own: lz.bit (log 9). -/
def Obligations.LzCtrlGivesEightControlBits : Prop :=
  ∀ (s : State) (c : Byte), ∃ t : State,
    exec (.lzCtrl c) s = .next t ∧
    t = { s with p := s.p + 8, lz := { s.lz with ctl := c <<< 1, nctl := 7, bit := some (c.getLsbD 7) } } ∧
    (∀ k, k < 8 →
      (State.takeCtl^[k] t).selectLz = .token (if c.getLsbD (7 - k) then .lzLit else .lzPair)) ∧
    (State.takeCtl^[8] t).selectLz = .token .lzCtrl

/-- LZ.LIT writes its byte at LZ_OUT and no other byte of OUT, counts LZ_OUT up, moves p by 8 and uses one control bit;
at LZ_OUT of OUT_CAP or more it raises SizeMismatch (41_lz77.md R182). Fields of the model's own: lz.bit (log 9).
`raise` is fault entry (FaultEntryEndsTheJob), from the state the rule has reached (log 8). -/
def Obligations.LzLitWritesItsByte : Prop :=
  ∀ (s : State) (lit : Byte),
    (s.lz.out < s.win.outCap.toNat →
      ∃ t : State, exec (.lzLit lit) s = .next t ∧
        t = { s with
              p := s.p + 8, lz := { s.takeCtl.lz with out := s.lz.out + 1 }
              mem := { s.mem with out := t.mem.out } } ∧
        ∀ a, t.outByte a = if a = s.lz.out then lit else s.outByte a) ∧
    (s.win.outCap.toNat ≤ s.lz.out →
      exec (.lzLit lit) s = .next ({ s with p := s.p + 8, lz := s.takeCtl.lz }.raise ⟨.sizeMismatch, s.p⟩))

/-- LZ.REF of a non-zero offset writes 18 - lcode bytes from LZ_OUT on, the byte at distance d from the start being the
one at LZ_OUT - offset + (d mod offset) before: a copy that overlaps itself repeats the last `offset` bytes. No other
byte of OUT changes. An offset past the window base raises BackRefOutOfWindow, checked first; a copy past OUT_CAP
raises SizeMismatch (41_lz77.md R183, 70_reset_and_hazards.md R386). Fields of the model's own: lz.bit (log 9). `raise`
is fault entry (FaultEntryEndsTheJob), from the state the rule has reached (log 8). -/
def Obligations.LzRefRepeatsTheWindow : Prop :=
  ∀ (s : State) (offset : BitVec 12) (lcode : BitVec 4), offset ≠ 0 →
    (s.lz.out - s.lz.base < offset.toNat →
      exec (.lzRef offset lcode) s = .next
        ({ s with p := s.p + 16, lz := s.takeCtl.lz }.raise ⟨.backRefOutOfWindow, s.p⟩)) ∧
    (offset.toNat ≤ s.lz.out - s.lz.base → s.win.outCap.toNat < s.lz.out + (18 - lcode.toNat) →
      exec (.lzRef offset lcode) s = .next
        ({ s with
            p := s.p + 16, lz := { s.takeCtl.lz with out := max s.lz.out s.win.outCap.toNat } }.raise
          ⟨.sizeMismatch, s.p⟩)) ∧
    (offset.toNat ≤ s.lz.out - s.lz.base → s.lz.out + (18 - lcode.toNat) ≤ s.win.outCap.toNat →
      ∃ t : State, exec (.lzRef offset lcode) s = .next t ∧
        t = { s with
              p := s.p + 16, lz := { s.takeCtl.lz with out := s.lz.out + (18 - lcode.toNat) }
              mem := { s.mem with out := t.mem.out } } ∧
        ∀ a, t.outByte a =
          if s.lz.out ≤ a ∧ a < s.lz.out + (18 - lcode.toNat) then
            s.outByte (s.lz.out - offset.toNat + (a - s.lz.out) % offset.toNat)
          else s.outByte a)

/-- LZ.END, whatever its length code. In a standalone job it ends the job: RESULT_COUNT is LZ_OUT, RESULT_CONSUMED the
bytes up to and with the terminator pair, the other results 0, STATE DONE (counts of 2^32 or more are not stated, log
14). In a nested sub-stream of even output length it returns to the pixel loop: SP_Q is the byte after the terminator
pair, SP_O the sub-stream's LZ_OUT, and the control word's stop bit decides what follows; an odd output length raises
InvalidControlCode at the control word before the sub-stream. OUT keeps every byte (41_lz77.md R184, R186; 44_sprite.md
R307, R309; 70_reset_and_hazards.md R390). Fields of the model's own: phase (log 4), stamp (log 6), lz.bit (log 9).
`raise` is fault entry (FaultEntryEndsTheJob), from the state the rule has reached (log 8). That the sub-stream's
tokens are steps of their own is the model's choice (log 10). -/
def Obligations.LzEndEndsTheStream : Prop :=
  ∀ (s : State) (lcode : BitVec 4), s.cfg = Config.decided →
    (s.phase = .lz false → s.lz.out < 2 ^ 32 → (s.p + 16) / 8 < 2 ^ 32 →
      exec (.lzEnd lcode) s = .next
        { s with
          p := s.p + 16, lz := s.takeCtl.lz, win := s.win.ended s.lz.out ((s.p + 16) / 8) 0 0 0, phase := .none
          stamp := s.stamp + 1 }) ∧
    (s.phase = .lz true → s.sp.q ≤ (s.p + 16) / 8 → s.sp.o ≤ s.lz.out →
      ((s.lz.out - s.sp.o) % 2 = 0 →
        exec (.lzEnd lcode) s = .next
          { s with
            p := s.p + 16, lz := s.takeCtl.lz
            sp := { s.sp with q := (s.p + 16) / 8, o := s.lz.out } }.endWord) ∧
      ((s.lz.out - s.sp.o) % 2 = 1 →
        exec (.lzEnd lcode) s = .next
          ({ s with
              p := s.p + 16, lz := s.takeCtl.lz
              sp := { s.sp with q := (s.p + 16) / 8, o := s.lz.out } }.raise
            ⟨.invalidControlCode, 8 * (s.sp.q - 2)⟩)))

/-! ## BTD (42_bigtile.md) -/

/-- BT.COUNT of N > 0 sets BT_N and BT_TOTAL = 4N, clears the three attributes of tiles 0 to 4N-1 and of no other tile,
and begins the priority mask; N = 0 ends the job with no tiles; 4N > OUT_CAP raises SizeMismatch at the field's first
bit (R210 to R212). Fields of the model's own: phase (log 4), stamp (log 6). `raise` is fault entry
(FaultEntryEndsTheJob), from the state the rule has reached (log 8). Results of 2^32 or more are not stated (log 14).
That BT_ATTR is hflip at the end of a job with no tiles is the model's choice (log 30). -/
def Obligations.BtCountSizesTheJob : Prop :=
  ∀ (s : State) (n : Half),
    (s.win.outCap.toNat < 4 * n.toNat →
      exec (.btCount n) s = .next
        ({ s with p := s.p + 16, bt := { s.bt with n := n, total := 4 * n.toNat } }.raise ⟨.sizeMismatch, s.p⟩)) ∧
    (0 < n.toNat → 4 * n.toNat ≤ s.win.outCap.toNat →
      ∃ t : State, exec (.btCount n) s = .next t ∧
        t = { s with
              p := s.p + 16
              bt := { s.bt with n := n, total := 4 * n.toNat, attr := .priority, pos := 0, first := true }
              phase := .btSkip, mem := { s.mem with tileAttr := t.mem.tileAttr } } ∧
        ∀ i, t.tileAttrs i =
          if i < 4 * n.toNat then { hflip := false, vflip := false, priority := false } else s.tileAttrs i) ∧
    (n = 0 → (s.p + 23) / 8 < 2 ^ 32 →
      ∃ t : State, exec (.btCount n) s = .next t ∧
        t = { s with
              p := s.p + 16
              bt := { s.bt with n := 0, total := 0, attr := .hflip, pos := 0, first := true, occ := 0, k := 0 }
              win := s.win.ended 0 ((s.p + 23) / 8) 0 0 0, phase := .none, stamp := s.stamp + 1
              mem := { s.mem with tileAttr := t.mem.tileAttr } } ∧
        ∀ i, t.tileAttrs i = s.tileAttrs i)

/-- A skip run moves BT_POS by its value v, as the first run of a mask (BT.SKIP0), or by v + 1, as a later one
(BT.SKIP): past BT_TOTAL it raises RunOverrun, at BT_TOTAL the pass ends, below it an apply run follows. No tile
changes (R212 to R214). Fields of the model's own: phase (log 4), varVal (log 12). `raise` is fault entry
(FaultEntryEndsTheJob), from the state the rule has reached (log 8). -/
def Obligations.SkipRunsMoveTheMask : Prop :=
  ∀ (s : State) (i : Instr) (c : VarCode) (n : Nat),
    c.exp ≤ s.cfg.varintMaxExp → (i = .btSkip0 c ∧ n = c.value ∨ i = .btSkip c ∧ n = c.value + 1) →
      let read := { s with p := s.p + (2 * c.exp + 1), ve := c.exp, varVal := c.value }
      let moved := { read with bt := { s.bt with pos := s.bt.pos + n, first := false } }
      (s.bt.total < s.bt.pos + n →
        exec i s = .next ({ read with bt := { s.bt with pos := s.bt.pos + n } }.raise ⟨.runOverrun, s.p⟩)) ∧
      (s.bt.pos + n = s.bt.total → exec i s = .next moved.nextMask) ∧
      (s.bt.pos + n < s.bt.total → exec i s = .next { moved with phase := .btApply })

/-- BT.APPLY of value v sets the pass's attribute, the one of priority, vflip and hflip that BT_ATTR names, on the v +
1 tiles from BT_POS on, and changes no other attribute and no other tile; past BT_TOTAL it raises RunOverrun, at
BT_TOTAL the pass ends, below it a skip run follows (R212, R215). Fields of the model's own: phase (log 4), varVal (log
12). `raise` is fault entry (FaultEntryEndsTheJob), from the state the rule has reached (log 8). -/
def Obligations.ApplyRunsSetTheAttribute : Prop :=
  ∀ (s : State) (c : VarCode), c.exp ≤ s.cfg.varintMaxExp →
    (s.bt.total < s.bt.pos + (c.value + 1) →
      exec (.btApply c) s = .next
        ({ s with p := s.p + (2 * c.exp + 1), ve := c.exp, varVal := c.value }.raise ⟨.runOverrun, s.p⟩)) ∧
    (s.bt.pos + (c.value + 1) ≤ s.bt.total →
      ∃ u : State, exec (.btApply c) s =
          .next (if s.bt.pos + (c.value + 1) = s.bt.total then u.nextMask else { u with phase := .btSkip }) ∧
        u = { s with
              p := s.p + (2 * c.exp + 1), ve := c.exp, varVal := c.value
              bt := { s.bt with pos := s.bt.pos + (c.value + 1) }
              mem := { s.mem with tileAttr := u.mem.tileAttr } } ∧
        ∀ i, u.tileAttrs i =
          if s.bt.pos ≤ i ∧ i < s.bt.pos + (c.value + 1) then
            { hflip := (s.tileAttrs i).hflip || decide (s.bt.attr = .hflip)
              vflip := (s.tileAttrs i).vflip || decide (s.bt.attr = .vflip)
              priority := (s.tileAttrs i).priority || decide (s.bt.attr = .priority) }
          else s.tileAttrs i)

/-- The loops of a BTD job. A finished mask pass hands over in the order priority, vflip, hflip, each from BT_POS 0
with BT_FIRST set; after hflip the queue is empty and pair 0 begins, or, without big tiles, the job ends. After pair k
the next of the 2N pairs begins; after the last the job ends with RESULT_COUNT = N, RESULT_CONSUMED = ceil(p / 8) and
the other results 0 (R210, R212; 40_bitstream.md R154). Fields of the model's own: phase (log 4), stamp (log 6).
Results of 2^32 or more are not stated (log 14). What BT_ATTR and BT_K hold after their loops is the model's choice (log
30). -/
def Obligations.MaskPassesAndPairsComeInOrder : Prop :=
  ∀ s : State,
    (s.bt.attr = .priority →
      s.nextMask = { s with bt := { s.bt with attr := .vflip, pos := 0, first := true }, phase := .btSkip }) ∧
    (s.bt.attr = .vflip →
      s.nextMask = { s with bt := { s.bt with attr := .hflip, pos := 0, first := true }, phase := .btSkip }) ∧
    (s.bt.attr = .hflip → s.bt.n ≠ 0 →
      s.nextMask = { s with bt := { s.bt with occ := 0, k := 0 }, phase := .btIndex }) ∧
    (s.bt.attr = .hflip → s.bt.n = 0 → (s.p + 7) / 8 < 2 ^ 32 →
      s.nextMask =
        { s with
          bt := { s.bt with occ := 0, k := 0 }, win := s.win.ended 0 ((s.p + 7) / 8) 0 0 0, phase := .none
          stamp := s.stamp + 1 }) ∧
    (s.bt.k + 1 < 2 * s.bt.n.toNat →
      s.endPair = { s with bt := { s.bt with k := s.bt.k + 1 }, phase := .btIndex }) ∧
    (2 * s.bt.n.toNat ≤ s.bt.k + 1 → (s.p + 7) / 8 < 2 ^ 32 →
      s.endPair =
        { s with
          bt := { s.bt with k := s.bt.k + 1 }, win := s.win.ended s.bt.n.toNat ((s.p + 7) / 8) 0 0 0, phase := .none
          stamp := s.stamp + 1 })

/-- PushFront(v): entries 0 to min(BT_OCC, 15) - 1 move back by one, Q[0] is v, the other entries stay, and BT_OCC
counts up to at most 16, so that a full queue loses Q[15]. MoveToFront(i): the entry at position i comes to the front,
the i entries before it move back by one, the entries after it and BT_OCC stay; no entry is lost or doubled, and i = 0
moves nothing (R216, R217). -/
def Obligations.QueueOperationsReorderEntries : Prop :=
  (∀ (b : BtRegs) (v : Half),
    b.pushFront v = { b with q := (b.pushFront v).q, occ := min (b.occ + 1) 16 } ∧
    (b.pushFront v).q[0] = v ∧
    ∀ j, (hj : j + 1 < 16) →
      (b.pushFront v).q[j + 1] = if j + 1 ≤ min b.occ 15 then b.q[j]'(by omega) else b.q[j + 1]) ∧
  ∀ (b : BtRegs) (i : BitVec 4),
    b.moveToFront i = { b with q := (b.moveToFront i).q } ∧
    (b.moveToFront i).q[0] = b.q[i.toNat]'i.isLt ∧
    (∀ j, (hj : j + 1 < 16) →
      (b.moveToFront i).q[j + 1] = if j + 1 ≤ i.toNat then b.q[j]'(by omega) else b.q[j + 1]) ∧
    (b.moveToFront i).q.toList.Perm b.q.toList ∧
    b.moveToFront 0 = b

/-- BT.IDX.RAW pushes its 11-bit index, zero-extended, to the front of the queue and writes it to tile 2k, whose
companion flag follows, or, as an independent companion, to tile 2k+1, which ends the pair. No other tile's index
changes, and no attribute (R219, R221, R222). Fields of the model's own: phase (log 4). That the index of an
independent companion is a step of its own is the model's choice (log 11). -/
def Obligations.RawIndexIsPushedAndPlaced : Prop :=
  ∀ (s : State) (r : BitVec 11),
    (s.phase ≠ .btCompIndex →
      ∃ t : State, exec (.btIdxRaw r) s = .next t ∧
        t = { s with
              p := s.p + 12, bt := s.bt.pushFront (r.setWidth 16), phase := .btCompanion
              mem := { s.mem with tileIdx := t.mem.tileIdx } } ∧
        ∀ a, t.tileIndex a = if a = 2 * s.bt.k then r.setWidth 16 else s.tileIndex a) ∧
    (s.phase = .btCompIndex →
      ∃ u : State, exec (.btIdxRaw r) s = .next u.endPair ∧
        u = { s with
              p := s.p + 12, bt := s.bt.pushFront (r.setWidth 16)
              mem := { s.mem with tileIdx := u.mem.tileIdx } } ∧
        ∀ a, u.tileIndex a = if a = 2 * s.bt.k + 1 then r.setWidth 16 else s.tileIndex a)

/-- BT.IDX.MTF of a filled position i moves that entry to the front and places its value as BT.IDX.RAW places one; a
position at or above BT_OCC raises InvalidDictionaryIndex (R217, R218, R221, R222). Fields of the model's own: phase
(log 4). `raise` is fault entry (FaultEntryEndsTheJob), from the state the rule has reached (log 8). That the index of
an independent companion is a step of its own is the model's choice (log 11). -/
def Obligations.QueueIndexIsMovedAndPlaced : Prop :=
  ∀ (s : State) (i : BitVec 4),
    (s.cfg = Config.decided → s.bt.occ ≤ i.toNat →
      exec (.btIdxMtf i) s = .next ({ s with p := s.p + 5 }.raise ⟨.invalidDictionaryIndex, s.p⟩)) ∧
    (i.toNat < s.bt.occ → s.phase ≠ .btCompIndex →
      ∃ t : State, exec (.btIdxMtf i) s = .next t ∧
        t = { s with
              p := s.p + 5, bt := s.bt.moveToFront i, phase := .btCompanion
              mem := { s.mem with tileIdx := t.mem.tileIdx } } ∧
        ∀ a, t.tileIndex a = if a = 2 * s.bt.k then s.bt.q[i.toNat]'i.isLt else s.tileIndex a) ∧
    (i.toNat < s.bt.occ → s.phase = .btCompIndex →
      ∃ u : State, exec (.btIdxMtf i) s = .next u.endPair ∧
        u = { s with p := s.p + 5, bt := s.bt.moveToFront i, mem := { s.mem with tileIdx := u.mem.tileIdx } } ∧
        ∀ a, u.tileIndex a = if a = 2 * s.bt.k + 1 then s.bt.q[i.toNat]'i.isLt else s.tileIndex a)

/-- BT.COMP.DER writes to tile 2k+1 the index of tile 2k, minus 1 if tile 2k is hflipped and else plus 1, mod 2^16;
the queue is unchanged, no other index and no attribute changes, and the pair ends. BT.COMP.IND reads its flag alone:
the index token that follows is a step of its own, which is the model's choice (log 11) (R220 to R222). Fields of the
model's own: phase (log 4). -/
def Obligations.CompanionIsDerivedOrFollows : Prop :=
  ∀ s : State,
    (s.cfg = Config.decided →
      ∃ u : State, exec .btCompDer s = .next u.endPair ∧
        u = { s with p := s.p + 1, mem := { s.mem with tileIdx := u.mem.tileIdx } } ∧
        ∀ a, u.tileIndex a =
          if a = 2 * s.bt.k + 1 then
            (if (s.tileAttrs (2 * s.bt.k)).hflip then s.tileIndex (2 * s.bt.k) - 1 else s.tileIndex (2 * s.bt.k) + 1)
          else s.tileIndex a) ∧
    exec .btCompInd s = .next { s with p := s.p + 1, phase := .btCompIndex }

/-! ## TMD (43_tilemap.md) -/

/-- TM.HDR sets the geometry W = wm1 + 1, L = hs + 1, H = 2L, T = W * H, or, with T above OUT_CAP, raises SizeMismatch;
TM.TDICT sets B0 and B1, with TM_COUNTERS_ALIAS the storage they share with C0 and C1 (10_state.md R51); TM.ODICT sets
OD to 0xFFFF, 1, 2, W, 2W, W + 1 and the eight values read, zero-extended, and phase 1 begins at the cursor -1 (R251 to
R254). Fields of the model's own: phase (log 4). `raise` is fault entry (FaultEntryEndsTheJob), from the state the rule
has reached (log 8). -/
def Obligations.HeaderAndDictionariesAreSet : Prop :=
  ∀ s : State,
    (∀ left top wm1 hs : Byte,
      let t := (wm1.toNat + 1) * (2 * (hs.toNat + 1))
      let read :=
        { s with
          p := s.p + 32
          tm :=
            { s.tm with
              left := left, top := top, w := wm1.toNat + 1, l := hs.toNat + 1, h := 2 * (hs.toNat + 1), t := t } }
      (s.win.outCap.toNat < t → exec (.tmHdr left top wm1 hs) s = .next (read.raise ⟨.sizeMismatch, s.p⟩)) ∧
      (t ≤ s.win.outCap.toNat → exec (.tmHdr left top wm1 hs) s = .next { read with phase := .tmTdict })) ∧
    (∀ b0 b1 : BitVec 10,
      exec (.tmTdict b0 b1) s = .next
        { s with
          p := s.p + 20
          tm :=
            if s.cfg.tmCountersAlias then { s.tm with c0 := b0.setWidth 16, c1 := b1.setWidth 16 }
            else { s.tm with b0 := b0, b1 := b1 }
          phase := .tmOdict }) ∧
    ∀ v6 v7 v8 v9 v10 v11 v12 v13 : BitVec 12,
      exec (.tmOdict v6 v7 v8 v9 v10 v11 v12 v13) s = .next
        { s with
          p := s.p + 96
          tm :=
            { s.tm with
              od :=
                #v[0xFFFF, 1, 2, BitVec.ofNat 16 s.tm.w, BitVec.ofNat 16 (2 * s.tm.w), BitVec.ofNat 16 (s.tm.w + 1),
                  v6.setWidth 16, v7.setWidth 16, v8.setWidth 16, v9.setWidth 16, v10.setWidth 16, v11.setWidth 16,
                  v12.setWidth 16, v13.setWidth 16]
              c := -1 }
          phase := .tmDelta }

/-- TM.DELTA moves the phase-1 cursor by its value, 0 counting as 1, and a command follows; TM.END, with TM_PASS_EXTENT
= whole, moves it the same way and begins phase 2 with C0 = B0, C1 = B1, no mode and cell 0, or, over no cells, the
alignment (R254 to R256, R264). With TM_COUNTERS_ALIAS the counters are the storage of the bounds and stay (10_state.md
R51). No space is written. Fields of the model's own: phase (log 4), varVal (log 12). -/
def Obligations.DeltasMoveTheCursor : Prop :=
  ∀ (s : State) (c : VarCode), c.exp ≤ s.cfg.varintMaxExp →
    exec (.tmDelta c) s = .next
      { s with
        p := s.p + (2 * c.exp + 1), ve := c.exp, varVal := c.value
        tm := { s.tm with c := s.tm.c + ((if c.value = 0 then 1 else c.value : Nat) : Int) }, phase := .tmCmd } ∧
    (s.cfg.tmPassExtent = .whole →
      exec (.tmEnd c) s = .next
        { s with
          p := s.p + (2 * c.exp + 1), ve := c.exp, varVal := c.value
          tm :=
            { s.tm with
              c := s.tm.c + ((if c.value = 0 then 1 else c.value : Nat) : Int)
              c0 := if s.cfg.tmCountersAlias then s.tm.c0 else s.tm.b0.setWidth 16
              c1 := if s.cfg.tmCountersAlias then s.tm.c1 else s.tm.b1.setWidth 16
              mode := none, i := 0 }
          phase := if 0 < s.tm.t then .tmCell else .tmAlign })

/-- A command writes its dictionary value at the cursor, OD[c] for TM.CMD.S (c at most 5) and OD[6 + 4*(c-6) + e] for
TM.CMD.X, changes no other cell, and begins propagation there with TM_SEL = 0 (R254, R257 to R259; 30_encoding.md
R131). That a cursor at or beyond OUT_CAP raises SizeMismatch, by the check of OutWrite (20_memory.md R82), is the
model's choice (log 19); no job reaches it. Fields of the model's own: phase (log 4). `raise` is fault entry
(FaultEntryEndsTheJob), from the state the rule has reached (log 8). -/
def Obligations.CommandsPlaceDictionaryValues : Prop :=
  ∀ (s : State) (i : Instr) (len k : Nat) (hk : k < 14),
    s.cfg = Config.decided → 0 ≤ s.tm.c →
      ((∃ c : BitVec 3, c.toNat ≤ 5 ∧ i = .tmCmdS c ∧ len = 3 ∧ k = c.toNat) ∨
        (∃ (x : BitVec 1) (e : BitVec 2), i = .tmCmdX x e ∧ len = 5 ∧ k = 6 + 4 * x.toNat + e.toNat)) →
      (s.win.outCap.toNat ≤ s.tm.c.toNat →
        exec i s = .next
          ({ s with p := s.p + len, tm := { s.tm with v := s.tm.od[k] } }.raise ⟨.sizeMismatch, s.p⟩)) ∧
      (s.tm.c.toNat < s.win.outCap.toNat →
        ∃ t : State, exec i s = .next t ∧
          t = { s with
                p := s.p + len, tm := { s.tm with v := s.tm.od[k], pc := s.tm.c.toNat, sel := false }
                phase := .tmPropA, mem := { s.mem with tmbuf := t.mem.tmbuf } } ∧
          ∀ a, t.tmCellAt a = if a = s.tm.c.toNat then s.tm.od[k] else s.tmCellAt a)

/-- The propagation bits, by the reference procedure of TM_PROPAGATE. TM.PROP.RUN is followed by a bit B, TM.PROP.STOP
by the next delta, and TM.PROP.ENDRUN toggles the stride and is followed by a bit A; these write nothing, and TM_PC
stays. TM.PROP.CELL moves TM_PC by W, or by W + 1 when TM_SEL is set, and writes TM_V there and nowhere else; at or
beyond T it raises RunOverrun (R259 to R263). That a cell below T and at or beyond OUT_CAP raises SizeMismatch, by the
check of OutWrite (20_memory.md R82), is the model's choice (log 19); no job reaches it. Fields of the model's own:
phase (log 4). `raise` is fault entry (FaultEntryEndsTheJob), from the state the rule has reached (log 8). -/
def Obligations.PropagationFollowsItsBits : Prop :=
  ∀ s : State, s.cfg = Config.decided →
    exec .tmPropRun s = .next { s with p := s.p + 1, phase := .tmPropB } ∧
    exec .tmPropStop s = .next { s with p := s.p + 1, phase := .tmDelta } ∧
    exec .tmPropEndrun s = .next { s with p := s.p + 1, tm := { s.tm with sel := !s.tm.sel }, phase := .tmPropA } ∧
    let pc := s.tm.pc + (if s.tm.sel then s.tm.w + 1 else s.tm.w)
    let moved := { s with p := s.p + 1, tm := { s.tm with pc := pc } }
    (s.tm.t ≤ pc → exec .tmPropCell s = .next (moved.raise ⟨.runOverrun, s.p⟩)) ∧
    (pc < s.tm.t → s.win.outCap.toNat ≤ pc → exec .tmPropCell s = .next (moved.raise ⟨.sizeMismatch, s.p⟩)) ∧
    (pc < s.tm.t → pc < s.win.outCap.toNat →
      ∃ t : State, exec .tmPropCell s = .next t ∧
        t = { s with
              p := s.p + 1, tm := { s.tm with pc := pc }, phase := .tmPropB
              mem := { s.mem with tmbuf := t.mem.tmbuf } } ∧
        ∀ a, t.tmCellAt a = if a = pc then s.tm.v else s.tmCellAt a)

/-- The mode at cell TM_I: a cell that is not 0 sets it, a cell of 0 continues TM_MODE, and a machine at such a cell
with no mode raises InvalidControlCode at p without reading a bit (R264). Fields of the model's own: sched (log 2),
phase (log 4). `raise` is fault entry (FaultEntryEndsTheJob). -/
def Obligations.CellsSetOrContinueTheMode : Prop :=
  ∀ s : State, s.cfg = Config.decided →
    (s.tmCellAt s.tm.i ≠ 0 → s.cellMode = some (s.tmCellAt s.tm.i)) ∧
    (s.tmCellAt s.tm.i = 0 → s.cellMode = s.tm.mode) ∧
    (s.win.engine = .busy → s.sched = [] → s.phase = .tmCell → s.tmCellAt s.tm.i = 0 → s.tm.mode = none →
      Sys2Proof.Machine.step s = .next (s.raise ⟨.invalidControlCode, s.p⟩))

/-- With TM_PASS_EXTENT = whole, TM.COPY at distance d writes to cell TM_I the value of cell TM_I - d, sets TM_MODE to
d, goes to the next cell and changes no other cell; p stays. With TM_I below d it raises BackRefOutOfWindow (R264,
R265). That a TM_I at or beyond OUT_CAP raises SizeMismatch, by the check of OutWrite (20_memory.md R82), is the
model's choice (log 19); no job reaches it. Fields of the model's own: phase (log 4). `raise` is fault entry
(FaultEntryEndsTheJob), from the state the rule has reached (log 8). That TM_I is T after the last cell is the model's
choice (log 30). -/
def Obligations.CopyRepeatsAnEarlierCell : Prop :=
  ∀ (s : State) (d : Half), s.cfg.tmPassExtent = .whole → s.cellMode = some d →
    let moded := { s with tm := { s.tm with mode := some d } }
    (s.tm.i < d.toNat → exec .tmCopy s = .next (moded.raise ⟨.backRefOutOfWindow, s.p⟩)) ∧
    (d.toNat ≤ s.tm.i → s.win.outCap.toNat ≤ s.tm.i → exec .tmCopy s = .next (moded.raise ⟨.sizeMismatch, s.p⟩)) ∧
    (d.toNat ≤ s.tm.i → s.tm.i < s.win.outCap.toNat →
      ∃ t : State, exec .tmCopy s = .next t ∧
        t = { s with
              tm := { s.tm with i := s.tm.i + 1, mode := some d }
              phase := if s.tm.i + 1 < s.tm.t then .tmCell else .tmAlign
              mem := { s.mem with tmbuf := t.mem.tmbuf } } ∧
        ∀ a, t.tmCellAt a = if a = s.tm.i then s.tmCellAt (s.tm.i - d.toNat) else s.tmCellAt a)

/-- The four literals write cell TM_I and no other cell: TM.LIT.RAW its payload, TM.LIT.OFS B1 plus its payload,
TM.LIT.CNT0 the counter C0 and TM.LIT.CNT1 the counter C1, the counter used counting up mod 2^16. B0 and B1 stay. A
literal sized by a bound of 0 raises InvalidDictionaryIndex: TM.LIT.RAW with B0 = 0 and TM.LIT.OFS with B1 = 0, its
selector having been read (R266 to R269). Fields of the model's own: phase (log 4). `raise` is fault entry
(FaultEntryEndsTheJob), from the state the rule has reached (log 8). That TM_I is T after the last cell is the model's
choice (log 30). -/
def Obligations.LiteralsFillTheCell : Prop :=
  (∀ (s : State) (i : Instr) (len : Nat) (x c0 c1 : Half),
    s.cfg = Config.decided → s.tm.i < s.win.outCap.toNat →
      ((∃ n v, i = .tmLitRaw n v ∧ v < 2 ^ n ∧ s.tm.b0 ≠ 0 ∧ len = 2 + n ∧ x = BitVec.ofNat 16 v ∧
          c0 = s.tm.c0 ∧ c1 = s.tm.c1) ∨
        (∃ n v, i = .tmLitOfs n v ∧ v < 2 ^ n ∧ s.tm.b1 ≠ 0 ∧ len = 2 + n ∧
          x = BitVec.ofNat 16 (s.tm.b1.toNat + v) ∧ c0 = s.tm.c0 ∧ c1 = s.tm.c1) ∨
        (i = .tmLitCnt0 ∧ len = 2 ∧ x = s.tm.c0 ∧ c0 = s.tm.c0 + 1 ∧ c1 = s.tm.c1) ∨
        (i = .tmLitCnt1 ∧ len = 2 ∧ x = s.tm.c1 ∧ c0 = s.tm.c0 ∧ c1 = s.tm.c1 + 1)) →
      ∃ t : State, exec i s = .next t ∧
        t = { s with
              p := s.p + len, tm := { s.tm with i := s.tm.i + 1, mode := s.cellMode, c0 := c0, c1 := c1 }
              phase := if s.tm.i + 1 < s.tm.t then .tmCell else .tmAlign
              mem := { s.mem with tmbuf := t.mem.tmbuf } } ∧
        ∀ a, t.tmCellAt a = if a = s.tm.i then x else s.tmCellAt a) ∧
  ∀ (s : State) (n v : Nat), s.cfg = Config.decided →
    let read := { s with p := s.p + 2, tm := { s.tm with mode := s.cellMode } }
    (s.tm.b0 = 0 → exec (.tmLitRaw n v) s = .next (read.raise ⟨.invalidDictionaryIndex, s.p⟩)) ∧
    (s.tm.b1 = 0 → exec (.tmLitOfs n v) s = .next (read.raise ⟨.invalidDictionaryIndex, s.p⟩))

/-- TM.ALIGN moves p to the next byte boundary, by less than 8 bits, whatever the padding bits are; HM.DIM follows
(R271, 40_bitstream.md R153). Fields of the model's own: phase (log 4). -/
def Obligations.AlignReachesTheByteBoundary : Prop :=
  ∀ (s : State) (pad : List Bool), s.cfg = Config.decided →
    ∃ q, exec (.tmAlign pad) s = .next { s with p := q, phase := .hmDim } ∧ q % 8 = 0 ∧ s.p ≤ q ∧ q < s.p + 8

/-- HM.DIM sets HM_W and HM_H and empties the run; hw * hh above OUT_CAP raises SizeMismatch, an empty heightmap ends
the job at once, and otherwise cell 0 follows. HM.RUN sets the pattern and the run, 255 for each chain byte of 0xFF
plus the last byte; a run of 0 raises InvalidControlCode. Neither writes a cell (R272 to R274, R276; 30_encoding.md
R133). Fields of the model's own: phase (log 4), stamp (log 6). `raise` is fault entry (FaultEntryEndsTheJob), from the
state the rule has reached (log 8). Results of 2^32 or more are not stated (log 14). -/
def Obligations.HeightmapHeadersAreRead : Prop :=
  (∀ (s : State) (hw hh : Byte),
    let moved := { s with p := s.p + 16, hm := { s.hm with w := hw, h := hh, j := 0, run := 0 } }
    (s.win.outCap.toNat < hw.toNat * hh.toNat →
      exec (.hmDim hw hh) s = .next
        ({ s with p := s.p + 16, hm := { s.hm with w := hw, h := hh } }.raise ⟨.sizeMismatch, s.p⟩)) ∧
    (hw.toNat * hh.toNat ≤ s.win.outCap.toNat → 0 < hw.toNat * hh.toNat →
      exec (.hmDim hw hh) s = .next { moved with phase := .hmCell }) ∧
    (hw.toNat * hh.toNat = 0 → s.tm.t < 2 ^ 32 → (s.p + 23) / 8 < 2 ^ 32 →
      exec (.hmDim hw hh) s = .next
        { moved with
          win := s.win.ended s.tm.t ((s.p + 23) / 8) 0 s.tm.geom (HmRegs.dims { s.hm with w := hw, h := hh })
          phase := .none, stamp := s.stamp + 1 })) ∧
  ∀ (s : State) (pat : Half) (k : Nat) (last : Byte), s.cfg = Config.decided →
    (k = 0 → last = 0 →
      exec (.hmRun pat k last) s = .next
        ({ s with p := s.p + 24, hm := { s.hm with pat := pat } }.raise ⟨.invalidControlCode, s.p⟩)) ∧
    (0 < k ∨ last ≠ 0 →
      exec (.hmRun pat k last) s = .next
        { s with p := s.p + (24 + 8 * k), hm := { s.hm with pat := pat, run := 255 * k + last.toNat } })

/-- HM.CELL writes the pattern to cell HM_J and to no other, counts HM_J up and the run down; p stays. After the last
of the hw * hh cells the job ends with RESULT_COUNT = T, RESULT_CONSUMED = ceil(p / 8), RESULT_AUX = hw * hh and the
header and dimensions packed (R274, R276). That HM_J at or beyond OUT_CAP raises SizeMismatch, by the check of OutWrite
(20_memory.md R82), is the model's choice (log 19); no job reaches it, and R274 says that HM.CELL cannot fault. Fields
of the model's own: phase (log 4), stamp (log 6). `raise` is fault entry (FaultEntryEndsTheJob), from the state the
rule has reached (log 8). Results of 2^32 or more are not stated (log 14). That HM_J is hw * hh after the last cell is
the model's choice (log 30). -/
def Obligations.HeightmapCellsTakeThePattern : Prop :=
  ∀ s : State,
    (s.win.outCap.toNat ≤ s.hm.j → exec .hmCell s = .next (s.raise ⟨.sizeMismatch, s.p⟩)) ∧
    (s.hm.j < s.win.outCap.toNat → s.tm.t < 2 ^ 32 → (s.p + 7) / 8 < 2 ^ 32 →
      ∃ t : State, exec .hmCell s = .next t ∧
        t = { s with
              hm := { s.hm with j := s.hm.j + 1, run := s.hm.run - 1 }, mem := { s.mem with hm := t.mem.hm }
              win :=
                if s.hm.j + 1 < s.hm.w.toNat * s.hm.h.toNat then s.win
                else s.win.ended s.tm.t ((s.p + 7) / 8) (s.hm.w.toNat * s.hm.h.toNat) s.tm.geom s.hm.dims
              phase := if s.hm.j + 1 < s.hm.w.toNat * s.hm.h.toNat then s.phase else .none
              stamp := if s.hm.j + 1 < s.hm.w.toNat * s.hm.h.toNat then s.stamp else s.stamp + 1 } ∧
        ∀ a, t.hmCellAt a = if a = s.hm.j then s.hm.pat else s.hmCellAt a)

/-- RESULT_GEOM packs left, top, W - 1 and L - 1 in its four bytes, from the least significant up, and RESULT_AUX2 packs
hw and hh in its low two bytes, the rest 0 (10_state.md R60, R61; R276). -/
def Obligations.TilemapResultsArePacked : Prop :=
  (∀ t : TmRegs, 1 ≤ t.w → t.w ≤ 256 → 1 ≤ t.l → t.l ≤ 256 →
    t.geom.extractLsb' 0 8 = t.left ∧ t.geom.extractLsb' 8 8 = t.top ∧
    (t.geom.extractLsb' 16 8).toNat + 1 = t.w ∧ (t.geom.extractLsb' 24 8).toNat + 1 = t.l) ∧
  ∀ h : HmRegs, h.dims.extractLsb' 0 8 = h.w ∧ h.dims.extractLsb' 8 8 = h.h ∧ h.dims.extractLsb' 16 16 = 0

/-! ## SPD (44_sprite.md) -/

/-- A subframe header appends one record to SF and changes no other record: x and y are 8 times the signed 5-bit
fields, w and h the size fields plus 1, tile_idx the running tile index mod 2^16, which then grows by w*h as SP_NEED
does. After SPR.SF another header follows, after SPR.SF.LAST the pixel loop. The reserved bit b1[7] raises
InvalidControlCode (R301 to R303, R311). Fields of the model's own: phase (log 4). `raise` is fault entry
(FaultEntryEndsTheJob), from the state the rule has reached (log 8). -/
def Obligations.SubframeHeadersAppendRecords : Prop :=
  ∀ (s : State) (y : BitVec 5) (w : BitVec 2) (r : Bool) (x : BitVec 5) (h : BitVec 2) (i : Instr) (next : Phase),
    s.cfg = Config.decided →
      (i = .sprSf y w r x h ∧ next = .sprHeader ∨ i = .sprSfLast y w r x h ∧ next = .sprWord) →
      (r = true →
        exec i s = .next
          ({ s with p := s.p + 16, sp := { s.sp with q := s.sp.q + 2 } }.raise ⟨.invalidControlCode, s.p⟩)) ∧
      (r = false →
        ∃ t : State, exec i s = .next t ∧
          t = { s with
                p := s.p + 16
                sp :=
                  { s.sp with
                    q := s.sp.q + 2, nsf := s.sp.nsf + 1
                    tidx := s.sp.tidx + (w.toNat + 1) * (h.toNat + 1)
                    need := s.sp.need + (w.toNat + 1) * (h.toNat + 1) }
                phase := next, mem := { s.mem with sf := t.mem.sf } } ∧
          ∀ a, t.subframe a =
            if a = s.sp.nsf then
              { x := 8 * x.toInt, y := 8 * y.toInt, w := w.toNat + 1, h := h.toNat + 1
                tileIdx := BitVec.ofNat 16 s.sp.tidx }
            else s.subframe a)

/-- SPR.ZERO writes 2*count zero bytes from SP_O on and changes no other byte, whatever its L bit; no input is read
past the control word. Bit 12 raises InvalidControlCode, and a fill past OUT_CAP SizeMismatch at its first word without
room (R304 to R306). `raise` is fault entry (FaultEntryEndsTheJob), from the state the rule has reached (log 8). -/
def Obligations.ZeroFillWritesZeroBytes : Prop :=
  ∀ (s : State) (stop l : Bool) (count : BitVec 12), s.cfg = Config.decided →
    exec (.sprZero stop l true count) s = .next
      ({ s with p := s.p + 16, sp := { s.sp with q := s.sp.q + 2, cw := sprWord true stop l true count } }.raise
        ⟨.invalidControlCode, s.p⟩) ∧
    (s.win.outCap.toNat < s.sp.o + 2 * count.toNat → 0 < count.toNat →
      exec (.sprZero stop l false count) s = .next
        ({ s with
            p := s.p + 16
            sp :=
              { s.sp with
                q := s.sp.q + 2, o := s.sp.o + 2 * ((s.win.outCap.toNat - s.sp.o) / 2)
                cw := sprWord true stop l false count } }.raise
          ⟨.sizeMismatch, s.p⟩)) ∧
    (s.sp.o + 2 * count.toNat ≤ s.win.outCap.toNat ∨ count.toNat = 0 →
      ∃ u : State, exec (.sprZero stop l false count) s = .next u.endWord ∧
        u = { s with
              p := s.p + 16
              sp :=
                { s.sp with
                  q := s.sp.q + 2, o := s.sp.o + 2 * count.toNat, cw := sprWord true stop l false count }
              mem := { s.mem with out := u.mem.out } } ∧
        ∀ a, u.outByte a = if s.sp.o ≤ a ∧ a < s.sp.o + 2 * count.toNat then 0 else s.outByte a)

/-- SPR.RAW copies the 2*count input bytes after the control word to OUT from SP_O on, in input order, and changes no
other byte. Where words are missing, the first word that cannot be read or written decides: the read comes first, so
the end of the input wins over the capacity at the same word. Bit 12 raises InvalidControlCode before any word is read
(R304, R305, R308; 60_exceptions.md R348). `raise` is fault entry (FaultEntryEndsTheJob), from the state the rule has
reached (log 8). That the words are read within the token's one step is log 13. -/
def Obligations.RawWordsAreCopied : Prop :=
  ∀ (s : State) (stop : Bool) (count : BitVec 12), s.cfg = Config.decided → s.p = 8 * s.sp.q →
    let readable := (s.win.srcLen.toNat - (s.sp.q + 2)) / 2
    let writable := (s.win.outCap.toNat - s.sp.o) / 2
    let after := fun (r : Bool) (nread nwritten : Nat) =>
      { s with
        p := s.p + 16 + 16 * nread
        sp :=
          { s.sp with
            q := s.sp.q + 2 + 2 * nread, o := s.sp.o + 2 * nwritten, cw := sprWord false stop false r count } }
    exec (.sprRaw stop true count) s = .next ((after true 0 0).raise ⟨.invalidControlCode, s.p⟩) ∧
    (readable < count.toNat → readable ≤ writable →
      exec (.sprRaw stop false count) s = .next
        ((after false readable readable).raise ⟨.unexpectedEndOfStream, s.p⟩)) ∧
    (writable < count.toNat → writable < readable →
      exec (.sprRaw stop false count) s = .next
        ((after false (writable + 1) writable).raise ⟨.sizeMismatch, s.p⟩)) ∧
    (count.toNat ≤ readable → count.toNat ≤ writable →
      ∃ u : State, exec (.sprRaw stop false count) s = .next u.endWord ∧
        u = { after false count.toNat count.toNat with mem := { s.mem with out := u.mem.out } } ∧
        ∀ a, u.outByte a =
          if s.sp.o ≤ a ∧ a < s.sp.o + 2 * count.toNat then s.srcByte (s.sp.q + 2 + (a - s.sp.o)) else s.outByte a)

/-- SPR.LZ, whatever its count field, begins LZDecode at the byte after the control word: output from SP_O, which is
the window base, and no control bits left. The sub-stream's tokens are steps of their own, which is the model's choice
(log 10). Bit 12 raises InvalidControlCode (R304, R305, R307; 41_lz77.md R180). Fields of the model's own: phase (log
4), lz.bit (log 9). `raise` is fault entry (FaultEntryEndsTheJob), from the state the rule has reached (log 8). -/
def Obligations.SubStreamsBeginAtTheControlWord : Prop :=
  ∀ (s : State) (stop : Bool) (count : BitVec 12), s.cfg = Config.decided →
    exec (.sprLz stop true count) s = .next
      ({ s with p := s.p + 16, sp := { s.sp with q := s.sp.q + 2, cw := sprWord false stop true true count } }.raise
        ⟨.invalidControlCode, s.p⟩) ∧
    exec (.sprLz stop false count) s = .next
      { s with
        p := 8 * (s.sp.q + 2)
        sp := { s.sp with q := s.sp.q + 2, cw := sprWord false stop true false count }
        lz := { s.lz with nctl := 0, out := s.sp.o, base := s.sp.o, bit := none }
        phase := .lz true }

/-- After a control word's branch its stop bit, bit 14, decides, whichever branch it was: the job ends with
RESULT_COUNT = SP_O, RESULT_CONSUMED = SP_Q, RESULT_AUX = SP_NEED and RESULT_AUX2 = SP_NSF, or the next control word
follows (R304, R309, R310). Fields of the model's own: phase (log 4), stamp (log 6). Results of 2^32 or more are not
stated (log 14). -/
def Obligations.StopBitEndsThePixelLoop : Prop :=
  ∀ (s : State) (z stop l r : Bool) (count : BitVec 12), s.sp.cw = sprWord z stop l r count →
    (stop = false → s.endWord = { s with phase := .sprWord }) ∧
    (stop = true → s.sp.o < 2 ^ 32 → s.sp.q < 2 ^ 32 → s.sp.need < 2 ^ 32 → s.sp.nsf < 2 ^ 32 →
      s.endWord =
        { s with
          win := s.win.ended s.sp.o s.sp.q s.sp.need 0 (BitVec.ofNat 32 s.sp.nsf), phase := .none
          stamp := s.stamp + 1 })

/-! ## Faults (60_exceptions.md) -/

/-- Fault entry: STATE is FAULT, FAULT_CODE the code 1 to 6 of the kind, FAULT_POS the position where it fits 32 bits,
and the job ends: while DEC alone moves, no later step changes anything. SRC, SRC_LEN, OUT_CAP and CTRL keep their
values; nothing is claimed of the results and the output spaces (R340, R349, R352). Fields of the model's own: sched
(log 2). A position of 2^32 or more is log 14. -/
def Obligations.FaultEntryEndsTheJob : Prop :=
  ∀ (s : State) (k : FaultKind) (pos : Nat),
    (s.raise ⟨k, pos⟩).win.engine = .fault ∧
    (s.raise ⟨k, pos⟩).win.faultCode =
      (match k with
        | .unexpectedEndOfStream => 1
        | .invalidDictionaryIndex => 2
        | .invalidControlCode => 3
        | .sizeMismatch => 4
        | .backRefOutOfWindow => 5
        | .runOverrun => 6) ∧
    (pos < 2 ^ 32 → (s.raise ⟨k, pos⟩).win.faultPos.toNat = pos) ∧
    (s.raise ⟨k, pos⟩).mem.src = s.mem.src ∧ (s.raise ⟨k, pos⟩).win.srcLen = s.win.srcLen ∧
    (s.raise ⟨k, pos⟩).win.outCap = s.win.outCap ∧ (s.raise ⟨k, pos⟩).win.codec = s.win.codec ∧
    (s.sched = [] → ∀ n, Sys2Proof.core.run n (s.raise ⟨k, pos⟩) = .next (s.raise ⟨k, pos⟩))

/-- In the states of the job invariant a token that leaves the machine in FAULT does so by fault entry, with a kind the
rules give that token, at the token's first bit, or, for the odd length of a sub-stream, at its control word; what the
rule had changed before that is neither the window nor the input (R341 to R346, R349). `raise` is fault entry
(FaultEntryEndsTheJob), from the state the rule has reached (log 8). Fields of the model's own: stamp (log 6), sched
(log 2). -/
def Obligations.TokensFaultOnlyAsTheirRulesSay : Prop :=
  ∀ (s t : State) (i : Instr),
    JobInv s → s.win.engine = .busy → s.fetch = .instr i → exec i s = .next t → t.win.engine = .fault →
      ∃ (k : FaultKind) (u : State), k ∈ faultsOf i ∧ t = u.raise ⟨k, faultPosOf i s⟩ ∧
        u.win = s.win ∧ u.mem.src = s.mem.src ∧ u.cfg = s.cfg ∧ u.jobCodec = s.jobCodec ∧ u.stamp = s.stamp ∧
        u.sched = s.sched

/-! ## The register window (10_state.md) -/

/-- STATUS shows STATE in bits 1..0 and FAULT_CODE in bits 7..4; CTRL shows CODEC in bits 1..0; every other bit of both
reads 0, and so does every offset of 0x28 or more (R31 to R33, R40). -/
def Obligations.StatusAndControlReadAsPacked : Prop :=
  ∀ s : State,
    (s.readWindow 0x04).extractLsb' 0 2 =
      (match s.win.engine with
        | .idle => 0
        | .busy => 1
        | .done => 2
        | .fault => 3) ∧
    (s.readWindow 0x04).extractLsb' 2 2 = 0 ∧ (s.readWindow 0x04).extractLsb' 4 4 = s.win.faultCode ∧
    (s.readWindow 0x04).extractLsb' 8 24 = 0 ∧
    (s.readWindow 0x00).extractLsb' 0 2 = s.win.codec ∧ (s.readWindow 0x00).extractLsb' 2 30 = 0 ∧
    ∀ offset, 0x28 ≤ offset → s.readWindow offset = 0

/-- HOST's writes while no job runs. SRC_LEN and OUT_CAP take the word, CTRL without START takes the low two bits, a
write to any other offset changes nothing, and no write changes what another offset reads as. A write of SRC changes
that byte and nothing else (R32 to R40; 20_memory.md R80, R98). That an offset inside a word, below 0x28, ignores a
write is the model's choice (log 16). -/
def Obligations.HostWritesReachTheirTarget : Prop :=
  (∀ (s : State) (offset : Nat) (v : Word32), s.win.engine ≠ .busy →
    (offset = 0x00 → v.getLsbD 8 = false) →
      ∃ t : State, s.writeWindow offset v = .next t ∧
        t = { s with win := t.win } ∧
        (∀ other, other ≠ offset → t.readWindow other = s.readWindow other) ∧
        t.readWindow offset =
          if offset = 0x00 then v &&& 3 else if offset = 0x08 ∨ offset = 0x0C then v else s.readWindow offset) ∧
  ∀ (s : State) (i : Nat) (v : Byte), s.win.engine ≠ .busy →
    ∃ t : State, s.writeSrc i v = .next t ∧ t = { s with mem := { s.mem with src := t.mem.src } } ∧
      ∀ a, t.srcByte a = if a = i then v else s.srcByte a

/-- While BUSY the block ignores every write of the window, START with it (R32; 70_reset_and_hazards.md R381, R385).
Fields of the model's own: sched (log 2). -/
def Obligations.WindowWritesWhileBusyAreIgnored : Prop :=
  ∀ (s : State) (offset : Nat) (v : Word32) (turns : List Turn),
    s.win.engine = .busy → s.sched = .host (.writeWindow offset v) :: turns →
      Sys2Proof.Machine.step s = .next { s with sched := turns }

/-- STATE changes only as R31 says: to IDLE by block reset, to BUSY by a write of 1 to CTRL.START while not BUSY, and
to DONE or FAULT by a turn of DEC while BUSY. Fields of the model's own: sched (log 2). -/
def Obligations.EngineStateChangesAsListed : Prop :=
  ∀ s t : State, Sys2Proof.Machine.step s = .next t → t.win.engine ≠ s.win.engine →
    (t.win.engine = .idle ∧ ∃ turns, s.sched = .host .reset :: turns) ∨
    (t.win.engine = .busy ∧ ∃ v turns, v.getLsbD 8 = true ∧ s.sched = .host (.writeWindow 0x00 v) :: turns) ∨
    ((t.win.engine = .done ∨ t.win.engine = .fault) ∧ s.win.engine = .busy ∧
      (s.sched = [] ∨ ∃ turns, s.sched = .dec :: turns))

/-- What HOST reads after a TMD job: cell (x, y) of the foreground is cell y*W + x of the first half of the buffer, and
of the background that cell of the second half; cell (x, y) of the heightmap is cell y*hw + x of HM (R84, R270). -/
def Obligations.LayersAreTheHalvesOfTheBuffer : Prop :=
  ∀ (s : State) (x y : Nat), s.win.engine = .done → s.jobCodec = 2 →
    (1 ≤ s.tm.w → s.tm.w ≤ 256 → 1 ≤ s.tm.l → s.tm.l ≤ 256 →
      s.win.resultGeom = s.tm.geom → s.win.resultCount.toNat = s.tm.w * (2 * s.tm.l) → x < s.tm.w → y < s.tm.l →
        s.hostReadFg x y = s.tmCellAt (y * s.tm.w + x) ∧
        s.hostReadBg x y = s.tmCellAt (s.tm.w * s.tm.l + (y * s.tm.w + x))) ∧
    (s.win.resultAux2 = s.hm.dims → s.win.resultAux.toNat = s.hm.w.toNat * s.hm.h.toNat →
      x < s.hm.w.toNat → y < s.hm.h.toNat → s.hostReadHmAt x y = s.hmCellAt (y * s.hm.w.toNat + x))

/-! ## Reset and START (70_reset_and_hazards.md) -/

/-- After block reset, in any state and at any time, STATE is IDLE and every register and every reserved offset of the
window reads 0; the spaces hold no known value. The machine starts in such a state (R380). Fields of the model's own:
sched (log 2). A space without a known value is the model's form of an unspecified one (log 7). -/
def Obligations.BlockResetClearsTheWindow : Prop :=
  (∀ (s : State) (turns : List Turn), s.sched = .host .reset :: turns →
    ∃ t : State, Sys2Proof.Machine.step s = .next t ∧ t.win.engine = .idle ∧
      (∀ offset, offset % 4 = 0 ∨ 0x28 ≤ offset → t.readWindow offset = 0) ∧
      ∀ a, t.mem.src.get? a = none ∧ t.mem.out.get? a = none ∧ t.mem.tileIdx.get? a = none ∧
        t.mem.tileAttr.get? a = none ∧ t.mem.tmbuf.get? a = none ∧ t.mem.hm.get? a = none ∧
        t.mem.sf.get? a = none) ∧
  State.reset.win.engine = .idle ∧
  ∀ offset, offset % 4 = 0 ∨ 0x28 ≤ offset → State.reset.readWindow offset = 0

/-- START while not BUSY, with the CODEC of the same write: FAULT_CODE, FAULT_POS and the results are 0, STATE is
BUSY, every register that R382 gives a value holds it, the attributes and TMBUF are zero below OUT_CAP, SRC, SRC_LEN
and OUT_CAP are kept, and the codec's first token is asked for (R381, R382). Fields of the model's own: sched (log 2). -/
def Obligations.StartSetsTheJobStartValues : Prop :=
  ∀ (s : State) (v : Word32), s.win.engine ≠ .busy → v.getLsbD 8 = true →
    ∃ t : State, s.writeWindow 0x00 v = .next t ∧
      t.win =
        { s.win with
          codec := v.setWidth 2, engine := .busy, faultCode := 0, faultPos := 0, resultCount := 0, resultConsumed := 0
          resultAux := 0, resultGeom := 0, resultAux2 := 0 } ∧
      t.jobCodec = v.setWidth 2 ∧ t.p = 0 ∧ t.ve = 0 ∧
      t.lz.nctl = 0 ∧ t.lz.out = 0 ∧ t.lz.base = 0 ∧
      t.bt.n = 0 ∧ t.bt.total = 0 ∧ t.bt.attr = .priority ∧ t.bt.pos = 0 ∧ t.bt.k = 0 ∧
      t.bt.first = true ∧ t.bt.occ = 0 ∧
      t.tm.c = -1 ∧ t.tm.mode = none ∧ t.hm.run = 0 ∧
      t.sp.q = 0 ∧ t.sp.o = 0 ∧ t.sp.nsf = 0 ∧ t.sp.need = 0 ∧ t.sp.tidx = 0 ∧
      (∀ a, a < s.win.outCap.toNat →
        t.tileAttrs a = { hflip := false, vflip := false, priority := false } ∧ t.tmCellAt a = 0) ∧
      t.mem.src = s.mem.src ∧ t.cfg = s.cfg ∧ t.sched = s.sched ∧
      t.select =
        .token
          (if v.setWidth 2 = (0 : BitVec 2) then .lzCtrl
          else if v.setWidth 2 = (1 : BitVec 2) then .btCount
          else if v.setWidth 2 = (2 : BitVec 2) then .tmHdr
          else .sprHeader)

/-- Nothing a job computed is kept for the next: two machines that differ in what earlier jobs left in the registers,
the results and the output spaces, but not in SRC, SRC_LEN and OUT_CAP, run every later step alike from the same START
(R5, R382). The counter that names free values is the model's own and is taken equal (log 6). Fields of the model's
own: sched (log 2). -/
def Obligations.NoValueSurvivesIntoTheNextJob : Prop :=
  ∀ (s s' : State) (v : Word32) (n : Nat),
    s.win.engine ≠ .busy → s'.win.engine ≠ .busy → v.getLsbD 8 = true →
      s.cfg = s'.cfg → s.mem.src = s'.mem.src → s.win.srcLen = s'.win.srcLen → s.win.outCap = s'.win.outCap →
        s.stamp = s'.stamp → s.sched = s'.sched →
          ∀ t t', s.writeWindow 0x00 v = .next t → s'.writeWindow 0x00 v = .next t' →
            Sys2Proof.core.run n t = Sys2Proof.core.run n t'

/-- IDLE, DONE and FAULT hold every register, whatever the number of DEC's turns (60_exceptions.md R359, 10_state.md
R31). Fields of the model's own: sched (log 2). -/
def Obligations.WaitingStatesHoldEverything : Prop :=
  ∀ (s : State) (n : Nat), s.win.engine ≠ .busy → s.sched = [] → Sys2Proof.core.run n s = .next s

/-! ## The whole machine -/

/-- Every step keeps every address space in its canonical form. The canonical form is the model's (log 7). -/
def Obligations.MemoryStaysCanonical : Prop :=
  ∀ s t : State, s.mem.wf = true → Sys2Proof.Machine.step s = .next t → t.mem.wf = true

/-- The state after reset has the canonical memories and the job invariant. The canonical form and the grammar
position are the model's (log 4, log 7). -/
def Obligations.ResetHasTheInvariants : Prop :=
  State.reset.mem.wf = true ∧ JobInv State.reset

/-- Every step keeps the job invariant: the ranges of the registers at each grammar position, FAULT_CODE 0 outside
FAULT, the cursor within the input, a multiple of 8 in LZD and SPD, SP_NEED = SP_TIDX, and the capacity the size
checks promised. The grammar position is the model's field phase (log 4). -/
def Obligations.JobInvariantIsKept : Prop :=
  ∀ s t : State, JobInv s → Sys2Proof.Machine.step s = .next t → JobInv t

/-- From every state of the job invariant a turn of DEC goes on: no token, and no input, stops the machine (00_scope.md
R18, 30_encoding.md R138). -/
def Obligations.DecTurnsAlwaysGoOn : Prop :=
  ∀ s : State, JobInv s → Continues (decStep s)

/-- Every job ends: from any state of the job invariant, DEC alone leaves BUSY within 8*SRC_LEN steps and two steps
for each element of OUT_CAP, which bounds T and hw*hh, and two more for the alignment and a fault
(70_reset_and_hazards.md R392; the two more are the model's, log 29). Fields of the model's own: sched (log 2). -/
def Obligations.EveryJobEnds : Prop :=
  ∀ s : State, JobInv s → s.sched = [] →
    EndsWithin (8 * s.win.srcLen.toNat + 2 * s.win.outCap.toNat + 2) s

/-- In every state of the job invariant the registers fit the widths 10_state.md gives them, at the grammar positions
that use them (R41, R45 to R54). Fields of the model's own: phase (log 4). The registers are numbers without a width
in the model (log 26). -/
def Obligations.RegistersFitTheirWidths : Prop :=
  ∀ s : State, JobInv s → s.win.engine = .busy →
    s.p < 2 ^ 35 ∧
    (∀ b, s.phase = .lz b → s.lz.nctl ≤ 8 ∧ s.lz.out < 2 ^ 32 ∧ s.lz.base < 2 ^ 32) ∧
    (s.phase = .btSkip ∨ s.phase = .btApply → s.bt.total < 2 ^ 18 ∧ s.bt.pos < 2 ^ 19) ∧
    (s.phase = .btIndex ∨ s.phase = .btCompanion ∨ s.phase = .btCompIndex → s.bt.k < 2 ^ 17 ∧ s.bt.occ ≤ 16) ∧
    (s.phase = .tmDelta ∨ s.phase = .tmCmd ∨ s.phase = .tmPropA ∨ s.phase = .tmPropB →
      -1 ≤ s.tm.c ∧ s.tm.c < s.tm.t) ∧
    (s.phase ∈ [.tmTdict, .tmOdict, .tmDelta, .tmCmd, .tmPropA, .tmPropB, .tmCell, .tmAlign, .hmDim, .hmCell] →
      s.tm.w < 2 ^ 9 ∧ s.tm.l < 2 ^ 9 ∧ s.tm.h < 2 ^ 10 ∧ s.tm.t < 2 ^ 18) ∧
    (s.phase = .tmPropA ∨ s.phase = .tmPropB → s.tm.pc < 2 ^ 18) ∧
    (s.phase = .tmCell → s.tm.i < 2 ^ 18 ∧ s.tm.mode ≠ some 0) ∧
    (s.phase = .hmCell → s.hm.j < 2 ^ 16)

/-- The cursor never moves backward and never past the end of the input, in a turn that faults either, and a token
that does not fault moves it by exactly the token's bits, its data words included (10_state.md R42,
70_reset_and_hazards.md R389). That a fault leaves p where the rule had read to is log 8. -/
def Obligations.CursorMovesOverTheToken : Prop :=
  ∀ s t : State, JobInv s → s.win.engine = .busy → decStep s = .next t →
    s.p ≤ t.p ∧ t.p ≤ 8 * s.win.srcLen.toNat ∧
    ∀ i, s.fetch = .instr i → t.win.engine ≠ .fault → t.p = s.p + bitsTaken s.cfg i

/-- No token writes SRC, SRC_LEN, OUT_CAP, CTRL, a parameter or the schedule, and none changes a register of the
window but by ending the job in DONE or in FAULT (00_scope.md R18; 10_state.md R44; 20_memory.md R101). Fields of the
model's own: sched (log 2), phase (log 4). -/
def Obligations.TokensLeaveTheInterfaceAlone : Prop :=
  ∀ (s t : State) (i : Instr), exec i s = .next t →
    t.mem.src = s.mem.src ∧ t.win.srcLen = s.win.srcLen ∧ t.win.outCap = s.win.outCap ∧ t.win.codec = s.win.codec ∧
    t.jobCodec = s.jobCodec ∧ t.cfg = s.cfg ∧ t.sched = s.sched ∧
    (t.win = s.win ∨ t.phase = .none ∧ (t.win.engine = .done ∨ t.win.engine = .fault))

/-- DEC reads SRC below SRC_LEN only: with other bytes from SRC_LEN on, a turn of DEC does the same (20_memory.md R81;
40_bitstream.md R150). -/
def Obligations.DecReadsOnlyTheGivenInput : Prop :=
  ∀ (s : State) (m : Memory Byte),
    (∀ i, i < s.win.srcLen.toNat → m.read (Config.freeBits 8 tagSrc) i = s.srcByte i) →
      decStep { s with mem := { s.mem with src := m } } =
        match decStep s with
        | .next t => .next { t with mem := { t.mem with src := m } }
        | .fault f => .fault f
        | .refused r => .refused r

end
end

