-- ==== Sys2Proof/Laws/Decode.lean ====
section
/-! SUPPORT. Reading a field from its bits gives the field back, and what is read is the bits of a field. -/

namespace Sys2Proof

/-! ## Numbers -/

@[simp] theorem length_natBits (n v : Nat) : (natBits n v).length = n := by
  induction n with
  | zero => rfl
  | succ n ih => simp [natBits, ih]

@[simp] theorem length_fieldBits {w : Nat} (v : BitVec w) : (fieldBits v).length = w := length_natBits w v.toNat

theorem natBits_mod (n v : Nat) : natBits n (v % 2 ^ n) = natBits n v := by
  suffices h : ∀ m, m ≤ n → natBits m (v % 2 ^ n) = natBits m v from h n (Nat.le_refl n)
  intro m
  induction m with
  | zero => intro; rfl
  | succ m ih =>
    intro hm
    simp only [natBits]
    rw [ih (by omega), Nat.testBit_mod_two_pow]
    simp [show m < n by omega]

theorem readBitsFrom_natBits (n acc v : Nat) (rest : List Bool) :
    readBitsFrom n acc (natBits n v ++ rest) = .ok (acc * 2 ^ n + v % 2 ^ n, rest) := by
  induction n generalizing acc with
  | zero => simp [natBits, readBitsFrom, Nat.mod_one]
  | succ n ih =>
    simp only [natBits, List.cons_append, readBitsFrom, ih]
    congr 2
    have h1 : v % 2 ^ (n + 1) = v % 2 ^ n + 2 ^ n * (v / 2 ^ n % 2) := by
      rw [Nat.pow_succ, Nat.mod_mul]
    have h2 : (v.testBit n).toNat = v / 2 ^ n % 2 := by
      rw [Nat.toNat_testBit]
    rw [h1, h2, Nat.pow_succ]
    ring

theorem readNat_natBits {n v : Nat} (h : v < 2 ^ n) (rest : List Bool) :
    readNat n (natBits n v ++ rest) = .ok (v, rest) := by
  unfold readNat
  rw [readBitsFrom_natBits, Nat.mod_eq_of_lt h]
  simp

theorem readField_fieldBits {w : Nat} (v : BitVec w) (rest : List Bool) :
    readField w (fieldBits v ++ rest) = .ok (v, rest) := by
  unfold readField fieldBits
  rw [readNat_natBits v.isLt]
  simp

theorem readBitsFrom_ok {n acc v : Nat} {bits rest : List Bool} (h : readBitsFrom n acc bits = .ok (v, rest)) :
    ∃ u, u < 2 ^ n ∧ v = acc * 2 ^ n + u ∧ bits = natBits n u ++ rest := by
  induction n generalizing acc bits with
  | zero =>
    simp only [readBitsFrom, Except.ok.injEq, Prod.mk.injEq] at h
    exact ⟨0, by simp, by simp [h.1], by simp [natBits, h.2]⟩
  | succ n ih =>
    cases bits with
    | nil => simp [readBitsFrom] at h
    | cons b bits =>
      obtain ⟨u, hu, hv, hb⟩ := ih h
      refine ⟨b.toNat * 2 ^ n + u, ?_, ?_, ?_⟩
      · have := Bool.toNat_le b
        rw [Nat.pow_succ]; nlinarith
      · rw [hv, Nat.pow_succ]; ring
      · have hbit : (b.toNat * 2 ^ n + u).testBit n = b := by
          rw [Nat.testBit_eq_decide_div_mod_eq, Nat.add_comm, Nat.add_mul_div_right _ _ (Nat.two_pow_pos n),
            Nat.div_eq_of_lt hu]
          cases b <;> rfl
        have hmod : natBits n (b.toNat * 2 ^ n + u) = natBits n u := by
          rw [← natBits_mod n (b.toNat * 2 ^ n + u), Nat.mul_add_mod_self_right, Nat.mod_eq_of_lt hu]
        simp only [natBits, hbit, hmod, List.cons_append, hb]

theorem readNat_ok {n v : Nat} {bits rest : List Bool} (h : readNat n bits = .ok (v, rest)) :
    v < 2 ^ n ∧ bits = natBits n v ++ rest := by
  obtain ⟨u, hu, hv, hb⟩ := readBitsFrom_ok h
  simp only [Nat.zero_mul, Nat.zero_add] at hv
  subst hv
  exact ⟨hu, hb⟩

theorem readField_ok {w : Nat} {v : BitVec w} {bits rest : List Bool} (h : readField w bits = .ok (v, rest)) :
    bits = fieldBits v ++ rest := by
  unfold readField at h
  split at h
  · rename_i u r hu
    obtain ⟨hlt, hb⟩ := readNat_ok hu
    simp only [Except.ok.injEq, Prod.mk.injEq] at h
    obtain ⟨rfl, rfl⟩ := h
    simp [fieldBits, hb, Nat.mod_eq_of_lt hlt]
  · cases h

theorem readFlag_ok {b : Bool} {bits rest : List Bool} (h : readFlag bits = .ok (b, rest)) : bits = b :: rest := by
  cases bits with
  | nil => cases h
  | cons c bits => simp only [readFlag, Except.ok.injEq, Prod.mk.injEq] at h; rw [h.1, h.2]

/-- A read of n bits fails exactly when fewer than n are left. -/
theorem readBitsFrom_of_lt {n acc : Nat} {bits : List Bool} (h : bits.length < n) :
    readBitsFrom n acc bits = .error .endOfStream := by
  induction n generalizing acc bits with
  | zero => omega
  | succ n ih =>
    cases bits with
    | nil => rfl
    | cons b bits => exact ih (by simpa using h)

theorem readNat_of_lt {n : Nat} {bits : List Bool} (h : bits.length < n) : readNat n bits = .error .endOfStream :=
  readBitsFrom_of_lt h

theorem readField_of_lt {w : Nat} {bits : List Bool} (h : bits.length < w) :
    readField w bits = .error .endOfStream := by
  unfold readField; rw [readNat_of_lt h]

theorem readBitsFrom_of_le {n acc : Nat} {bits : List Bool} (h : n ≤ bits.length) :
    ∃ v, readBitsFrom n acc bits = .ok (v, bits.drop n) := by
  induction n generalizing acc bits with
  | zero => exact ⟨acc, rfl⟩
  | succ n ih =>
    cases bits with
    | nil => simp at h
    | cons b bits => exact ih (by simpa using h)

/-! ## Coded numbers -/

theorem readExponent_replicate {room e k : Nat} (h : k ≤ room) (rest : List Bool) :
    readExponent room e (List.replicate k false ++ true :: rest) = .ok (e + k, rest) := by
  induction k generalizing room e with
  | zero => cases room <;> rfl
  | succ k ih =>
    cases room with
    | zero => omega
    | succ room => simp only [List.replicate_succ, List.cons_append, readExponent]; rw [ih (by omega)]; congr 2; omega

theorem readExponent_ok {room e k : Nat} {bits rest : List Bool} (h : readExponent room e bits = .ok (k, rest)) :
    ∃ z, z ≤ room ∧ k = e + z ∧ bits = List.replicate z false ++ true :: rest := by
  induction bits generalizing room e with
  | nil => cases room <;> cases h
  | cons b bits ih =>
    cases b with
    | true =>
      have : readExponent room e (true :: bits) = .ok (e, bits) := by cases room <;> rfl
      rw [this] at h
      simp only [Except.ok.injEq, Prod.mk.injEq] at h
      exact ⟨0, by omega, by omega, by simp [h.2]⟩
    | false =>
      cases room with
      | zero => cases h
      | succ room =>
        obtain ⟨z, hz, hk, hb⟩ := ih (room := room) (e := e + 1) h
        exact ⟨z + 1, by omega, by omega, by simp [List.replicate_succ, hb]⟩

theorem readVar_bits {cfg : Params} {c : VarCode} (h : c.wf cfg = true) (rest : List Bool) :
    readVar cfg (c.bits ++ rest) = .ok (c, rest) := by
  simp only [VarCode.wf, Bool.and_eq_true, decide_eq_true_eq] at h
  unfold readVar VarCode.bits
  rw [List.append_assoc, List.cons_append, readExponent_replicate h.1]
  simp only [Nat.zero_add, bind, Except.bind]
  rw [readNat_natBits h.2]

theorem readVar_ok {cfg : Params} {c : VarCode} {bits rest : List Bool} (h : readVar cfg bits = .ok (c, rest)) :
    c.wf cfg = true ∧ bits = c.bits ++ rest := by
  unfold readVar at h
  simp only [bind, Except.bind] at h
  split at h
  · cases h
  · rename_i _ v hv
    obtain ⟨e, r⟩ := v
    simp only at h
    split at h
    · cases h
    · rename_i _ w hw
      obtain ⟨m, r'⟩ := w
      simp only [Except.ok.injEq, Prod.mk.injEq] at h
      obtain ⟨rfl, rfl⟩ := h
      obtain ⟨z, hz, he, hb⟩ := readExponent_ok hv
      obtain ⟨hm, hb'⟩ := readNat_ok hw
      have : e = z := by omega
      subst this
      refine ⟨by simp [VarCode.wf, hz, hm], ?_⟩
      simp [VarCode.bits, hb, hb']

@[simp] theorem length_bits (c : VarCode) : c.bits.length = 2 * c.exp + 1 := by
  simp [VarCode.bits]; omega

/-! ## Byte chains -/

/-- Eight bits and the byte they are. -/
theorem fieldBits_byteOfBits (b7 b6 b5 b4 b3 b2 b1 b0 : Bool) :
    fieldBits (byteOfBits b7 b6 b5 b4 b3 b2 b1 b0) = [b7, b6, b5, b4, b3, b2, b1, b0] := by
  cases b7 <;> cases b6 <;> cases b5 <;> cases b4 <;> cases b3 <;> cases b2 <;> cases b1 <;> cases b0 <;> rfl

theorem fieldBits_injective {w : Nat} {a b : BitVec w} (h : fieldBits a = fieldBits b) : a = b := by
  have ha := readField_fieldBits a []
  rw [h, readField_fieldBits b []] at ha
  simpa using ha.symm

/-- A byte is eight bits. -/
theorem exists_byteOfBits (v : Byte) : ∃ b7 b6 b5 b4 b3 b2 b1 b0, v = byteOfBits b7 b6 b5 b4 b3 b2 b1 b0 := by
  refine ⟨v.toNat.testBit 7, v.toNat.testBit 6, v.toNat.testBit 5, v.toNat.testBit 4, v.toNat.testBit 3,
    v.toNat.testBit 2, v.toNat.testBit 1, v.toNat.testBit 0, fieldBits_injective ?_⟩
  rw [fieldBits_byteOfBits]; rfl

theorem readChain_byte (k : Nat) (v : Byte) (rest : List Bool) :
    readChain k (fieldBits v ++ rest) = if v = 0xFF then readChain (k + 1) rest else .ok (k, v, rest) := by
  obtain ⟨b7, b6, b5, b4, b3, b2, b1, b0, rfl⟩ := exists_byteOfBits v
  rw [fieldBits_byteOfBits]
  simp only [List.cons_append, List.nil_append, readChain]

theorem replicate_ones_succ (k : Nat) :
    List.replicate (8 * (k + 1)) true = fieldBits (0xFF : Byte) ++ List.replicate (8 * k) true := by
  rw [show 8 * (k + 1) = 8 + 8 * k by omega, List.replicate_add]; rfl

theorem readChain_bits (j k : Nat) {last : Byte} (h : last ≠ 0xFF) (rest : List Bool) :
    readChain j (List.replicate (8 * k) true ++ (fieldBits last ++ rest)) = .ok (j + k, last, rest) := by
  induction k generalizing j with
  | zero => simp only [Nat.mul_zero, List.replicate_zero, List.nil_append]; rw [readChain_byte, if_neg h]; simp
  | succ k ih =>
    rw [replicate_ones_succ, List.append_assoc, readChain_byte, if_pos rfl, ih]
    congr 2; omega

theorem readChain_ok {j k : Nat} {last : Byte} {bits rest : List Bool} (h : readChain j bits = .ok (k, last, rest)) :
    ∃ z, k = j + z ∧ last ≠ 0xFF ∧ bits = List.replicate (8 * z) true ++ (fieldBits last ++ rest) := by
  match bits with
  | b7 :: b6 :: b5 :: b4 :: b3 :: b2 :: b1 :: b0 :: bits =>
    simp only [readChain] at h
    split at h
    · rename_i hv
      obtain ⟨z, hz, hl, hb⟩ := readChain_ok h
      refine ⟨z + 1, by omega, hl, ?_⟩
      have := fieldBits_byteOfBits b7 b6 b5 b4 b3 b2 b1 b0
      rw [hv] at this
      rw [replicate_ones_succ, this, hb]; rfl
    · rename_i hv
      simp only [Except.ok.injEq, Prod.mk.injEq] at h
      obtain ⟨rfl, rfl, rfl⟩ := h
      refine ⟨0, by omega, hv, ?_⟩
      rw [fieldBits_byteOfBits]; rfl
  | [] => cases h
  | [_] => cases h
  | [_, _] => cases h
  | [_, _, _] => cases h
  | [_, _, _, _] => cases h
  | [_, _, _, _, _] => cases h
  | [_, _, _, _, _, _] => cases h
  | [_, _, _, _, _, _, _] => cases h
termination_by bits.length

/-! ## Offsets -/

theorem offset_halves (offset : BitVec 12) : offset.extractLsb' 8 4 ++ offset.setWidth 8 = offset := by
  ext i hi
  simp only [BitVec.getElem_append, BitVec.getElem_extractLsb', BitVec.getElem_setWidth]
  split
  · simp [BitVec.getLsbD_eq_getElem hi]
  · rw [show 8 + (i - 8) = i by omega, BitVec.getLsbD_eq_getElem hi]

/-- The high half of an offset. -/
theorem offset_high (a : BitVec 4) (b : BitVec 8) : BitVec.extractLsb' 8 4 (a ++ b : BitVec 12) = a := by
  apply BitVec.eq_of_getLsbD_eq
  intro i hi
  have h : (a ++ b : BitVec 12).getLsbD (8 + i) = a.getLsbD i := by
    erw [BitVec.getLsbD_append]; simp
  simp [hi, h]

/-- The low half of an offset. -/
theorem offset_low (a : BitVec 4) (b : BitVec 8) : BitVec.setWidth 8 (a ++ b : BitVec 12) = b := by
  apply BitVec.eq_of_getLsbD_eq
  intro i hi
  have h : (a ++ b : BitVec 12).getLsbD i = b.getLsbD i := by
    erw [BitVec.getLsbD_append]; simp [hi]
  simp [hi, h]

/-! ## Reads as equations on the input -/

/-- A read that runs another after it succeeds when both do. -/
theorem bind_eq_ok {α β : Type} {x : Except DecodeError α} {f : α → Except DecodeError β} {r : β} :
    (x >>= f) = .ok r ↔ ∃ a, x = .ok a ∧ f a = .ok r := by
  cases x with
  | ok a => simp [bind, Except.bind]
  | error e => simp [bind, Except.bind]

/-- A read that runs another after it fails when the first does, or when the second does. -/
theorem bind_eq_error {α β : Type} {x : Except DecodeError α} {f : α → Except DecodeError β} {e : DecodeError} :
    (x >>= f) = .error e ↔ x = .error e ∨ ∃ a, x = .ok a ∧ f a = .error e := by
  cases x with
  | ok a => simp [bind, Except.bind]
  | error e => simp [bind, Except.bind]

theorem readNat_iff {n v : Nat} {bits rest : List Bool} :
    readNat n bits = .ok (v, rest) ↔ v < 2 ^ n ∧ bits = natBits n v ++ rest :=
  ⟨readNat_ok, fun h => by rw [h.2, readNat_natBits h.1]⟩

theorem readField_iff {w : Nat} {v : BitVec w} {bits rest : List Bool} :
    readField w bits = .ok (v, rest) ↔ bits = fieldBits v ++ rest :=
  ⟨readField_ok, fun h => by rw [h, readField_fieldBits]⟩

theorem readFlag_iff {b : Bool} {bits rest : List Bool} : readFlag bits = .ok (b, rest) ↔ bits = b :: rest :=
  ⟨readFlag_ok, fun h => by rw [h]; rfl⟩

theorem readVar_iff {cfg : Params} {c : VarCode} {bits rest : List Bool} :
    readVar cfg bits = .ok (c, rest) ↔ c.wf cfg = true ∧ bits = c.bits ++ rest :=
  ⟨readVar_ok, fun h => by rw [h.2, readVar_bits h.1]⟩

theorem readChain_iff {k : Nat} {last : Byte} {bits rest : List Bool} :
    readChain 0 bits = .ok (k, last, rest) ↔
      last ≠ 0xFF ∧ bits = List.replicate (8 * k) true ++ (fieldBits last ++ rest) := by
  constructor
  · intro h
    obtain ⟨z, hz, hl, hb⟩ := readChain_ok h
    rw [Nat.zero_add] at hz
    subst hz
    exact ⟨hl, hb⟩
  · rintro ⟨hl, rfl⟩
    rw [readChain_bits 0 k hl, Nat.zero_add]

end Sys2Proof
end

