-- ==== Sys2Proof/Laws/Memory.lean ====
section
/-! SUPPORT. The laws of an address space: a read after a write gives the value written, a write leaves every other
element alone, and every operation keeps the canonical form. -/

namespace Sys2Proof.Machine

variable {α : Type}

/-! ## Lists of cells -/

theorem lookupCell_eraseCell_same (i : Nat) (l : List (Nat × α)) : lookupCell i (eraseCell i l) = none := by
  induction l with
  | nil => rfl
  | cons e l ih =>
    by_cases h : e.1 = i
    · simpa [eraseCell, List.filter_cons, h] using ih
    · simp only [eraseCell, List.filter_cons, h, ne_eq, not_false_eq_true, decide_true, if_true]
      obtain ⟨j, w⟩ := e
      have : ¬ i = j := fun hij => h hij.symm
      simpa [lookupCell, this, eraseCell] using ih

theorem lookupCell_eraseCell_other {i k : Nat} (h : k ≠ i) (l : List (Nat × α)) :
    lookupCell k (eraseCell i l) = lookupCell k l := by
  induction l with
  | nil => rfl
  | cons e l ih =>
    obtain ⟨j, w⟩ := e
    by_cases hj : j = i
    · subst hj
      simpa [eraseCell, List.filter_cons, lookupCell, h] using ih
    · by_cases hk : k = j
      · simp [eraseCell, hj, lookupCell, hk]
      · simpa [eraseCell, List.filter_cons, hj, lookupCell, hk] using ih

theorem lookupCell_insertCell_same {i : Nat} (v : α) {l : List (Nat × α)} (h : lookupCell i l = none) :
    lookupCell i (insertCell i v l) = some v := by
  induction l with
  | nil => simp [insertCell, lookupCell]
  | cons e l ih =>
    obtain ⟨j, w⟩ := e
    simp only [insertCell]
    split
    · simp [lookupCell]
    · by_cases hij : i = j
      · simp [lookupCell, hij] at h
      · simp only [lookupCell, hij, if_false] at h ⊢
        exact ih h

theorem lookupCell_insertCell_other {i k : Nat} (h : k ≠ i) (v : α) (l : List (Nat × α)) :
    lookupCell k (insertCell i v l) = lookupCell k l := by
  induction l with
  | nil => simp [insertCell, lookupCell, h]
  | cons e l ih =>
    obtain ⟨j, w⟩ := e
    simp only [insertCell]
    split
    · simp [lookupCell, h]
    · by_cases hk : k = j
      · simp [lookupCell, hk]
      · simpa [lookupCell, hk] using ih

theorem mem_insertCell {i : Nat} {v : α} {l : List (Nat × α)} {e : Nat × α} (h : e ∈ insertCell i v l) :
    e = (i, v) ∨ e ∈ l := by
  induction l with
  | nil => simpa [insertCell] using h
  | cons x l ih =>
    simp only [insertCell] at h
    split at h
    · simpa using h
    · rcases List.mem_cons.1 h with h | h
      · exact .inr (by simp [h])
      · rcases ih h with h | h
        · exact .inl h
        · exact .inr (by simp [h])

/-! ## Reads after writes -/

section
variable [Inhabited α] [DecidableEq α]

@[simp] theorem write_stamp (m : Memory α) (i : Nat) (v : α) : (m.write i v).stamp = m.stamp := by
  unfold Memory.write; split <;> rfl

@[simp] theorem write_zeroTo (m : Memory α) (i : Nat) (v : α) : (m.write i v).zeroTo = m.zeroTo := by
  unfold Memory.write; split <;> rfl

@[simp] theorem get?_write_same (m : Memory α) (i : Nat) (v : α) : (m.write i v).get? i = some v := by
  unfold Memory.write
  split
  · rename_i h
    simp [Memory.get?, lookupCell_eraseCell_same, h.1, h.2]
  · simp [Memory.get?, lookupCell_insertCell_same v (lookupCell_eraseCell_same i m.cells)]

theorem get?_write_other (m : Memory α) {i k : Nat} (h : k ≠ i) (v : α) : (m.write i v).get? k = m.get? k := by
  unfold Memory.write
  split
  · simp [Memory.get?, lookupCell_eraseCell_other h]
  · simp [Memory.get?, lookupCell_insertCell_other h, lookupCell_eraseCell_other h]

@[simp] theorem read_write_same (free : Nat → Nat → α) (m : Memory α) (i : Nat) (v : α) :
    (m.write i v).read free i = v := by
  simp [Memory.read]

theorem read_write_other (free : Nat → Nat → α) (m : Memory α) {i k : Nat} (h : k ≠ i) (v : α) :
    (m.write i v).read free k = m.read free k := by
  simp [Memory.read, get?_write_other m h]

theorem read_write (free : Nat → Nat → α) (m : Memory α) (i k : Nat) (v : α) :
    (m.write i v).read free k = if k = i then v else m.read free k := by
  by_cases h : k = i
  · subst h; simp
  · simp [h, read_write_other free m h]

omit [DecidableEq α] in
theorem read_zeros (free : Nat → Nat → α) (stamp n : Nat) {i : Nat} (h : i < n) :
    (Memory.zeros stamp n : Memory α).read free i = default := by
  simp [Memory.read, Memory.get?, Memory.zeros, lookupCell, h]

omit [Inhabited α] [DecidableEq α] in
theorem lookupCell_filter_ge {n k : Nat} (h : n ≤ k) (l : List (Nat × α)) :
    lookupCell k (l.filter (fun e => decide (n ≤ e.1))) = lookupCell k l := by
  induction l with
  | nil => rfl
  | cons e l ih =>
    obtain ⟨j, w⟩ := e
    by_cases hk : k = j
    · subst hk; simp [lookupCell, h]
    · by_cases hj : n ≤ j
      · simpa [List.filter_cons, hj, lookupCell, hk] using ih
      · simpa [List.filter_cons, hj, lookupCell, hk] using ih

omit [Inhabited α] [DecidableEq α] in
theorem lookupCell_filter_lt {n k : Nat} (h : k < n) (l : List (Nat × α)) :
    lookupCell k (l.filter (fun e => decide (n ≤ e.1))) = none := by
  induction l with
  | nil => rfl
  | cons e l ih =>
    obtain ⟨j, w⟩ := e
    by_cases hj : n ≤ j
    · have : k ≠ j := by omega
      simpa [List.filter_cons, hj, lookupCell, this] using ih
    · simpa [List.filter_cons, hj] using ih

omit [DecidableEq α] in
/-- Clearing sets the elements below n to zero and keeps the others. -/
theorem read_clearTo (free : Nat → Nat → α) (m : Memory α) (n k : Nat) :
    (m.clearTo n).read free k = if k < n then default else m.read free k := by
  unfold Memory.clearTo
  by_cases hk : k < n
  · split
    · have : k < m.zeroTo := by omega
      simp [Memory.read, Memory.get?, lookupCell_filter_lt hk, this]
    · simp [Memory.read, Memory.get?, lookupCell_filter_lt hk, hk]
  · have hk' : n ≤ k := by omega
    split
    · simp [Memory.read, Memory.get?, lookupCell_filter_ge hk']
    · have : ¬ k < m.zeroTo := by omega
      simp [Memory.read, Memory.get?, lookupCell_filter_ge hk', hk, this]

/-! ## The canonical form -/

theorem wf_iff (m : Memory α) :
    m.wf = true ↔ m.cells.Pairwise (fun a b => a.1 < b.1) ∧
      ∀ e ∈ m.cells, ¬ (e.1 < m.zeroTo ∧ e.2 = default) := by
  simp [Memory.wf, List.all_eq_true, imp_iff_not_or]

omit [Inhabited α] [DecidableEq α] in
theorem pairwise_insertCell {i : Nat} (v : α) {l : List (Nat × α)} (hl : l.Pairwise (fun a b => a.1 < b.1))
    (hi : ∀ e ∈ l, e.1 ≠ i) : (insertCell i v l).Pairwise (fun a b => a.1 < b.1) := by
  induction l with
  | nil => simp [insertCell]
  | cons x l ih =>
    obtain ⟨j, w⟩ := x
    rw [List.pairwise_cons] at hl
    have hji : j ≠ i := hi (j, w) (by simp)
    simp only [insertCell]
    split
    · rename_i h
      rw [List.pairwise_cons, List.pairwise_cons]
      refine ⟨fun e he => ?_, hl.1, hl.2⟩
      rcases List.mem_cons.1 he with he | he
      · subst he; exact h
      · have := hl.1 e he; simp only at this ⊢; omega
    · rw [List.pairwise_cons]
      refine ⟨fun e he => ?_, ih hl.2 (fun e he => hi e (by simp [he]))⟩
      rcases mem_insertCell he with he | he
      · subst he; simp only; omega
      · exact hl.1 e he

theorem wf_write {m : Memory α} (h : m.wf = true) (i : Nat) (v : α) : (m.write i v).wf = true := by
  rw [wf_iff] at h ⊢
  have herase : (eraseCell i m.cells).Pairwise (fun a b => a.1 < b.1) := h.1.filter _
  have hmem : ∀ e ∈ eraseCell i m.cells, e ∈ m.cells ∧ e.1 ≠ i := by
    intro e he; simpa [eraseCell] using he
  unfold Memory.write
  split
  · exact ⟨herase, fun e he => h.2 e (hmem e he).1⟩
  · rename_i hv
    refine ⟨pairwise_insertCell v herase (fun e he => (hmem e he).2), fun e he => ?_⟩
    rcases mem_insertCell he with he | he
    · subst he; exact hv
    · exact h.2 e (hmem e he).1

theorem wf_clearTo {m : Memory α} (h : m.wf = true) (n : Nat) : (m.clearTo n).wf = true := by
  rw [wf_iff] at h ⊢
  unfold Memory.clearTo
  split
  · refine ⟨h.1.filter _, fun e he => h.2 e (List.mem_filter.1 he).1⟩
  · refine ⟨h.1.filter _, fun e he => ?_⟩
    have := (List.mem_filter.1 he).2
    simp only [decide_eq_true_eq] at this
    simp only; omega

@[simp] theorem wf_unknown (stamp : Nat) : (Memory.unknown stamp : Memory α).wf = true := by
  simp [Memory.wf, Memory.unknown]

@[simp] theorem wf_zeros (stamp n : Nat) : (Memory.zeros stamp n : Memory α).wf = true := by
  simp [Memory.wf, Memory.zeros]

end

theorem wf_setAttrRun {m : Memory TileAttr} (h : m.wf = true) (a : Attr) (t n : Nat) :
    (setAttrRun m a t n).wf = true := by
  induction n generalizing m t with
  | zero => exact h
  | succ n ih => exact ih (wf_write h _ _) _

/-- A run of attribute sets touches exactly the tiles of the run. -/
theorem read_setAttrRun (m : Memory TileAttr) (a : Attr) (t n k : Nat) :
    (setAttrRun m a t n).read freeAttr k =
      if t ≤ k ∧ k < t + n then (m.read freeAttr k).set a else m.read freeAttr k := by
  induction n generalizing m t with
  | zero => simp [setAttrRun]
  | succ n ih =>
    rw [setAttrRun, ih, read_write]
    by_cases hk : k = t
    · subst hk; simp
    · have : (t + 1 ≤ k ∧ k < t + 1 + n) ↔ (t ≤ k ∧ k < t + (n + 1)) := by omega
      simp only [hk, if_false, this]

end Sys2Proof.Machine
end

