-- ==== Sys2Proof/Laws/State.lean ====
section
/-! SUPPORT. One lemma per field per named update of the state, each true by definition, so that no proof unfolds a
record update. -/

namespace Sys2Proof.Machine

/-! ## advance, align -/

@[simp] theorem advance_cfg (s : State) (n : Nat) : (s.advance n).cfg = s.cfg := rfl
@[simp] theorem advance_win (s : State) (n : Nat) : (s.advance n).win = s.win := rfl
@[simp] theorem advance_jobCodec (s : State) (n : Nat) : (s.advance n).jobCodec = s.jobCodec := rfl
@[simp] theorem advance_p (s : State) (n : Nat) : (s.advance n).p = s.p + n := rfl
@[simp] theorem advance_ve (s : State) (n : Nat) : (s.advance n).ve = s.ve := rfl
@[simp] theorem advance_varVal (s : State) (n : Nat) : (s.advance n).varVal = s.varVal := rfl
@[simp] theorem advance_lz (s : State) (n : Nat) : (s.advance n).lz = s.lz := rfl
@[simp] theorem advance_bt (s : State) (n : Nat) : (s.advance n).bt = s.bt := rfl
@[simp] theorem advance_tm (s : State) (n : Nat) : (s.advance n).tm = s.tm := rfl
@[simp] theorem advance_hm (s : State) (n : Nat) : (s.advance n).hm = s.hm := rfl
@[simp] theorem advance_sp (s : State) (n : Nat) : (s.advance n).sp = s.sp := rfl
@[simp] theorem advance_mem (s : State) (n : Nat) : (s.advance n).mem = s.mem := rfl
@[simp] theorem advance_phase (s : State) (n : Nat) : (s.advance n).phase = s.phase := rfl
@[simp] theorem advance_stamp (s : State) (n : Nat) : (s.advance n).stamp = s.stamp := rfl
@[simp] theorem advance_sched (s : State) (n : Nat) : (s.advance n).sched = s.sched := rfl
@[simp] theorem align_cfg (s : State) : (s.align).cfg = s.cfg := rfl
@[simp] theorem align_win (s : State) : (s.align).win = s.win := rfl
@[simp] theorem align_jobCodec (s : State) : (s.align).jobCodec = s.jobCodec := rfl
@[simp] theorem align_p (s : State) : (s.align).p = alignedPos s.cfg s.p := rfl
@[simp] theorem align_ve (s : State) : (s.align).ve = s.ve := rfl
@[simp] theorem align_varVal (s : State) : (s.align).varVal = s.varVal := rfl
@[simp] theorem align_lz (s : State) : (s.align).lz = s.lz := rfl
@[simp] theorem align_bt (s : State) : (s.align).bt = s.bt := rfl
@[simp] theorem align_tm (s : State) : (s.align).tm = s.tm := rfl
@[simp] theorem align_hm (s : State) : (s.align).hm = s.hm := rfl
@[simp] theorem align_sp (s : State) : (s.align).sp = s.sp := rfl
@[simp] theorem align_mem (s : State) : (s.align).mem = s.mem := rfl
@[simp] theorem align_phase (s : State) : (s.align).phase = s.phase := rfl
@[simp] theorem align_stamp (s : State) : (s.align).stamp = s.stamp := rfl
@[simp] theorem align_sched (s : State) : (s.align).sched = s.sched := rfl
@[simp] theorem tooManyZeros_cfg (s : State) : (s.tooManyZeros).cfg = s.cfg := rfl
@[simp] theorem tooManyZeros_win (s : State) : (s.tooManyZeros).win = s.win := rfl
@[simp] theorem tooManyZeros_jobCodec (s : State) : (s.tooManyZeros).jobCodec = s.jobCodec := rfl
@[simp] theorem tooManyZeros_p (s : State) : (s.tooManyZeros).p = s.p + (s.cfg.varintMaxExp + 1) := rfl
@[simp] theorem tooManyZeros_ve (s : State) : (s.tooManyZeros).ve = s.cfg.varintMaxExp + 1 := rfl
@[simp] theorem tooManyZeros_varVal (s : State) : (s.tooManyZeros).varVal = s.varVal := rfl
@[simp] theorem tooManyZeros_lz (s : State) : (s.tooManyZeros).lz = s.lz := rfl
@[simp] theorem tooManyZeros_bt (s : State) : (s.tooManyZeros).bt = s.bt := rfl
@[simp] theorem tooManyZeros_tm (s : State) : (s.tooManyZeros).tm = s.tm := rfl
@[simp] theorem tooManyZeros_hm (s : State) : (s.tooManyZeros).hm = s.hm := rfl
@[simp] theorem tooManyZeros_sp (s : State) : (s.tooManyZeros).sp = s.sp := rfl
@[simp] theorem tooManyZeros_mem (s : State) : (s.tooManyZeros).mem = s.mem := rfl
@[simp] theorem tooManyZeros_phase (s : State) : (s.tooManyZeros).phase = s.phase := rfl
@[simp] theorem tooManyZeros_stamp (s : State) : (s.tooManyZeros).stamp = s.stamp := rfl
@[simp] theorem tooManyZeros_sched (s : State) : (s.tooManyZeros).sched = s.sched := rfl

/-! ## LZD -/

@[simp] theorem shiftCtl_cfg (s : State) : (s.shiftCtl.2).cfg = s.cfg := rfl
@[simp] theorem shiftCtl_win (s : State) : (s.shiftCtl.2).win = s.win := rfl
@[simp] theorem shiftCtl_jobCodec (s : State) : (s.shiftCtl.2).jobCodec = s.jobCodec := rfl
@[simp] theorem shiftCtl_p (s : State) : (s.shiftCtl.2).p = s.p := rfl
@[simp] theorem shiftCtl_ve (s : State) : (s.shiftCtl.2).ve = s.ve := rfl
@[simp] theorem shiftCtl_varVal (s : State) : (s.shiftCtl.2).varVal = s.varVal := rfl
@[simp] theorem shiftCtl_lz (s : State) : (s.shiftCtl.2).lz = { s.lz with ctl := s.lz.ctl <<< 1, nctl := s.lz.nctl - 1 } := rfl
@[simp] theorem shiftCtl_bt (s : State) : (s.shiftCtl.2).bt = s.bt := rfl
@[simp] theorem shiftCtl_tm (s : State) : (s.shiftCtl.2).tm = s.tm := rfl
@[simp] theorem shiftCtl_hm (s : State) : (s.shiftCtl.2).hm = s.hm := rfl
@[simp] theorem shiftCtl_sp (s : State) : (s.shiftCtl.2).sp = s.sp := rfl
@[simp] theorem shiftCtl_mem (s : State) : (s.shiftCtl.2).mem = s.mem := rfl
@[simp] theorem shiftCtl_phase (s : State) : (s.shiftCtl.2).phase = s.phase := rfl
@[simp] theorem shiftCtl_stamp (s : State) : (s.shiftCtl.2).stamp = s.stamp := rfl
@[simp] theorem shiftCtl_sched (s : State) : (s.shiftCtl.2).sched = s.sched := rfl
@[simp] theorem beginLz_cfg (s : State) (q0 o0 base : Nat) (nested : Bool) : (s.beginLz q0 o0 base nested).cfg = s.cfg := rfl
@[simp] theorem beginLz_win (s : State) (q0 o0 base : Nat) (nested : Bool) : (s.beginLz q0 o0 base nested).win = s.win := rfl
@[simp] theorem beginLz_jobCodec (s : State) (q0 o0 base : Nat) (nested : Bool) : (s.beginLz q0 o0 base nested).jobCodec = s.jobCodec := rfl
@[simp] theorem beginLz_p (s : State) (q0 o0 base : Nat) (nested : Bool) : (s.beginLz q0 o0 base nested).p = 8 * q0 := rfl
@[simp] theorem beginLz_ve (s : State) (q0 o0 base : Nat) (nested : Bool) : (s.beginLz q0 o0 base nested).ve = s.ve := rfl
@[simp] theorem beginLz_varVal (s : State) (q0 o0 base : Nat) (nested : Bool) : (s.beginLz q0 o0 base nested).varVal = s.varVal := rfl
@[simp] theorem beginLz_lz (s : State) (q0 o0 base : Nat) (nested : Bool) : (s.beginLz q0 o0 base nested).lz = { s.lz with nctl := 0, out := o0, base := base, bit := none } := rfl
@[simp] theorem beginLz_bt (s : State) (q0 o0 base : Nat) (nested : Bool) : (s.beginLz q0 o0 base nested).bt = s.bt := rfl
@[simp] theorem beginLz_tm (s : State) (q0 o0 base : Nat) (nested : Bool) : (s.beginLz q0 o0 base nested).tm = s.tm := rfl
@[simp] theorem beginLz_hm (s : State) (q0 o0 base : Nat) (nested : Bool) : (s.beginLz q0 o0 base nested).hm = s.hm := rfl
@[simp] theorem beginLz_sp (s : State) (q0 o0 base : Nat) (nested : Bool) : (s.beginLz q0 o0 base nested).sp = s.sp := rfl
@[simp] theorem beginLz_mem (s : State) (q0 o0 base : Nat) (nested : Bool) : (s.beginLz q0 o0 base nested).mem = s.mem := rfl
@[simp] theorem beginLz_phase (s : State) (q0 o0 base : Nat) (nested : Bool) : (s.beginLz q0 o0 base nested).phase = .lz nested := rfl
@[simp] theorem beginLz_stamp (s : State) (q0 o0 base : Nat) (nested : Bool) : (s.beginLz q0 o0 base nested).stamp = s.stamp := rfl
@[simp] theorem beginLz_sched (s : State) (q0 o0 base : Nat) (nested : Bool) : (s.beginLz q0 o0 base nested).sched = s.sched := rfl
@[simp] theorem takeCtl_cfg (s : State) : s.takeCtl.cfg = s.cfg := by
  unfold State.takeCtl; split <;> rfl
@[simp] theorem takeCtl_win (s : State) : s.takeCtl.win = s.win := by
  unfold State.takeCtl; split <;> rfl
@[simp] theorem takeCtl_jobCodec (s : State) : s.takeCtl.jobCodec = s.jobCodec := by
  unfold State.takeCtl; split <;> rfl
@[simp] theorem takeCtl_p (s : State) : s.takeCtl.p = s.p := by
  unfold State.takeCtl; split <;> rfl
@[simp] theorem takeCtl_ve (s : State) : s.takeCtl.ve = s.ve := by
  unfold State.takeCtl; split <;> rfl
@[simp] theorem takeCtl_varVal (s : State) : s.takeCtl.varVal = s.varVal := by
  unfold State.takeCtl; split <;> rfl
@[simp] theorem takeCtl_bt (s : State) : s.takeCtl.bt = s.bt := by
  unfold State.takeCtl; split <;> rfl
@[simp] theorem takeCtl_tm (s : State) : s.takeCtl.tm = s.tm := by
  unfold State.takeCtl; split <;> rfl
@[simp] theorem takeCtl_hm (s : State) : s.takeCtl.hm = s.hm := by
  unfold State.takeCtl; split <;> rfl
@[simp] theorem takeCtl_sp (s : State) : s.takeCtl.sp = s.sp := by
  unfold State.takeCtl; split <;> rfl
@[simp] theorem takeCtl_mem (s : State) : s.takeCtl.mem = s.mem := by
  unfold State.takeCtl; split <;> rfl
@[simp] theorem takeCtl_phase (s : State) : s.takeCtl.phase = s.phase := by
  unfold State.takeCtl; split <;> rfl
@[simp] theorem takeCtl_stamp (s : State) : s.takeCtl.stamp = s.stamp := by
  unfold State.takeCtl; split <;> rfl
@[simp] theorem takeCtl_sched (s : State) : s.takeCtl.sched = s.sched := by
  unfold State.takeCtl; split <;> rfl
@[simp] theorem takeCtl_lz_out (s : State) : s.takeCtl.lz.out = s.lz.out := by
  unfold State.takeCtl; split <;> rfl
@[simp] theorem takeCtl_lz_base (s : State) : s.takeCtl.lz.base = s.lz.base := by
  unfold State.takeCtl; split <;> rfl

/-! ## BTD -/

@[simp] theorem setTileIndex_cfg (s : State) (i : Nat) (v : Half) : (s.setTileIndex i v).cfg = s.cfg := rfl
@[simp] theorem setTileIndex_win (s : State) (i : Nat) (v : Half) : (s.setTileIndex i v).win = s.win := rfl
@[simp] theorem setTileIndex_jobCodec (s : State) (i : Nat) (v : Half) : (s.setTileIndex i v).jobCodec = s.jobCodec := rfl
@[simp] theorem setTileIndex_p (s : State) (i : Nat) (v : Half) : (s.setTileIndex i v).p = s.p := rfl
@[simp] theorem setTileIndex_ve (s : State) (i : Nat) (v : Half) : (s.setTileIndex i v).ve = s.ve := rfl
@[simp] theorem setTileIndex_varVal (s : State) (i : Nat) (v : Half) : (s.setTileIndex i v).varVal = s.varVal := rfl
@[simp] theorem setTileIndex_lz (s : State) (i : Nat) (v : Half) : (s.setTileIndex i v).lz = s.lz := rfl
@[simp] theorem setTileIndex_bt (s : State) (i : Nat) (v : Half) : (s.setTileIndex i v).bt = s.bt := rfl
@[simp] theorem setTileIndex_tm (s : State) (i : Nat) (v : Half) : (s.setTileIndex i v).tm = s.tm := rfl
@[simp] theorem setTileIndex_hm (s : State) (i : Nat) (v : Half) : (s.setTileIndex i v).hm = s.hm := rfl
@[simp] theorem setTileIndex_sp (s : State) (i : Nat) (v : Half) : (s.setTileIndex i v).sp = s.sp := rfl
@[simp] theorem setTileIndex_mem (s : State) (i : Nat) (v : Half) : (s.setTileIndex i v).mem = { s.mem with tileIdx := s.mem.tileIdx.write i v } := rfl
@[simp] theorem setTileIndex_phase (s : State) (i : Nat) (v : Half) : (s.setTileIndex i v).phase = s.phase := rfl
@[simp] theorem setTileIndex_stamp (s : State) (i : Nat) (v : Half) : (s.setTileIndex i v).stamp = s.stamp := rfl
@[simp] theorem setTileIndex_sched (s : State) (i : Nat) (v : Half) : (s.setTileIndex i v).sched = s.sched := rfl
@[simp] theorem beginMask_cfg (s : State) (a : Attr) : (s.beginMask a).cfg = s.cfg := rfl
@[simp] theorem beginMask_win (s : State) (a : Attr) : (s.beginMask a).win = s.win := rfl
@[simp] theorem beginMask_jobCodec (s : State) (a : Attr) : (s.beginMask a).jobCodec = s.jobCodec := rfl
@[simp] theorem beginMask_p (s : State) (a : Attr) : (s.beginMask a).p = s.p := rfl
@[simp] theorem beginMask_ve (s : State) (a : Attr) : (s.beginMask a).ve = s.ve := rfl
@[simp] theorem beginMask_varVal (s : State) (a : Attr) : (s.beginMask a).varVal = s.varVal := rfl
@[simp] theorem beginMask_lz (s : State) (a : Attr) : (s.beginMask a).lz = s.lz := rfl
@[simp] theorem beginMask_bt (s : State) (a : Attr) : (s.beginMask a).bt = { s.bt with attr := a, pos := 0, first := true } := rfl
@[simp] theorem beginMask_tm (s : State) (a : Attr) : (s.beginMask a).tm = s.tm := rfl
@[simp] theorem beginMask_hm (s : State) (a : Attr) : (s.beginMask a).hm = s.hm := rfl
@[simp] theorem beginMask_sp (s : State) (a : Attr) : (s.beginMask a).sp = s.sp := rfl
@[simp] theorem beginMask_mem (s : State) (a : Attr) : (s.beginMask a).mem = s.mem := rfl
@[simp] theorem beginMask_phase (s : State) (a : Attr) : (s.beginMask a).phase = .btSkip := rfl
@[simp] theorem beginMask_stamp (s : State) (a : Attr) : (s.beginMask a).stamp = s.stamp := rfl
@[simp] theorem beginMask_sched (s : State) (a : Attr) : (s.beginMask a).sched = s.sched := rfl
@[simp] theorem pushFront_n (b : BtRegs) (v : Half) : (b.pushFront v).n = b.n := rfl
@[simp] theorem pushFront_total (b : BtRegs) (v : Half) : (b.pushFront v).total = b.total := rfl
@[simp] theorem pushFront_attr (b : BtRegs) (v : Half) : (b.pushFront v).attr = b.attr := rfl
@[simp] theorem pushFront_pos (b : BtRegs) (v : Half) : (b.pushFront v).pos = b.pos := rfl
@[simp] theorem pushFront_first (b : BtRegs) (v : Half) : (b.pushFront v).first = b.first := rfl
@[simp] theorem pushFront_k (b : BtRegs) (v : Half) : (b.pushFront v).k = b.k := rfl
@[simp] theorem moveToFront_n (b : BtRegs) (i : BitVec 4) : (b.moveToFront i).n = b.n := rfl
@[simp] theorem moveToFront_total (b : BtRegs) (i : BitVec 4) : (b.moveToFront i).total = b.total := rfl
@[simp] theorem moveToFront_attr (b : BtRegs) (i : BitVec 4) : (b.moveToFront i).attr = b.attr := rfl
@[simp] theorem moveToFront_pos (b : BtRegs) (i : BitVec 4) : (b.moveToFront i).pos = b.pos := rfl
@[simp] theorem moveToFront_first (b : BtRegs) (i : BitVec 4) : (b.moveToFront i).first = b.first := rfl
@[simp] theorem moveToFront_k (b : BtRegs) (i : BitVec 4) : (b.moveToFront i).k = b.k := rfl
@[simp] theorem moveToFront_occ (b : BtRegs) (i : BitVec 4) : (b.moveToFront i).occ = b.occ := rfl
@[simp] theorem pushFront_occ (b : BtRegs) (v : Half) : (b.pushFront v).occ = min (b.occ + 1) 16 := rfl

/-! ## TMD -/

@[simp] theorem setMode_cfg (s : State) : (s.setMode).cfg = s.cfg := rfl
@[simp] theorem setMode_win (s : State) : (s.setMode).win = s.win := rfl
@[simp] theorem setMode_jobCodec (s : State) : (s.setMode).jobCodec = s.jobCodec := rfl
@[simp] theorem setMode_p (s : State) : (s.setMode).p = s.p := rfl
@[simp] theorem setMode_ve (s : State) : (s.setMode).ve = s.ve := rfl
@[simp] theorem setMode_varVal (s : State) : (s.setMode).varVal = s.varVal := rfl
@[simp] theorem setMode_lz (s : State) : (s.setMode).lz = s.lz := rfl
@[simp] theorem setMode_bt (s : State) : (s.setMode).bt = s.bt := rfl
@[simp] theorem setMode_tm (s : State) : (s.setMode).tm = { s.tm with mode := s.cellMode } := rfl
@[simp] theorem setMode_hm (s : State) : (s.setMode).hm = s.hm := rfl
@[simp] theorem setMode_sp (s : State) : (s.setMode).sp = s.sp := rfl
@[simp] theorem setMode_mem (s : State) : (s.setMode).mem = s.mem := rfl
@[simp] theorem setMode_phase (s : State) : (s.setMode).phase = s.phase := rfl
@[simp] theorem setMode_stamp (s : State) : (s.setMode).stamp = s.stamp := rfl
@[simp] theorem setMode_sched (s : State) : (s.setMode).sched = s.sched := rfl
@[simp] theorem setB0_cfg (s : State) (v : BitVec 10) : (s.setB0 v).cfg = s.cfg := by
  unfold State.setB0; split <;> rfl
@[simp] theorem setB0_win (s : State) (v : BitVec 10) : (s.setB0 v).win = s.win := by
  unfold State.setB0; split <;> rfl
@[simp] theorem setB0_jobCodec (s : State) (v : BitVec 10) : (s.setB0 v).jobCodec = s.jobCodec := by
  unfold State.setB0; split <;> rfl
@[simp] theorem setB0_p (s : State) (v : BitVec 10) : (s.setB0 v).p = s.p := by
  unfold State.setB0; split <;> rfl
@[simp] theorem setB0_ve (s : State) (v : BitVec 10) : (s.setB0 v).ve = s.ve := by
  unfold State.setB0; split <;> rfl
@[simp] theorem setB0_varVal (s : State) (v : BitVec 10) : (s.setB0 v).varVal = s.varVal := by
  unfold State.setB0; split <;> rfl
@[simp] theorem setB0_lz (s : State) (v : BitVec 10) : (s.setB0 v).lz = s.lz := by
  unfold State.setB0; split <;> rfl
@[simp] theorem setB0_bt (s : State) (v : BitVec 10) : (s.setB0 v).bt = s.bt := by
  unfold State.setB0; split <;> rfl
@[simp] theorem setB0_hm (s : State) (v : BitVec 10) : (s.setB0 v).hm = s.hm := by
  unfold State.setB0; split <;> rfl
@[simp] theorem setB0_sp (s : State) (v : BitVec 10) : (s.setB0 v).sp = s.sp := by
  unfold State.setB0; split <;> rfl
@[simp] theorem setB0_mem (s : State) (v : BitVec 10) : (s.setB0 v).mem = s.mem := by
  unfold State.setB0; split <;> rfl
@[simp] theorem setB0_phase (s : State) (v : BitVec 10) : (s.setB0 v).phase = s.phase := by
  unfold State.setB0; split <;> rfl
@[simp] theorem setB0_stamp (s : State) (v : BitVec 10) : (s.setB0 v).stamp = s.stamp := by
  unfold State.setB0; split <;> rfl
@[simp] theorem setB0_sched (s : State) (v : BitVec 10) : (s.setB0 v).sched = s.sched := by
  unfold State.setB0; split <;> rfl
@[simp] theorem setB1_cfg (s : State) (v : BitVec 10) : (s.setB1 v).cfg = s.cfg := by
  unfold State.setB1; split <;> rfl
@[simp] theorem setB1_win (s : State) (v : BitVec 10) : (s.setB1 v).win = s.win := by
  unfold State.setB1; split <;> rfl
@[simp] theorem setB1_jobCodec (s : State) (v : BitVec 10) : (s.setB1 v).jobCodec = s.jobCodec := by
  unfold State.setB1; split <;> rfl
@[simp] theorem setB1_p (s : State) (v : BitVec 10) : (s.setB1 v).p = s.p := by
  unfold State.setB1; split <;> rfl
@[simp] theorem setB1_ve (s : State) (v : BitVec 10) : (s.setB1 v).ve = s.ve := by
  unfold State.setB1; split <;> rfl
@[simp] theorem setB1_varVal (s : State) (v : BitVec 10) : (s.setB1 v).varVal = s.varVal := by
  unfold State.setB1; split <;> rfl
@[simp] theorem setB1_lz (s : State) (v : BitVec 10) : (s.setB1 v).lz = s.lz := by
  unfold State.setB1; split <;> rfl
@[simp] theorem setB1_bt (s : State) (v : BitVec 10) : (s.setB1 v).bt = s.bt := by
  unfold State.setB1; split <;> rfl
@[simp] theorem setB1_hm (s : State) (v : BitVec 10) : (s.setB1 v).hm = s.hm := by
  unfold State.setB1; split <;> rfl
@[simp] theorem setB1_sp (s : State) (v : BitVec 10) : (s.setB1 v).sp = s.sp := by
  unfold State.setB1; split <;> rfl
@[simp] theorem setB1_mem (s : State) (v : BitVec 10) : (s.setB1 v).mem = s.mem := by
  unfold State.setB1; split <;> rfl
@[simp] theorem setB1_phase (s : State) (v : BitVec 10) : (s.setB1 v).phase = s.phase := by
  unfold State.setB1; split <;> rfl
@[simp] theorem setB1_stamp (s : State) (v : BitVec 10) : (s.setB1 v).stamp = s.stamp := by
  unfold State.setB1; split <;> rfl
@[simp] theorem setB1_sched (s : State) (v : BitVec 10) : (s.setB1 v).sched = s.sched := by
  unfold State.setB1; split <;> rfl
@[simp] theorem seedCounters_cfg (s : State) : (s.seedCounters).cfg = s.cfg := by
  unfold State.seedCounters; split <;> rfl
@[simp] theorem seedCounters_win (s : State) : (s.seedCounters).win = s.win := by
  unfold State.seedCounters; split <;> rfl
@[simp] theorem seedCounters_jobCodec (s : State) : (s.seedCounters).jobCodec = s.jobCodec := by
  unfold State.seedCounters; split <;> rfl
@[simp] theorem seedCounters_p (s : State) : (s.seedCounters).p = s.p := by
  unfold State.seedCounters; split <;> rfl
@[simp] theorem seedCounters_ve (s : State) : (s.seedCounters).ve = s.ve := by
  unfold State.seedCounters; split <;> rfl
@[simp] theorem seedCounters_varVal (s : State) : (s.seedCounters).varVal = s.varVal := by
  unfold State.seedCounters; split <;> rfl
@[simp] theorem seedCounters_lz (s : State) : (s.seedCounters).lz = s.lz := by
  unfold State.seedCounters; split <;> rfl
@[simp] theorem seedCounters_bt (s : State) : (s.seedCounters).bt = s.bt := by
  unfold State.seedCounters; split <;> rfl
@[simp] theorem seedCounters_hm (s : State) : (s.seedCounters).hm = s.hm := by
  unfold State.seedCounters; split <;> rfl
@[simp] theorem seedCounters_sp (s : State) : (s.seedCounters).sp = s.sp := by
  unfold State.seedCounters; split <;> rfl
@[simp] theorem seedCounters_mem (s : State) : (s.seedCounters).mem = s.mem := by
  unfold State.seedCounters; split <;> rfl
@[simp] theorem seedCounters_phase (s : State) : (s.seedCounters).phase = s.phase := by
  unfold State.seedCounters; split <;> rfl
@[simp] theorem seedCounters_stamp (s : State) : (s.seedCounters).stamp = s.stamp := by
  unfold State.seedCounters; split <;> rfl
@[simp] theorem seedCounters_sched (s : State) : (s.seedCounters).sched = s.sched := by
  unfold State.seedCounters; split <;> rfl
@[simp] theorem passBit_cfg (s : State) (consumed : Bool) : (s.passBit consumed).cfg = s.cfg := rfl
@[simp] theorem passBit_win (s : State) (consumed : Bool) : (s.passBit consumed).win = s.win := rfl
@[simp] theorem passBit_jobCodec (s : State) (consumed : Bool) : (s.passBit consumed).jobCodec = s.jobCodec := rfl
@[simp] theorem passBit_p (s : State) (consumed : Bool) : (s.passBit consumed).p = s.p + consumed.toNat := rfl
@[simp] theorem passBit_ve (s : State) (consumed : Bool) : (s.passBit consumed).ve = s.ve := rfl
@[simp] theorem passBit_varVal (s : State) (consumed : Bool) : (s.passBit consumed).varVal = s.varVal := rfl
@[simp] theorem passBit_lz (s : State) (consumed : Bool) : (s.passBit consumed).lz = s.lz := rfl
@[simp] theorem passBit_bt (s : State) (consumed : Bool) : (s.passBit consumed).bt = s.bt := rfl
@[simp] theorem passBit_tm (s : State) (consumed : Bool) : (s.passBit consumed).tm = s.tm := rfl
@[simp] theorem passBit_hm (s : State) (consumed : Bool) : (s.passBit consumed).hm = s.hm := rfl
@[simp] theorem passBit_sp (s : State) (consumed : Bool) : (s.passBit consumed).sp = s.sp := rfl
@[simp] theorem passBit_mem (s : State) (consumed : Bool) : (s.passBit consumed).mem = s.mem := rfl
@[simp] theorem passBit_phase (s : State) (consumed : Bool) : (s.passBit consumed).phase = s.phase := rfl
@[simp] theorem passBit_stamp (s : State) (consumed : Bool) : (s.passBit consumed).stamp = s.stamp := rfl
@[simp] theorem passBit_sched (s : State) (consumed : Bool) : (s.passBit consumed).sched = s.sched := rfl
@[simp] theorem endRun_cfg (s : State) : (s.endRun).cfg = s.cfg := rfl
@[simp] theorem endRun_win (s : State) : (s.endRun).win = s.win := rfl
@[simp] theorem endRun_jobCodec (s : State) : (s.endRun).jobCodec = s.jobCodec := rfl
@[simp] theorem endRun_p (s : State) : (s.endRun).p = s.p := rfl
@[simp] theorem endRun_ve (s : State) : (s.endRun).ve = s.ve := rfl
@[simp] theorem endRun_varVal (s : State) : (s.endRun).varVal = s.varVal := rfl
@[simp] theorem endRun_lz (s : State) : (s.endRun).lz = s.lz := rfl
@[simp] theorem endRun_bt (s : State) : (s.endRun).bt = s.bt := rfl
@[simp] theorem endRun_tm (s : State) : (s.endRun).tm = { s.tm with sel := !s.tm.sel } := rfl
@[simp] theorem endRun_hm (s : State) : (s.endRun).hm = s.hm := rfl
@[simp] theorem endRun_sp (s : State) : (s.endRun).sp = s.sp := rfl
@[simp] theorem endRun_mem (s : State) : (s.endRun).mem = s.mem := rfl
@[simp] theorem endRun_phase (s : State) : (s.endRun).phase = .tmPropA := rfl
@[simp] theorem endRun_stamp (s : State) : (s.endRun).stamp = s.stamp := rfl
@[simp] theorem endRun_sched (s : State) : (s.endRun).sched = s.sched := rfl

/-! ## Fault entry, end of job, START, reset -/

@[simp] theorem raise_cfg (s : State) (f : Trap) : (s.raise f).cfg = s.cfg := rfl
@[simp] theorem raise_jobCodec (s : State) (f : Trap) : (s.raise f).jobCodec = s.jobCodec := rfl
@[simp] theorem raise_p (s : State) (f : Trap) : (s.raise f).p = s.p := rfl
@[simp] theorem raise_ve (s : State) (f : Trap) : (s.raise f).ve = s.ve := rfl
@[simp] theorem raise_varVal (s : State) (f : Trap) : (s.raise f).varVal = s.varVal := rfl
@[simp] theorem raise_lz (s : State) (f : Trap) : (s.raise f).lz = s.lz := rfl
@[simp] theorem raise_bt (s : State) (f : Trap) : (s.raise f).bt = s.bt := rfl
@[simp] theorem raise_tm (s : State) (f : Trap) : (s.raise f).tm = s.tm := rfl
@[simp] theorem raise_hm (s : State) (f : Trap) : (s.raise f).hm = s.hm := rfl
@[simp] theorem raise_sp (s : State) (f : Trap) : (s.raise f).sp = s.sp := rfl
@[simp] theorem raise_phase (s : State) (f : Trap) : (s.raise f).phase = .none := rfl
@[simp] theorem raise_stamp (s : State) (f : Trap) : (s.raise f).stamp = s.stamp + 1 := rfl
@[simp] theorem raise_sched (s : State) (f : Trap) : (s.raise f).sched = s.sched := rfl
@[simp] theorem raise_win_engine (s : State) (f : Trap) : (s.raise f).win.engine = .fault := rfl
@[simp] theorem raise_win_faultCode (s : State) (f : Trap) : (s.raise f).win.faultCode = f.kind.code := rfl
@[simp] theorem raise_win_faultPos (s : State) (f : Trap) : (s.raise f).win.faultPos = word32 f.pos tagFaultPos s.stamp := rfl
@[simp] theorem raise_win_codec (s : State) (f : Trap) : (s.raise f).win.codec = s.win.codec := rfl
@[simp] theorem raise_win_srcLen (s : State) (f : Trap) : (s.raise f).win.srcLen = s.win.srcLen := rfl
@[simp] theorem raise_win_outCap (s : State) (f : Trap) : (s.raise f).win.outCap = s.win.outCap := rfl
@[simp] theorem raise_mem_src (s : State) (f : Trap) : (s.raise f).mem.src = s.mem.src := rfl
@[simp] theorem finishJob_cfg (s : State) (count consumed aux : Nat) (geom aux2 : Word32) : (s.finishJob count consumed aux geom aux2).cfg = s.cfg := rfl
@[simp] theorem finishJob_jobCodec (s : State) (count consumed aux : Nat) (geom aux2 : Word32) : (s.finishJob count consumed aux geom aux2).jobCodec = s.jobCodec := rfl
@[simp] theorem finishJob_p (s : State) (count consumed aux : Nat) (geom aux2 : Word32) : (s.finishJob count consumed aux geom aux2).p = s.p := rfl
@[simp] theorem finishJob_ve (s : State) (count consumed aux : Nat) (geom aux2 : Word32) : (s.finishJob count consumed aux geom aux2).ve = s.ve := rfl
@[simp] theorem finishJob_varVal (s : State) (count consumed aux : Nat) (geom aux2 : Word32) : (s.finishJob count consumed aux geom aux2).varVal = s.varVal := rfl
@[simp] theorem finishJob_lz (s : State) (count consumed aux : Nat) (geom aux2 : Word32) : (s.finishJob count consumed aux geom aux2).lz = s.lz := rfl
@[simp] theorem finishJob_bt (s : State) (count consumed aux : Nat) (geom aux2 : Word32) : (s.finishJob count consumed aux geom aux2).bt = s.bt := rfl
@[simp] theorem finishJob_tm (s : State) (count consumed aux : Nat) (geom aux2 : Word32) : (s.finishJob count consumed aux geom aux2).tm = s.tm := rfl
@[simp] theorem finishJob_hm (s : State) (count consumed aux : Nat) (geom aux2 : Word32) : (s.finishJob count consumed aux geom aux2).hm = s.hm := rfl
@[simp] theorem finishJob_sp (s : State) (count consumed aux : Nat) (geom aux2 : Word32) : (s.finishJob count consumed aux geom aux2).sp = s.sp := rfl
@[simp] theorem finishJob_mem (s : State) (count consumed aux : Nat) (geom aux2 : Word32) : (s.finishJob count consumed aux geom aux2).mem = s.mem := rfl
@[simp] theorem finishJob_phase (s : State) (count consumed aux : Nat) (geom aux2 : Word32) : (s.finishJob count consumed aux geom aux2).phase = .none := rfl
@[simp] theorem finishJob_stamp (s : State) (count consumed aux : Nat) (geom aux2 : Word32) : (s.finishJob count consumed aux geom aux2).stamp = s.stamp + 1 := rfl
@[simp] theorem finishJob_sched (s : State) (count consumed aux : Nat) (geom aux2 : Word32) : (s.finishJob count consumed aux geom aux2).sched = s.sched := rfl
@[simp] theorem finishJob_win_engine (s : State) (count consumed aux : Nat) (geom aux2 : Word32) :
    (s.finishJob count consumed aux geom aux2).win.engine = .done := rfl
@[simp] theorem finishJob_win_faultCode (s : State) (count consumed aux : Nat) (geom aux2 : Word32) :
    (s.finishJob count consumed aux geom aux2).win.faultCode = s.win.faultCode := rfl
@[simp] theorem finishJob_win_faultPos (s : State) (count consumed aux : Nat) (geom aux2 : Word32) :
    (s.finishJob count consumed aux geom aux2).win.faultPos = s.win.faultPos := rfl
@[simp] theorem finishJob_win_codec (s : State) (count consumed aux : Nat) (geom aux2 : Word32) :
    (s.finishJob count consumed aux geom aux2).win.codec = s.win.codec := rfl
@[simp] theorem finishJob_win_srcLen (s : State) (count consumed aux : Nat) (geom aux2 : Word32) :
    (s.finishJob count consumed aux geom aux2).win.srcLen = s.win.srcLen := rfl
@[simp] theorem finishJob_win_outCap (s : State) (count consumed aux : Nat) (geom aux2 : Word32) :
    (s.finishJob count consumed aux geom aux2).win.outCap = s.win.outCap := rfl
@[simp] theorem finishJob_win_resultGeom (s : State) (count consumed aux : Nat) (geom aux2 : Word32) :
    (s.finishJob count consumed aux geom aux2).win.resultGeom = geom := rfl
@[simp] theorem finishJob_win_resultAux2 (s : State) (count consumed aux : Nat) (geom aux2 : Word32) :
    (s.finishJob count consumed aux geom aux2).win.resultAux2 = aux2 := rfl
@[simp] theorem startJob_cfg (s : State) : s.startJob.cfg = s.cfg := rfl
@[simp] theorem startJob_p (s : State) : s.startJob.p = 0 := rfl
@[simp] theorem startJob_ve (s : State) : s.startJob.ve = 0 := rfl
@[simp] theorem startJob_jobCodec (s : State) : s.startJob.jobCodec = s.win.codec := rfl
@[simp] theorem startJob_phase (s : State) : s.startJob.phase = firstPhase s.win.codec := rfl
@[simp] theorem startJob_stamp (s : State) : s.startJob.stamp = s.stamp + 1 := rfl
@[simp] theorem startJob_sched (s : State) : s.startJob.sched = s.sched := rfl
@[simp] theorem startJob_win_engine (s : State) : s.startJob.win.engine = .busy := rfl
@[simp] theorem startJob_win_faultCode (s : State) : s.startJob.win.faultCode = 0 := rfl
@[simp] theorem startJob_win_faultPos (s : State) : s.startJob.win.faultPos = 0 := rfl
@[simp] theorem startJob_win_codec (s : State) : s.startJob.win.codec = s.win.codec := rfl
@[simp] theorem startJob_win_srcLen (s : State) : s.startJob.win.srcLen = s.win.srcLen := rfl
@[simp] theorem startJob_win_outCap (s : State) : s.startJob.win.outCap = s.win.outCap := rfl
@[simp] theorem startJob_win_resultCount (s : State) : s.startJob.win.resultCount = 0 := rfl
@[simp] theorem startJob_win_resultConsumed (s : State) : s.startJob.win.resultConsumed = 0 := rfl
@[simp] theorem startJob_win_resultAux (s : State) : s.startJob.win.resultAux = 0 := rfl
@[simp] theorem startJob_win_resultGeom (s : State) : s.startJob.win.resultGeom = 0 := rfl
@[simp] theorem startJob_win_resultAux2 (s : State) : s.startJob.win.resultAux2 = 0 := rfl
@[simp] theorem startJob_mem_src (s : State) : s.startJob.mem.src = s.mem.src := rfl
@[simp] theorem blockReset_cfg (s : State) : s.blockReset.cfg = s.cfg := rfl
@[simp] theorem blockReset_win (s : State) : s.blockReset.win = State.reset.win := rfl
@[simp] theorem blockReset_phase (s : State) : s.blockReset.phase = .none := rfl
@[simp] theorem blockReset_stamp (s : State) : s.blockReset.stamp = s.stamp + 1 := rfl
@[simp] theorem blockReset_sched (s : State) : s.blockReset.sched = s.sched := rfl
@[simp] theorem blockReset_p (s : State) : s.blockReset.p = 0 := rfl

end Sys2Proof.Machine
end

