-- ==== Sys2Proof/Laws/Ops.lean ====
section
/-! SUPPORT. One lemma per shared operation, saying once everything it can do. -/

namespace Sys2Proof.Machine

/-! ## Answers -/

@[simp] theorem settle_ok (t : State) : settle (.ok t) = .next t := rfl
@[simp] theorem settle_error (f : Trap) (u : State) : settle (.error (f, u)) = .next (u.raise f) := rfl

theorem settle_next (r : Effect) : ∃ t, settle r = .next t := by
  cases r <;> exact ⟨_, rfl⟩

/-- A token that settles ends in its own next state or in fault entry from the state its rule reached. -/
theorem settle_cases {t : State} {r : Effect} (h : settle r = .next t) :
    r = .ok t ∨ ∃ f u, r = .error (f, u) ∧ t = u.raise f := by
  match r with
  | .ok u => exact .inl (by simpa using h)
  | .error (f, u) => exact .inr ⟨f, u, rfl, by simpa using h.symm⟩

/-- Fault entry forgets the output memories: what a rule had written by then does not show. -/
theorem raise_of_mem (s : State) (m : Spaces) (h : m.src = s.mem.src) (f : Trap) :
    { s with mem := m }.raise f = s.raise f := by
  simp only [State.raise, h]

/-! ## Results -/

theorem word32_of_lt {n : Nat} (h : n < 2 ^ 32) (tag stamp : Nat) : word32 n tag stamp = BitVec.ofNat 32 n := by
  unfold word32; rw [if_pos h]

theorem finishJob_of_lt (s : State) {count consumed aux : Nat} (geom aux2 : Word32) (h1 : count < 2 ^ 32)
    (h2 : consumed < 2 ^ 32) (h3 : aux < 2 ^ 32) :
    s.finishJob count consumed aux geom aux2 =
      { s with win := s.win.ended count consumed aux geom aux2, phase := .none, stamp := s.stamp + 1 } := by
  unfold State.finishJob
  rw [word32_of_lt h1, word32_of_lt h2, word32_of_lt h3]
  rfl

/-! ## Single writes -/

theorem outWrite_of_lt {s : State} {i : Nat} (h : i < s.win.outCap.toNat) (v : Byte) (pos : Nat) :
    s.outWrite i v pos = .ok { s with mem := { s.mem with out := s.mem.out.write i v } } := by
  unfold State.outWrite; rw [if_neg (by omega)]

theorem outWrite_of_le {s : State} {i : Nat} (h : s.win.outCap.toNat ≤ i) (v : Byte) (pos : Nat) :
    s.outWrite i v pos = .error (⟨.sizeMismatch, pos⟩, s) := by
  unfold State.outWrite; rw [if_pos h]

theorem tmWrite_of_lt {s : State} {i : Nat} (h : i < s.win.outCap.toNat) (v : Half) (pos : Nat) :
    s.tmWrite i v pos = .ok { s with mem := { s.mem with tmbuf := s.mem.tmbuf.write i v } } := by
  unfold State.tmWrite; rw [if_neg (by omega)]

theorem tmWrite_of_le {s : State} {i : Nat} (h : s.win.outCap.toNat ≤ i) (v : Half) (pos : Nat) :
    s.tmWrite i v pos = .error (⟨.sizeMismatch, pos⟩, s) := by
  unfold State.tmWrite; rw [if_pos h]

theorem hmWrite_of_lt {s : State} {i : Nat} (h : i < s.win.outCap.toNat) (v : Half) (pos : Nat) :
    s.hmWrite i v pos = .ok { s with mem := { s.mem with hm := s.mem.hm.write i v } } := by
  unfold State.hmWrite; rw [if_neg (by omega)]

theorem hmWrite_of_le {s : State} {i : Nat} (h : s.win.outCap.toNat ≤ i) (v : Half) (pos : Nat) :
    s.hmWrite i v pos = .error (⟨.sizeMismatch, pos⟩, s) := by
  unfold State.hmWrite; rw [if_pos h]

/-! ## VarInt -/

theorem takeVarint_of_le {s : State} {c : VarCode} (h : c.exp ≤ s.cfg.varintMaxExp) :
    s.takeVarint c = .ok { s with p := s.p + (2 * c.exp + 1), ve := c.exp, varVal := c.value } := by
  unfold State.takeVarint; rw [if_neg (by omega)]

theorem takeVarint_of_lt {s : State} {c : VarCode} (h : s.cfg.varintMaxExp < c.exp) :
    s.takeVarint c = .error (⟨.invalidControlCode, s.p⟩, s.tooManyZeros) := by
  unfold State.takeVarint; rw [if_pos h]

/-- Taking a coded number moves p and sets VE and the value returned, or fails after the zeros it has counted. -/
theorem takeVarint_cases (s : State) (c : VarCode) :
    (c.exp ≤ s.cfg.varintMaxExp ∧
      s.takeVarint c = .ok { s with p := s.p + (2 * c.exp + 1), ve := c.exp, varVal := c.value }) ∨
    (s.cfg.varintMaxExp < c.exp ∧ s.takeVarint c = .error (⟨.invalidControlCode, s.p⟩, s.tooManyZeros)) := by
  by_cases h : c.exp ≤ s.cfg.varintMaxExp
  · exact .inl ⟨h, takeVarint_of_le h⟩
  · exact .inr ⟨by omega, takeVarint_of_lt (by omega)⟩

/-! ## The extent of phases 1 and 2 -/

theorem passBase_whole {s : State} (h : s.cfg.tmPassExtent = .whole) : s.passBase = 0 := by
  unfold State.passBase; rw [h]

theorem passEnd_whole {s : State} (h : s.cfg.tmPassExtent = .whole) : s.passEnd = s.tm.t := by
  unfold State.passEnd; rw [h]

/-- Everything `nextCell` can do: it moves on within the pass, begins the second pass, or ends phase 2. -/
theorem nextCell_cases (s : State) :
    (s.tm.i < s.passEnd ∧ s.nextCell = { s with phase := .tmCell }) ∨
    (s.passEnd ≤ s.tm.i ∧ s.cfg.tmPassExtent = .perLayer ∧ s.tm.second = false ∧
      s.nextCell =
        { s with tm := { s.tm with second := true, c := ((s.tm.t / 2 : Nat) : Int) - 1 }, phase := .tmDelta }) ∨
    (s.passEnd ≤ s.tm.i ∧ ¬(s.cfg.tmPassExtent = .perLayer ∧ s.tm.second = false) ∧
      s.nextCell = { s with phase := .tmAlign }) := by
  by_cases h : s.tm.i < s.passEnd
  · exact .inl ⟨h, by unfold State.nextCell; rw [if_pos h]⟩
  · by_cases hp : s.cfg.tmPassExtent = .perLayer ∧ s.tm.second = false
    · refine .inr (.inl ⟨by omega, hp.1, hp.2, ?_⟩)
      unfold State.nextCell State.endPass; rw [if_neg h, if_pos hp]
    · refine .inr (.inr ⟨by omega, hp, ?_⟩)
      unfold State.nextCell State.endPass; rw [if_neg h, if_neg hp]

theorem nextCell_whole {s : State} (h : s.cfg.tmPassExtent = .whole) :
    s.nextCell = { s with phase := if s.tm.i < s.tm.t then .tmCell else .tmAlign } := by
  rcases nextCell_cases s with ⟨hi, e⟩ | ⟨_, hp, _⟩ | ⟨hi, _, e⟩
  · rw [passEnd_whole h] at hi; rw [e, if_pos hi]
  · rw [h] at hp; cases hp
  · rw [passEnd_whole h] at hi; rw [e, if_neg (by omega)]

/-- Both bounds given: the counters' storage with TM_COUNTERS_ALIAS, else B0 and B1 alone. -/
theorem setB1_setB0 (s : State) (v w : BitVec 10) :
    (s.setB0 v).setB1 w =
      { s with
        tm :=
          if s.cfg.tmCountersAlias then { s.tm with c0 := v.setWidth 16, c1 := w.setWidth 16 }
          else { s.tm with b0 := v, b1 := w } } := by
  unfold State.setB1 State.setB0
  cases h : s.cfg.tmCountersAlias <;> simp [h]

/-- Seeding sets the two counters from the bounds, or nothing where they are one storage. -/
theorem seedCounters_eq (s : State) :
    s.seedCounters =
      { s with
        tm :=
          { s.tm with
            c0 := if s.cfg.tmCountersAlias then s.tm.c0 else s.tm.b0.setWidth 16
            c1 := if s.cfg.tmCountersAlias then s.tm.c1 else s.tm.b1.setWidth 16 } } := by
  unfold State.seedCounters
  cases h : s.cfg.tmCountersAlias <;> rfl

theorem beginFill_whole {s : State} (h : s.cfg.tmPassExtent = .whole) :
    s.beginFill =
      { s with
        tm :=
          { s.tm with
            c0 := if s.cfg.tmCountersAlias then s.tm.c0 else s.tm.b0.setWidth 16
            c1 := if s.cfg.tmCountersAlias then s.tm.c1 else s.tm.b1.setWidth 16
            mode := none, i := 0 }
        phase := if 0 < s.tm.t then .tmCell else .tmAlign } := by
  unfold State.beginFill
  rw [seedCounters_eq]
  simp only
  rw [passBase_whole (by exact h), nextCell_whole (by exact h)]

/-! ## Cells of TMBUF -/

/-- A command with room places its value, and propagation begins at its cell. -/
theorem placeCommand_of_lt {s : State} (h : s.tm.c.toNat < s.win.outCap.toNat) (v : Half) (pos : Nat) :
    s.placeCommand v pos =
      .ok
        { s with
          tm := { s.tm with v := v, pc := s.tm.c.toNat, sel := s.cfg.tmPropagate.firstSel }, phase := .tmPropA
          mem := { s.mem with tmbuf := s.mem.tmbuf.write s.tm.c.toNat v } } := by
  unfold State.placeCommand; simp only; rw [tmWrite_of_lt (by exact h)]

theorem placeCommand_of_le {s : State} (h : s.win.outCap.toNat ≤ s.tm.c.toNat) (v : Half) (pos : Nat) :
    s.placeCommand v pos = .error (⟨.sizeMismatch, pos⟩, { s with tm := { s.tm with v := v } }) := by
  unfold State.placeCommand; simp only; rw [tmWrite_of_le (by exact h)]

/-- A cell with room takes its value, and `nextCell` says what follows. -/
theorem fillCell_of_lt {s : State} (h : s.tm.i < s.win.outCap.toNat) (v : Half) (pos : Nat) :
    s.fillCell v pos =
      .ok
        { s with
          tm := { s.tm with i := s.tm.i + 1 }, mem := { s.mem with tmbuf := s.mem.tmbuf.write s.tm.i v } }.nextCell := by
  unfold State.fillCell; rw [tmWrite_of_lt h]

theorem fillCell_of_le {s : State} (h : s.win.outCap.toNat ≤ s.tm.i) (v : Half) (pos : Nat) :
    s.fillCell v pos = .error (⟨.sizeMismatch, pos⟩, s) := by
  unfold State.fillCell; rw [tmWrite_of_le h]

/-! ## Control words -/

theorem takeWord_of_clear (s : State) (cw : Half) :
    s.takeWord cw false = .ok { s with p := s.p + 16, sp := { s.sp with cw := cw, q := s.sp.q + 2 } } := by
  unfold State.takeWord; cases h : s.cfg.sprBit12 <;> rfl

theorem takeWord_of_set {s : State} (h : s.cfg.sprBit12 = .fault) (cw : Half) :
    s.takeWord cw true =
      .error (⟨.invalidControlCode, s.p⟩,
        { s with p := s.p + 16, sp := { s.sp with cw := cw, q := s.sp.q + 2 } }) := by
  unfold State.takeWord; rw [h]; rfl

/-! ## A token that cannot be read -/

/-- A token cut short assigns VE, tilemap registers and heightmap registers, nothing else. -/
theorem assignRead_eq (s : State) (want : Expect) :
    s.assignRead want =
      { s with ve := (s.assignRead want).ve, tm := (s.assignRead want).tm, hm := (s.assignRead want).hm } := by
  cases want
  case tmTdict =>
    cases h : s.wholeField 10 0 <;> cases ha : s.cfg.tmCountersAlias <;> simp [State.assignRead, State.setB0, h, ha]
  all_goals rfl

@[simp] theorem assignRead_win (s : State) (want : Expect) : (s.assignRead want).win = s.win := by
  rw [assignRead_eq]
@[simp] theorem assignRead_cfg (s : State) (want : Expect) : (s.assignRead want).cfg = s.cfg := by
  rw [assignRead_eq]
@[simp] theorem assignRead_mem (s : State) (want : Expect) : (s.assignRead want).mem = s.mem := by
  rw [assignRead_eq]
@[simp] theorem assignRead_jobCodec (s : State) (want : Expect) : (s.assignRead want).jobCodec = s.jobCodec := by
  rw [assignRead_eq]
@[simp] theorem assignRead_p (s : State) (want : Expect) : (s.assignRead want).p = s.p := by
  rw [assignRead_eq]
@[simp] theorem assignRead_lz (s : State) (want : Expect) : (s.assignRead want).lz = s.lz := by
  rw [assignRead_eq]
@[simp] theorem assignRead_bt (s : State) (want : Expect) : (s.assignRead want).bt = s.bt := by
  rw [assignRead_eq]
@[simp] theorem assignRead_sp (s : State) (want : Expect) : (s.assignRead want).sp = s.sp := by
  rw [assignRead_eq]
@[simp] theorem assignRead_phase (s : State) (want : Expect) : (s.assignRead want).phase = s.phase := by
  rw [assignRead_eq]
@[simp] theorem assignRead_stamp (s : State) (want : Expect) : (s.assignRead want).stamp = s.stamp := by
  rw [assignRead_eq]
@[simp] theorem assignRead_sched (s : State) (want : Expect) : (s.assignRead want).sched = s.sched := by
  rw [assignRead_eq]
@[simp] theorem assignRead_varVal (s : State) (want : Expect) : (s.assignRead want).varVal = s.varVal := by
  rw [assignRead_eq]

/-- Reading a token that fails changes p and registers of the units, nothing else. -/
theorem readFailed_frame (s : State) (want : Expect) (e : DecodeError) :
    (s.readFailed want e).win = s.win ∧ (s.readFailed want e).cfg = s.cfg ∧ (s.readFailed want e).mem = s.mem ∧
      (s.readFailed want e).jobCodec = s.jobCodec ∧ (s.readFailed want e).stamp = s.stamp ∧
      (s.readFailed want e).sched = s.sched ∧ (s.readFailed want e).phase = s.phase := by
  cases e <;> cases want <;> simp [State.readFailed]

/-- p where the bit reader meets the end of the input (40_bitstream.md R151). -/
theorem readFailed_p (s : State) (want : Expect) :
    (s.readFailed want .endOfStream).p =
      if want ∈ [.lzCtrl, .lzLit, .lzPair, .sprHeader, .sprWord] then s.p else max s.p (8 * s.win.srcLen.toNat) := by
  cases want <;> simp [State.readFailed] <;> omega

/-! ## Control bits -/

/-- Taking a control bit changes LZ_CTL, LZ_NCTL and the bit held, nothing else. -/
theorem takeCtl_eq (s : State) :
    s.takeCtl =
      { s with lz := { s.lz with ctl := s.takeCtl.lz.ctl, nctl := s.takeCtl.lz.nctl, bit := s.takeCtl.lz.bit } } := by
  unfold State.takeCtl; cases h : s.lz.bit <;> simp [h, State.shiftCtl]

@[simp] theorem takeCtl_lz_bit (s : State) : s.takeCtl.lz.bit = none := by
  unfold State.takeCtl; cases h : s.lz.bit <;> simp [h, State.shiftCtl]
theorem takeCtl_lz_nctl_le (s : State) : s.takeCtl.lz.nctl ≤ s.lz.nctl := by
  unfold State.takeCtl; cases h : s.lz.bit <;> simp [State.shiftCtl]
@[simp] theorem takeCtl_advance_lz (s : State) (n : Nat) : (s.advance n).takeCtl.lz = s.takeCtl.lz := by
  unfold State.takeCtl State.advance; cases h : s.lz.bit <;> simp [State.shiftCtl]

/-- The state after a token's bits are passed over and its control bit taken. -/
theorem takeCtl_advance (s : State) (n : Nat) :
    (s.advance n).takeCtl = { s with p := s.p + n, lz := s.takeCtl.lz } := by
  unfold State.takeCtl State.advance; cases h : s.lz.bit <;> simp [State.shiftCtl]

/-! ## Runs of writes -/

/-- A copy that fits writes `n` bytes from LZ_OUT on; each is the byte `offset` before it as the copy finds it, so the
last `offset` bytes repeat. -/
theorem lzCopy_of_le {offset : Nat} (pos n : Nat) (s : State) (h0 : 0 < offset) (h1 : offset ≤ s.lz.out)
    (h2 : s.lz.out + n ≤ s.win.outCap.toNat) :
    ∃ m, lzCopy offset pos n s =
        .ok { s with lz := { s.lz with out := s.lz.out + n }, mem := { s.mem with out := m } } ∧
      (s.mem.out.wf = true → m.wf = true) ∧
      ∀ a, m.read (Config.freeBits 8 tagOut) a =
        if s.lz.out ≤ a ∧ a < s.lz.out + n then s.outByte (s.lz.out - offset + (a - s.lz.out) % offset)
        else s.outByte a := by
  induction n generalizing s with
  | zero => exact ⟨s.mem.out, rfl, id, fun a => by rw [if_neg (by omega)]; rfl⟩
  | succ n ih =>
    simp only [lzCopy]
    rw [outWrite_of_lt (by omega)]
    obtain ⟨m, hm, hw, hr⟩ := ih
      { s with
        lz := { s.lz with out := s.lz.out + 1 }
        mem := { s.mem with out := s.mem.out.write s.lz.out (s.outByte (s.lz.out - offset)) } }
      (by simp only; omega) (by simp only; omega)
    refine ⟨m, ?_, fun h => hw (wf_write h _ _), fun a => ?_⟩
    · simp only [hm, Except.ok.injEq, State.mk.injEq, LzRegs.mk.injEq, and_self, and_true, true_and]; omega
    · rw [hr]
      simp only [State.outByte, read_write]
      by_cases ha : s.lz.out + 1 ≤ a ∧ a < s.lz.out + 1 + n
      · rw [if_pos ha, if_pos (show s.lz.out ≤ a ∧ a < s.lz.out + (n + 1) by omega)]
        obtain ⟨d, rfl⟩ : ∃ d, a = s.lz.out + 1 + d := ⟨a - s.lz.out - 1, by omega⟩
        have e1 : s.lz.out + 1 + d - (s.lz.out + 1) = d := by omega
        have e2 : s.lz.out + 1 + d - s.lz.out = d + 1 := by omega
        rw [e1, e2]
        have hlt := Nat.mod_lt d h0
        have hmod : (d + 1) % offset = if d % offset + 1 = offset then 0 else d % offset + 1 := by
          rw [Nat.add_mod]
          split
          · rename_i h
            by_cases ho : offset = 1
            · subst ho; simp [Nat.mod_one]
            · rw [Nat.mod_eq_of_lt (show 1 < offset by omega), h, Nat.mod_self]
          · by_cases ho : offset = 1
            · omega
            · rw [Nat.mod_eq_of_lt (show 1 < offset by omega), Nat.mod_eq_of_lt (by omega)]
        rw [hmod]
        by_cases hx : d % offset + 1 = offset
        · rw [if_pos (by omega), if_pos hx]; rfl
        · rw [if_neg (by omega), if_neg hx]
          congr 1; omega
      · rw [if_neg ha]
        by_cases hx : a = s.lz.out
        · rw [if_pos hx, if_pos (by omega)]
          have : a - s.lz.out = 0 := by omega
          rw [this, Nat.zero_mod]; rfl
        · rw [if_neg hx, if_neg (by omega)]

/-- A copy past OUT_CAP ends in SizeMismatch, with LZ_OUT at the first byte that has no room. -/
theorem lzCopy_of_lt {offset : Nat} (pos n : Nat) (s : State) (h : s.win.outCap.toNat < s.lz.out + n) (h0 : 0 < n) :
    ∃ m, lzCopy offset pos n s =
      .error (⟨.sizeMismatch, pos⟩,
        { s with
          lz := { s.lz with out := max s.lz.out s.win.outCap.toNat }, mem := { s.mem with out := m } }) := by
  induction n generalizing s with
  | zero => omega
  | succ n ih =>
    simp only [lzCopy]
    by_cases hc : s.win.outCap.toNat ≤ s.lz.out
    · exact ⟨s.mem.out, by rw [outWrite_of_le hc, Nat.max_eq_left hc]⟩
    · rw [outWrite_of_lt (by omega)]
      obtain ⟨m, hm⟩ := ih
        { s with
          lz := { s.lz with out := s.lz.out + 1 }
          mem := { s.mem with out := s.mem.out.write s.lz.out (s.outByte (s.lz.out - offset)) } }
        (by simp only; omega) (by omega)
      refine ⟨m, ?_⟩
      simp only at hm ⊢
      rw [hm, Nat.max_eq_right (by omega), Nat.max_eq_right (by omega)]

/-- A zero fill that fits writes 2n zero bytes from SP_O on. -/
theorem zeroWords_of_le (pos n : Nat) (s : State) (h : s.sp.o + 2 * n ≤ s.win.outCap.toNat ∨ n = 0) :
    ∃ m, zeroWords pos n s =
        .ok { s with sp := { s.sp with o := s.sp.o + 2 * n }, mem := { s.mem with out := m } } ∧
      (s.mem.out.wf = true → m.wf = true) ∧
      ∀ a, m.read (Config.freeBits 8 tagOut) a =
        if s.sp.o ≤ a ∧ a < s.sp.o + 2 * n then 0 else s.outByte a := by
  induction n generalizing s with
  | zero => exact ⟨s.mem.out, rfl, id, fun a => by rw [if_neg (by omega)]; rfl⟩
  | succ n ih =>
    have h : s.sp.o + 2 * (n + 1) ≤ s.win.outCap.toNat := by omega
    simp only [zeroWords]
    rw [outWrite_of_lt (by omega)]
    simp only
    rw [outWrite_of_lt (by simp only; omega)]
    obtain ⟨m, hm, hw, hr⟩ := ih
      { s with
        sp := { s.sp with o := s.sp.o + 2 }
        mem := { s.mem with out := (s.mem.out.write s.sp.o 0).write (s.sp.o + 1) 0 } }
      (by simp only; omega)
    refine ⟨m, ?_, fun h => hw (wf_write (wf_write h _ _) _ _), fun a => ?_⟩
    · simp only [hm, Except.ok.injEq, State.mk.injEq, SpRegs.mk.injEq, and_self, and_true, true_and]; omega
    · rw [hr]
      simp only [State.outByte, read_write]
      split <;> rename_i ha
      · rw [if_pos (by omega)]
      · by_cases h1 : a = s.sp.o + 1
        · rw [if_pos h1, if_pos (by omega)]
        · by_cases h2 : a = s.sp.o
          · rw [if_neg h1, if_pos h2, if_pos (by omega)]
          · rw [if_neg h1, if_neg h2, if_neg (by omega)]

/-- A zero fill past OUT_CAP ends in SizeMismatch, with SP_O at the first word that does not fit. -/
theorem zeroWords_of_lt (pos n : Nat) (s : State) (h : s.win.outCap.toNat < s.sp.o + 2 * n) (h0 : 0 < n) :
    ∃ m, zeroWords pos n s =
      .error (⟨.sizeMismatch, pos⟩,
        { s with
          sp := { s.sp with o := s.sp.o + 2 * ((s.win.outCap.toNat - s.sp.o) / 2) }
          mem := { s.mem with out := m } }) := by
  induction n generalizing s with
  | zero => omega
  | succ n ih =>
    simp only [zeroWords]
    by_cases hc : s.win.outCap.toNat ≤ s.sp.o
    · have e : s.sp.o + 2 * ((s.win.outCap.toNat - s.sp.o) / 2) = s.sp.o := by omega
      exact ⟨s.mem.out, by rw [outWrite_of_le hc, e]⟩
    · rw [outWrite_of_lt (by omega)]
      simp only
      by_cases hd : s.win.outCap.toNat ≤ s.sp.o + 1
      · have e : s.sp.o + 2 * ((s.win.outCap.toNat - s.sp.o) / 2) = s.sp.o := by omega
        exact ⟨s.mem.out.write s.sp.o 0, by rw [outWrite_of_le (by simpa using hd), e]⟩
      · rw [outWrite_of_lt (by simp only; omega)]
        obtain ⟨m, hm⟩ := ih
          { s with
            sp := { s.sp with o := s.sp.o + 2 }
            mem := { s.mem with out := (s.mem.out.write s.sp.o 0).write (s.sp.o + 1) 0 } }
          (by simp only; omega) (by omega)
        have e : s.sp.o + 2 + 2 * ((s.win.outCap.toNat - (s.sp.o + 2)) / 2) =
            s.sp.o + 2 * ((s.win.outCap.toNat - s.sp.o) / 2) := by omega
        refine ⟨m, ?_⟩
        simp only at hm ⊢
        rw [hm, e]

theorem memRead_two (s : State) (q : Nat) (h : q + 2 ≤ s.win.srcLen.toNat) :
    s.memRead q 2 = .ok (256 * (s.srcByte q).toNat + (s.srcByte (q + 1)).toNat, { s with p := 8 * (q + 2) }) := by
  unfold State.memRead; rw [if_neg (by omega)]; simp [State.srcBytes]

theorem memRead_of_lt (s : State) (q n : Nat) (h : s.win.srcLen.toNat < q + n) :
    s.memRead q n = .error .unexpectedEndOfStream := by
  unfold State.memRead; rw [if_pos h]

/-- A raw copy whose words are all there and all fit copies 2n bytes from SP_Q to SP_O; p follows SP_Q. -/
theorem rawWords_of_le (pos n : Nat) (s : State) (hp : s.p = 8 * s.sp.q)
    (hin : n ≤ (s.win.srcLen.toNat - s.sp.q) / 2) (hout : n ≤ (s.win.outCap.toNat - s.sp.o) / 2) :
    ∃ m, rawWords pos n s =
        .ok { s with
              p := s.p + 16 * n, sp := { s.sp with q := s.sp.q + 2 * n, o := s.sp.o + 2 * n }
              mem := { s.mem with out := m } } ∧
      (s.mem.out.wf = true → m.wf = true) ∧
      ∀ a, m.read (Config.freeBits 8 tagOut) a =
        if s.sp.o ≤ a ∧ a < s.sp.o + 2 * n then s.srcByte (s.sp.q + (a - s.sp.o)) else s.outByte a := by
  induction n generalizing s with
  | zero => exact ⟨s.mem.out, rfl, id, fun a => by rw [if_neg (by omega)]; rfl⟩
  | succ n ih =>
    have e1 : (256 * (s.srcByte s.sp.q).toNat + (s.srcByte (s.sp.q + 1)).toNat) / 256 = (s.srcByte s.sp.q).toNat := by
      have := (s.srcByte (s.sp.q + 1)).isLt; omega
    have hv1 : BitVec.ofNat 8 ((256 * (s.srcByte s.sp.q).toNat + (s.srcByte (s.sp.q + 1)).toNat) / 256) =
        s.srcByte s.sp.q := by rw [e1]; simp
    have hv2 : BitVec.ofNat 8 (256 * (s.srcByte s.sp.q).toNat + (s.srcByte (s.sp.q + 1)).toNat) =
        s.srcByte (s.sp.q + 1) := by
      apply BitVec.eq_of_toNat_eq; simp only [BitVec.toNat_ofNat]
      have := (s.srcByte (s.sp.q + 1)).isLt; omega
    simp only [rawWords]
    rw [memRead_two s _ (by omega)]
    simp only
    rw [outWrite_of_lt (by simp only; omega)]
    simp only
    rw [outWrite_of_lt (by simp only; omega)]
    simp only [hv1, hv2]
    obtain ⟨m, hm, hw, hr⟩ := ih
      { s with
        p := 8 * (s.sp.q + 2), sp := { s.sp with q := s.sp.q + 2, o := s.sp.o + 2 }
        mem :=
          { s.mem with
            out := (s.mem.out.write s.sp.o (s.srcByte s.sp.q)).write (s.sp.o + 1) (s.srcByte (s.sp.q + 1)) } }
      rfl (by simp only; omega) (by simp only; omega)
    refine ⟨m, ?_, fun h => hw (wf_write (wf_write h _ _) _ _), fun a => ?_⟩
    · simp only [hm, Except.ok.injEq, State.mk.injEq, SpRegs.mk.injEq, and_self, and_true, true_and]; omega
    · rw [hr]
      simp only [State.outByte, State.srcByte, read_write]
      split <;> rename_i ha
      · rw [if_pos (by omega)]; congr 1; omega
      · by_cases h1 : a = s.sp.o + 1
        · rw [if_pos h1, if_pos (by omega)]; congr 1; omega
        · by_cases h2 : a = s.sp.o
          · rw [if_neg h1, if_pos h2, if_pos (by omega)]; congr 1; omega
          · rw [if_neg h1, if_neg h2, if_neg (by omega)]

/-- A raw copy whose input ends before or at the word that no longer fits ends in UnexpectedEndOfStream, the words that
are there having been copied. -/
theorem rawWords_endOfStream (pos n : Nat) (s : State) (hp : s.p = 8 * s.sp.q)
    (h1 : (s.win.srcLen.toNat - s.sp.q) / 2 < n)
    (h2 : (s.win.srcLen.toNat - s.sp.q) / 2 ≤ (s.win.outCap.toNat - s.sp.o) / 2) :
    ∃ m, rawWords pos n s =
      .error (⟨.unexpectedEndOfStream, pos⟩,
        let r := (s.win.srcLen.toNat - s.sp.q) / 2
        { s with
          p := s.p + 16 * r, sp := { s.sp with q := s.sp.q + 2 * r, o := s.sp.o + 2 * r }
          mem := { s.mem with out := m } }) := by
  induction n generalizing s with
  | zero => omega
  | succ n ih =>
    simp only [rawWords]
    by_cases hq : s.win.srcLen.toNat < s.sp.q + 2
    · have e : (s.win.srcLen.toNat - s.sp.q) / 2 = 0 := by omega
      exact ⟨s.mem.out, by simp only [memRead_of_lt s _ _ hq, e]; rfl⟩
    · rw [memRead_two s _ (by omega)]
      simp only
      rw [outWrite_of_lt (by simp only; omega)]
      simp only
      rw [outWrite_of_lt (by simp only; omega)]
      simp only
      obtain ⟨m, hm⟩ := ih
        { s with
          p := 8 * (s.sp.q + 2), sp := { s.sp with q := s.sp.q + 2, o := s.sp.o + 2 }
          mem :=
            { s.mem with
              out :=
                (s.mem.out.write s.sp.o
                  (BitVec.ofNat 8 ((256 * (s.srcByte s.sp.q).toNat + (s.srcByte (s.sp.q + 1)).toNat) / 256))).write
                  (s.sp.o + 1)
                  (BitVec.ofNat 8 (256 * (s.srcByte s.sp.q).toNat + (s.srcByte (s.sp.q + 1)).toNat)) } }
        rfl (by simp only; omega) (by simp only; omega)
      refine ⟨m, hm.trans ?_⟩
      simp only [Except.error.injEq, Prod.mk.injEq, State.mk.injEq, SpRegs.mk.injEq, and_self, and_true, true_and]
      omega

/-- A raw copy whose output ends before the input does ends in SizeMismatch, at the first word that does not fit, which
has been read. -/
theorem rawWords_sizeMismatch (pos n : Nat) (s : State) (hp : s.p = 8 * s.sp.q)
    (h1 : (s.win.outCap.toNat - s.sp.o) / 2 < n)
    (h2 : (s.win.outCap.toNat - s.sp.o) / 2 < (s.win.srcLen.toNat - s.sp.q) / 2) :
    ∃ m, rawWords pos n s =
      .error (⟨.sizeMismatch, pos⟩,
        let w := (s.win.outCap.toNat - s.sp.o) / 2
        { s with
          p := s.p + 16 * (w + 1), sp := { s.sp with q := s.sp.q + 2 * (w + 1), o := s.sp.o + 2 * w }
          mem := { s.mem with out := m } }) := by
  induction n generalizing s with
  | zero => omega
  | succ n ih =>
    simp only [rawWords]
    rw [memRead_two s _ (by omega)]
    simp only
    by_cases hc : s.win.outCap.toNat ≤ s.sp.o
    · refine ⟨s.mem.out, ?_⟩
      rw [outWrite_of_le (by simpa using hc)]
      simp only [Except.error.injEq, Prod.mk.injEq, State.mk.injEq, SpRegs.mk.injEq, and_self, and_true, true_and]
      omega
    · rw [outWrite_of_lt (by simp only; omega)]
      simp only
      by_cases hd : s.win.outCap.toNat ≤ s.sp.o + 1
      · refine
          ⟨s.mem.out.write s.sp.o
            (BitVec.ofNat 8 ((256 * (s.srcByte s.sp.q).toNat + (s.srcByte (s.sp.q + 1)).toNat) / 256)), ?_⟩
        rw [outWrite_of_le (by simpa using hd)]
        simp only [Except.error.injEq, Prod.mk.injEq, State.mk.injEq, SpRegs.mk.injEq, and_self, and_true, true_and]
        omega
      · rw [outWrite_of_lt (by simp only; omega)]
        simp only
        obtain ⟨m, hm⟩ := ih
          { s with
            p := 8 * (s.sp.q + 2), sp := { s.sp with q := s.sp.q + 2, o := s.sp.o + 2 }
            mem :=
              { s.mem with
                out :=
                  (s.mem.out.write s.sp.o
                    (BitVec.ofNat 8 ((256 * (s.srcByte s.sp.q).toNat + (s.srcByte (s.sp.q + 1)).toNat) / 256))).write
                    (s.sp.o + 1)
                    (BitVec.ofNat 8 (256 * (s.srcByte s.sp.q).toNat + (s.srcByte (s.sp.q + 1)).toNat)) } }
          rfl (by simp only; omega) (by simp only; omega)
        refine ⟨m, hm.trans ?_⟩
        simp only [Except.error.injEq, Prod.mk.injEq, State.mk.injEq, SpRegs.mk.injEq, and_self, and_true, true_and]
        omega

end Sys2Proof.Machine
end

