-- ==== Sys2Proof/Laws/PerInstr.lean ====
section
/-! SUPPORT. The families of statements made per token, one lemma per constructor of `Instr`. -/

namespace Sys2Proof.Laws

/-- The encoding of a token has the length its format gives it (30_encoding.md R110). -/
def EncodeLength.Statement (i : Instr) : Prop :=
  (encode i).length = i.bitLength

theorem EncodeLength.varint (c : VarCode) :
    EncodeLength.Statement (.varint c) := by
  simp [EncodeLength.Statement, encode, Instr.bitLength]

theorem EncodeLength.lzCtrl (c : Byte) :
    EncodeLength.Statement (.lzCtrl c) := by
  simp [EncodeLength.Statement, encode, Instr.bitLength]

theorem EncodeLength.lzLit (lit : Byte) :
    EncodeLength.Statement (.lzLit lit) := by
  simp [EncodeLength.Statement, encode, Instr.bitLength]

theorem EncodeLength.lzRef (offset : BitVec 12) (lcode : BitVec 4) :
    EncodeLength.Statement (.lzRef offset lcode) := by
  simp [EncodeLength.Statement, encode, Instr.bitLength, lzPairBits]

theorem EncodeLength.lzEnd (lcode : BitVec 4) :
    EncodeLength.Statement (.lzEnd lcode) := by
  simp [EncodeLength.Statement, encode, Instr.bitLength, lzPairBits]

theorem EncodeLength.btCount (n : Half) :
    EncodeLength.Statement (.btCount n) := by
  simp [EncodeLength.Statement, encode, Instr.bitLength]

theorem EncodeLength.btSkip0 (c : VarCode) :
    EncodeLength.Statement (.btSkip0 c) := by
  simp [EncodeLength.Statement, encode, Instr.bitLength]

theorem EncodeLength.btSkip (c : VarCode) :
    EncodeLength.Statement (.btSkip c) := by
  simp [EncodeLength.Statement, encode, Instr.bitLength]

theorem EncodeLength.btApply (c : VarCode) :
    EncodeLength.Statement (.btApply c) := by
  simp [EncodeLength.Statement, encode, Instr.bitLength]

theorem EncodeLength.btIdxMtf (i : BitVec 4) :
    EncodeLength.Statement (.btIdxMtf i) := by
  simp [EncodeLength.Statement, encode, Instr.bitLength]

theorem EncodeLength.btIdxRaw (r : BitVec 11) :
    EncodeLength.Statement (.btIdxRaw r) := by
  simp [EncodeLength.Statement, encode, Instr.bitLength]

theorem EncodeLength.btCompDer :
    EncodeLength.Statement .btCompDer := by
  simp [EncodeLength.Statement, encode, Instr.bitLength]

theorem EncodeLength.btCompInd :
    EncodeLength.Statement .btCompInd := by
  simp [EncodeLength.Statement, encode, Instr.bitLength]

theorem EncodeLength.tmHdr (left top wm1 hs : Byte) :
    EncodeLength.Statement (.tmHdr left top wm1 hs) := by
  simp [EncodeLength.Statement, encode, Instr.bitLength]

theorem EncodeLength.tmTdict (b0 b1 : BitVec 10) :
    EncodeLength.Statement (.tmTdict b0 b1) := by
  simp [EncodeLength.Statement, encode, Instr.bitLength]

theorem EncodeLength.tmOdict (v6 v7 v8 v9 v10 v11 v12 v13 : BitVec 12) :
    EncodeLength.Statement (.tmOdict v6 v7 v8 v9 v10 v11 v12 v13) := by
  simp [EncodeLength.Statement, encode, Instr.bitLength]

theorem EncodeLength.tmDelta (c : VarCode) :
    EncodeLength.Statement (.tmDelta c) := by
  simp [EncodeLength.Statement, encode, Instr.bitLength]

theorem EncodeLength.tmEnd (c : VarCode) :
    EncodeLength.Statement (.tmEnd c) := by
  simp [EncodeLength.Statement, encode, Instr.bitLength]

theorem EncodeLength.tmCmdS (c : BitVec 3) :
    EncodeLength.Statement (.tmCmdS c) := by
  simp [EncodeLength.Statement, encode, Instr.bitLength]

theorem EncodeLength.tmCmdX (x : BitVec 1) (e : BitVec 2) :
    EncodeLength.Statement (.tmCmdX x e) := by
  simp [EncodeLength.Statement, encode, Instr.bitLength]

theorem EncodeLength.tmPropRun :
    EncodeLength.Statement .tmPropRun := by
  simp [EncodeLength.Statement, encode, Instr.bitLength]

theorem EncodeLength.tmPropStop :
    EncodeLength.Statement .tmPropStop := by
  simp [EncodeLength.Statement, encode, Instr.bitLength]

theorem EncodeLength.tmPropCell :
    EncodeLength.Statement .tmPropCell := by
  simp [EncodeLength.Statement, encode, Instr.bitLength]

theorem EncodeLength.tmPropEndrun :
    EncodeLength.Statement .tmPropEndrun := by
  simp [EncodeLength.Statement, encode, Instr.bitLength]

theorem EncodeLength.tmCopy :
    EncodeLength.Statement .tmCopy := by
  simp [EncodeLength.Statement, encode, Instr.bitLength]

theorem EncodeLength.tmLitRaw (n v : Nat) :
    EncodeLength.Statement (.tmLitRaw n v) := by
  simp [EncodeLength.Statement, encode, Instr.bitLength]; omega

theorem EncodeLength.tmLitOfs (n v : Nat) :
    EncodeLength.Statement (.tmLitOfs n v) := by
  simp [EncodeLength.Statement, encode, Instr.bitLength]; omega

theorem EncodeLength.tmLitCnt0 :
    EncodeLength.Statement .tmLitCnt0 := by
  simp [EncodeLength.Statement, encode, Instr.bitLength]

theorem EncodeLength.tmLitCnt1 :
    EncodeLength.Statement .tmLitCnt1 := by
  simp [EncodeLength.Statement, encode, Instr.bitLength]

theorem EncodeLength.tmAlign (pad : List Bool) :
    EncodeLength.Statement (.tmAlign pad) := by
  simp [EncodeLength.Statement, encode, Instr.bitLength]

theorem EncodeLength.hmDim (hw hh : Byte) :
    EncodeLength.Statement (.hmDim hw hh) := by
  simp [EncodeLength.Statement, encode, Instr.bitLength]

theorem EncodeLength.hmRun (pat : Half) (k : Nat) (last : Byte) :
    EncodeLength.Statement (.hmRun pat k last) := by
  simp [EncodeLength.Statement, encode, Instr.bitLength]; omega

theorem EncodeLength.hmCell :
    EncodeLength.Statement .hmCell := by
  simp [EncodeLength.Statement, encode, Instr.bitLength]

theorem EncodeLength.sprSf (y : BitVec 5) (w : BitVec 2) (r : Bool) (x : BitVec 5) (h : BitVec 2) :
    EncodeLength.Statement (.sprSf y w r x h) := by
  simp [EncodeLength.Statement, encode, Instr.bitLength, sprHeaderBits]

theorem EncodeLength.sprSfLast (y : BitVec 5) (w : BitVec 2) (r : Bool) (x : BitVec 5) (h : BitVec 2) :
    EncodeLength.Statement (.sprSfLast y w r x h) := by
  simp [EncodeLength.Statement, encode, Instr.bitLength, sprHeaderBits]

theorem EncodeLength.sprZero (stop l r : Bool) (count : BitVec 12) :
    EncodeLength.Statement (.sprZero stop l r count) := by
  simp [EncodeLength.Statement, encode, Instr.bitLength, sprWordBits]

theorem EncodeLength.sprLz (stop r : Bool) (count : BitVec 12) :
    EncodeLength.Statement (.sprLz stop r count) := by
  simp [EncodeLength.Statement, encode, Instr.bitLength, sprWordBits]

theorem EncodeLength.sprRaw (stop r : Bool) (count : BitVec 12) :
    EncodeLength.Statement (.sprRaw stop r count) := by
  simp [EncodeLength.Statement, encode, Instr.bitLength, sprWordBits]

end Sys2Proof.Laws
end

