-- ==== Sys2Proof/Tests/Slice0.lean ====
section
/-! SUPPORT. Tests: ill-formed terms refused, one word of the spec's encoding for every token, one step on small states
(expected values from the examples and rules of spec/ and from 95_test_vectors.md), and states that meet the hypotheses
of the statements. -/

namespace Sys2Proof.Tests
open Sys2Proof Sys2Proof.Machine

/-! ## Well-formedness -/

theorem test_wf_refuses_sixteen_zeros : (VarCode.mk 16 0).wf Config.decided = false := by decide
theorem test_wf_refuses_a_wide_mantissa : (VarCode.mk 2 4).wf Config.decided = false := by decide
theorem test_wf_refuses_every_var_row :
    [Instr.varint ⟨16, 0⟩, .btSkip0 ⟨16, 0⟩, .btSkip ⟨2, 4⟩, .btApply ⟨16, 0⟩, .tmDelta ⟨1, 2⟩, .tmEnd ⟨0, 1⟩].all
      (fun i => !i.wf Config.decided) = true := by decide
theorem test_wf_refuses_offset_zero : (Instr.lzRef 0 5).wf Config.decided = false := by decide
theorem test_wf_refuses_command_six : (Instr.tmCmdS 6).wf Config.decided = false := by decide
theorem test_wf_refuses_a_wide_raw_payload : (Instr.tmLitRaw 3 8).wf Config.decided = false := by decide
theorem test_wf_refuses_a_wide_offset_payload : (Instr.tmLitOfs 0 1).wf Config.decided = false := by decide
theorem test_wf_refuses_a_byte_of_padding :
    (Instr.tmAlign (List.replicate 8 false)).wf Config.decided = false := by decide
theorem test_wf_refuses_a_last_chain_byte_of_ff : (Instr.hmRun 0 1 0xFF).wf Config.decided = false := by decide
theorem test_wf_accepts_the_limits :
    [Instr.varint ⟨15, 32767⟩, .lzRef 0xFFF 15, .tmCmdS 5, .tmLitRaw 3 7, .tmAlign (List.replicate 7 true),
      .hmRun 0 2 0xFE].all (·.wf Config.decided) = true := by decide

/-! ## Words of every row, from the encodings of 30_encoding.md R111 to R127 -/

/-- What the decoder reads from the n-bit word w. -/
def word (want : Expect) (n w : Nat) : Option (Instr × List Bool) :=
  (decode Config.decided want (natBits n w)).toOption

theorem test_decode_varint : word .varint 5 0b00110 = some (.varint ⟨2, 2⟩, []) := by decide
theorem test_decode_lzCtrl : word .lzCtrl 8 0b10000001 = some (.lzCtrl 0x81, []) := by decide
theorem test_decode_lzLit : word .lzLit 8 0b01000001 = some (.lzLit 0x41, []) := by decide
/-- 41_lz77.md R183: `08 01` is offset 1, length 10; offset[11:8] is the high nibble. -/
theorem test_decode_lzRef : word .lzPair 16 0b0000_1000_0000_0001 = some (.lzRef 1 8, []) := by decide
theorem test_decode_lzRef_high : word .lzPair 16 0b1010_0011_0000_0010 = some (.lzRef 0xA02 3, []) := by decide
theorem test_decode_lzEnd : word .lzPair 16 0b0000_0101_0000_0000 = some (.lzEnd 5, []) := by decide
theorem test_decode_btCount : word .btCount 16 0b0000_0001_0000_0010 = some (.btCount 0x102, []) := by decide
theorem test_decode_btSkip0 : word .btSkip0 1 0b1 = some (.btSkip0 ⟨0, 0⟩, []) := by decide
theorem test_decode_btSkip : word .btSkip 3 0b010 = some (.btSkip ⟨1, 0⟩, []) := by decide
theorem test_decode_btApply : word .btApply 3 0b011 = some (.btApply ⟨1, 1⟩, []) := by decide
theorem test_decode_btIdxMtf : word .btIndex 5 0b1_0001 = some (.btIdxMtf 1, []) := by decide
theorem test_decode_btIdxRaw : word .btIndex 12 0b0_00000010000 = some (.btIdxRaw 16, []) := by decide
theorem test_decode_btCompDer : word .btCompanion 1 0b1 = some (.btCompDer, []) := by decide
theorem test_decode_btCompInd : word .btCompanion 1 0b0 = some (.btCompInd, []) := by decide
theorem test_decode_tmHdr : word .tmHdr 32 0x050A1F0B = some (.tmHdr 5 10 0x1F 0x0B, []) := by decide
theorem test_decode_tmTdict : word .tmTdict 20 0b0000001000_0000010000 = some (.tmTdict 8 16, []) := by decide
theorem test_decode_tmOdict :
    word .tmOdict 96 0x001_002_003_004_005_006_007_ABC = some (.tmOdict 1 2 3 4 5 6 7 0xABC, []) := by decide
theorem test_decode_tmDelta : word (.tmDelta 5) 3 0b011 = some (.tmDelta ⟨1, 1⟩, []) := by decide
/-- 43_tilemap.md R256: T = 4 and TM_C = 2 leave room 2, which the delta 2 reaches. -/
theorem test_decode_tmEnd : word (.tmDelta 2) 3 0b011 = some (.tmEnd ⟨1, 1⟩, []) := by decide
theorem test_decode_tmCmdS : word .tmCmd 3 0b101 = some (.tmCmdS 5, []) := by decide
theorem test_decode_tmCmdX : word .tmCmd 5 0b111_10 = some (.tmCmdX 1 2, []) := by decide
theorem test_decode_tmPropRun : word .tmPropA 1 0b1 = some (.tmPropRun, []) := by decide
theorem test_decode_tmPropStop : word .tmPropA 1 0b0 = some (.tmPropStop, []) := by decide
theorem test_decode_tmPropCell : word .tmPropB 1 0b1 = some (.tmPropCell, []) := by decide
theorem test_decode_tmPropEndrun : word .tmPropB 1 0b0 = some (.tmPropEndrun, []) := by decide
theorem test_decode_tmCopy : word .tmCopy 3 0b101 = some (.tmCopy, [true, false, true]) := by decide
theorem test_decode_tmLitRaw : word (.tmLit 3 4) 5 0b00_101 = some (.tmLitRaw 3 5, []) := by decide
theorem test_decode_tmLitOfs : word (.tmLit 3 4) 6 0b01_0011 = some (.tmLitOfs 4 3, []) := by decide
theorem test_decode_tmLitCnt0 : word (.tmLit 3 4) 2 0b10 = some (.tmLitCnt0, []) := by decide
theorem test_decode_tmLitCnt1 : word (.tmLit 3 4) 2 0b11 = some (.tmLitCnt1, []) := by decide
theorem test_decode_tmAlign : word (.tmAlign 3) 4 0b0101 = some (.tmAlign [false, true, false], [true]) := by decide
theorem test_decode_hmDim : word .hmDim 16 0x0201 = some (.hmDim 2 1, []) := by decide
/-- 43_tilemap.md R273: `12 34 FF FF 05`. -/
theorem test_decode_hmRun : word .hmRun 40 0x1234FFFF05 = some (.hmRun 0x1234 2 5, []) := by decide
theorem test_decode_hmCell : word .hmCell 1 0b1 = some (.hmCell, [true]) := by decide
theorem test_decode_sprSf : word .sprHeader 16 0b0_00010_00_0_00001_01 = some (.sprSf 2 0 false 1 1, []) := by decide
theorem test_decode_sprSfLast :
    word .sprHeader 16 0b1_10000_11_1_01111_10 = some (.sprSfLast 16 3 true 15 2, []) := by decide
theorem test_decode_sprZero : word .sprWord 16 0b1010_000000001000 = some (.sprZero false true false 8, []) := by decide
theorem test_decode_sprLz : word .sprWord 16 0b0110_000000000000 = some (.sprLz true false 0, []) := by decide
theorem test_decode_sprRaw : word .sprWord 16 0b0001_000000000100 = some (.sprRaw false true 4, []) := by decide

/-- 40_bitstream.md R157: sixteen zeros are refused, even at the end of the input. -/
theorem test_decode_refuses_sixteen_zeros : word .varint 16 0 = none := by decide
/-- 40_bitstream.md R150: a token cut short is refused. -/
theorem test_decode_refuses_a_cut_token : word .btCount 15 0 = none := by decide

/-! ## Small states -/

/-- A BUSY machine at a grammar position, with an n-byte input v and room for 16 elements; every space is zero there. -/
def small (ph : Phase) (n v : Nat) : State :=
  { State.reset with
    win := { State.reset.win with engine := .busy, srcLen := BitVec.ofNat 32 n, outCap := 16 }
    mem :=
      { src := srcOfNat n v, out := .zeros 0 16, tileIdx := .zeros 0 16, tileAttr := .zeros 0 16
        tmbuf := .zeros 0 16, hm := .zeros 0 16, sf := .zeros 0 16 }
    phase := ph }

/-- What a step's next state shows. -/
def got {α : Type} (a : Answer) (f : State → α) : Option α :=
  match a with
  | .next t => some (f t)
  | _ => none

/-- The fault code and position after a step. -/
def trapped (a : Answer) : Option (Engine × Nat × Nat) :=
  got a fun t => (t.win.engine, t.win.faultCode.toNat, t.win.faultPos.toNat)

/-! ## Bit reader (examples of 40_bitstream.md) -/

theorem test_readBits_across_bytes :
    (State.readBits 8 { small .none 2 0x1234 with p := 4 }).toOption.map (fun r => (r.1, r.2.p)) = some (0x23, 12) := by
  decide
theorem test_peekBit_stays : ((small .none 1 0x80).peekBit).toOption.map (fun r => (r.1, r.2.p)) = some (true, 0) := by
  decide
/-- R151: the bits before the end of the input are consumed, and the fault records the token's start. -/
theorem test_end_of_input_consumes_its_bits :
    got (step { small .btCount 2 0 with p := 8 }) (fun t => (t.win.faultCode, t.win.faultPos, t.p)) = some (1, 8, 16) := by
  decide
/-- R157: the 16 zeros are consumed; no further bit is read. -/
theorem test_sixteen_zeros_are_consumed :
    got (step { small .btSkip 3 0 with p := 1 }) (fun t => (t.win.faultCode, t.win.faultPos, t.p, t.ve))
      = some (3, 1, 17, 16) := by decide
/-- 43_tilemap.md R251: left and top are assigned before the input ends in the width. -/
theorem test_a_header_cut_short_assigns_its_whole_fields :
    got (step (small .tmHdr 2 0x050A)) (fun t => (t.win.engine, t.tm.left, t.tm.top, t.tm.w, t.p))
      = some (.fault, 5, 10, 0, 16) := by decide
theorem test_align : (alignedPos Config.decided 170, alignedPos Config.decided 176) = (176, 176) := by decide

/-! ## VARINT and LZD -/

/-- 40_bitstream.md R156: `011` is e = 1, m = 1, value 2. -/
theorem test_varint : got (exec (.varint ⟨1, 1⟩) (small .none 1 0)) (fun t => (t.varVal, t.ve, t.p)) = some (2, 1, 3) := by
  decide
/-- 41_lz77.md R181: `80` gives bit 1 and leaves LZ_NCTL = 7. -/
theorem test_lzCtrl :
    got (step (small (.lz false) 1 0x80)) (fun t => (t.lz.bit, t.lz.nctl, t.lz.ctl, t.p)) = some (some true, 7, 0, 8) := by
  decide
/-- 41_lz77.md R182. -/
theorem test_lzLit :
    got (exec (.lzLit 0x41) (small (.lz false) 1 0)) (fun t => (t.outByte 0, t.lz.out, t.outByte 1)) = some (0x41, 1, 0) := by
  decide
theorem test_lzLit_full :
    trapped (exec (.lzLit 0x41) { small (.lz false) 4 0 with p := 8, lz := { State.reset.lz with out := 16 } })
      = some (.fault, 4, 8) := by decide
/-- 41_lz77.md R183: offset 1, length 10, after a byte 41: ten bytes 41. -/
theorem test_lzRef :
    got (exec (.lzRef 1 8) { small (.lz false) 4 0 with
        lz := { State.reset.lz with out := 1 }, mem := { (small .none 4 0).mem with out := (Memory.zeros 0 16).write 0 0x41 } })
      (fun t => (t.lz.out, (List.range 12).map t.outByte))
      = some (11, List.replicate 11 0x41 ++ [0]) := by decide
theorem test_lzRef_window : trapped (exec (.lzRef 1 8) (small (.lz false) 4 0)) = some (.fault, 5, 0) := by decide
theorem test_lzEnd :
    got (exec (.lzEnd 5) { small (.lz false) 4 0 with p := 8, lz := { State.reset.lz with out := 3 } })
      (fun t => (t.win.engine, t.win.resultCount, t.win.resultConsumed)) = some (.done, 3, 3) := by decide
/-- LZ_CTRL_LOAD = eager (log 20): one more control byte after a terminator that is the 8th token of its group. -/
theorem test_lzEnd_eager :
    got (exec (.lzEnd 0) { small (.lz false) 4 0 with cfg := { Config.decided with lzCtrlLoad := .eager }, p := 8 })
      (fun t => (t.win.engine, t.win.resultConsumed)) = some (.done, 4) := by decide
/-- 44_sprite.md R307: an odd sub-stream faults at its control word. -/
theorem test_lzEnd_odd :
    trapped (exec (.lzEnd 0) { small (.lz true) 9 0 with
        p := 48, sp := { State.reset.sp with q := 4 }, lz := { State.reset.lz with out := 1 } }) = some (.fault, 3, 16) := by
  decide

/-! ## BTD -/

/-- 42_bigtile.md R211: `00 01` is N = 1, BT_TOTAL = 4. -/
theorem test_btCount :
    got (step (small .btCount 2 1)) (fun t => (t.bt.n, t.bt.total, t.phase, t.p)) = some (1, 4, .btSkip, 16) := by decide
theorem test_btCount_size : trapped (exec (.btCount 5) (small .btCount 2 5)) = some (.fault, 4, 0) := by decide

/-- A BTD machine with two big tiles. -/
def bigTiles (ph : Phase) (pos : Nat) : State :=
  { small ph 4 0 with bt := { State.reset.bt with n := 2, total := 8, pos := pos, first := true } }

/-- 42_bigtile.md R213: `1` skips nothing. -/
theorem test_btSkip0 :
    got (exec (.btSkip0 ⟨0, 0⟩) (bigTiles .btSkip 0)) (fun t => (t.bt.pos, t.bt.first, t.phase))
      = some (0, false, .btApply) := by decide
/-- 42_bigtile.md R214: `010` skips 2. -/
theorem test_btSkip :
    got (exec (.btSkip ⟨1, 0⟩) (bigTiles .btSkip 6)) (fun t => (t.bt.pos, t.bt.attr, t.phase))
      = some (0, .vflip, .btSkip) := by decide
theorem test_btSkip_overrun : trapped (exec (.btSkip ⟨1, 0⟩) (bigTiles .btSkip 7)) = some (.fault, 6, 0) := by decide
/-- 42_bigtile.md R215: `011` sets the attribute on tiles 0, 1 and 2. -/
theorem test_btApply :
    got (exec (.btApply ⟨1, 1⟩) (bigTiles .btApply 0))
      (fun t => ((List.range 5).map (fun i => (t.tileAttrs i).priority), (t.tileAttrs 0).hflip, t.bt.pos, t.phase))
      = some ([true, true, true, false, false], false, 3, .btSkip) := by decide
theorem test_btApply_overrun : trapped (exec (.btApply ⟨1, 1⟩) (bigTiles .btApply 6)) = some (.fault, 6, 0) := by decide

/-- A BTD machine at pair 0 with Q = [7, 5]. -/
def queue (ph : Phase) : State :=
  { small ph 4 0 with
    bt :=
      { State.reset.bt with
        n := 2, total := 8, q := #v[7, 5, 0, 0, 0, 0, 0, 0, 0, 0, 0, 0, 0, 0, 0, 0], occ := 2 } }

/-- 42_bigtile.md R218: position 1 of [7, 5] gives [5, 7] and the result 5. -/
theorem test_btIdxMtf :
    got (exec (.btIdxMtf 1) (queue .btIndex)) (fun t => (t.bt.q.toList.take 3, t.tileIndex 0, t.phase))
      = some ([5, 7, 0], 5, .btCompanion) := by decide
theorem test_btIdxMtf_empty : trapped (exec (.btIdxMtf 2) (queue .btIndex)) = some (.fault, 2, 0) := by decide
/-- 42_bigtile.md R219. -/
theorem test_btIdxRaw :
    got (exec (.btIdxRaw 16) (queue .btIndex)) (fun t => (t.bt.q.toList.take 4, t.bt.occ, t.tileIndex 0, t.p))
      = some ([16, 7, 5, 0], 3, 16, 12) := by decide
theorem test_btIdxRaw_companion :
    got (exec (.btIdxRaw 16) (queue .btCompIndex)) (fun t => (t.tileIndex 0, t.tileIndex 1, t.bt.k, t.phase))
      = some (0, 16, 1, .btIndex) := by decide
/-- 42_bigtile.md R220: an hflipped tile 16 has the companion 15. -/
theorem test_btCompDer_flipped :
    got (exec .btCompDer { queue .btCompanion with
        mem := { (queue .none).mem with
          tileIdx := (Memory.zeros 0 16).write 0 16
          tileAttr := (Memory.zeros 0 16).write 0 { hflip := true, vflip := false, priority := false } } })
      (fun t => (t.tileIndex 1, t.bt.occ, t.bt.k)) = some (15, 2, 1) := by decide
theorem test_btCompDer :
    got (exec .btCompDer { queue .btCompanion with
        mem := { (queue .none).mem with tileIdx := (Memory.zeros 0 16).write 0 0xFFFF } })
      (fun t => (t.tileIndex 0, t.tileIndex 1)) = some (0xFFFF, 0) := by decide
/-- 42_bigtile.md R221: `0`, then `1` `0000`: the companion is Q[0]. -/
theorem test_btCompInd :
    got (step (queue .btCompanion)) (fun t => (t.phase, t.p)) = some (.btCompIndex, 1) := by decide

/-! ## TMD -/

/-- 43_tilemap.md R251: `05 0A 1F 0B` is left 5, top 10, W = 32, L = 12, H = 24, T = 768. -/
theorem test_tmHdr :
    got (exec (.tmHdr 5 10 0x1F 0x0B) { small .tmHdr 4 0 with win := { (small .none 4 0).win with outCap := 768 } })
      (fun t => (t.tm.w, t.tm.l, t.tm.h, t.tm.t, t.tm.left, t.tm.top)) = some (32, 12, 24, 768, 5, 10) := by decide
theorem test_tmHdr_size : trapped (step (small .tmHdr 4 0x050A1F0B)) = some (.fault, 4, 0) := by decide
theorem test_tmTdict :
    got (exec (.tmTdict 8 16) (small .tmTdict 4 0)) (fun t => (t.tm.b0, t.tm.b1, t.p)) = some (8, 16, 20) := by decide

/-- TM_COUNTERS_ALIAS (10_state.md R51): the bounds go to the storage of the counters. -/
theorem test_tmTdict_one_storage :
    got (exec (.tmTdict 8 16) { small .tmTdict 4 0 with cfg := { Config.decided with tmCountersAlias := true } })
      (fun t => (t.bound0, t.bound1, t.tm.c0, t.tm.c1)) = some (8, 16, 8, 16) := by decide

/-- A TMD machine with W = 2, L = 1, T = 4. -/
def layers (ph : Phase) (c : Int) : State :=
  { small ph 8 0 with
    tm :=
      { State.reset.tm with
        w := 2, l := 1, h := 2, t := 4, b0 := 8, b1 := 16, c0 := 8, c1 := 16, c := c
        od := #v[0xFFFF, 1, 2, 2, 4, 3, 6, 70, 8, 9, 10, 11, 12, 13] } }

/-- 43_tilemap.md R253: W = 3 gives FFFF, 1, 2, 3, 6, 4. -/
theorem test_tmOdict :
    got (exec (.tmOdict 1 2 3 4 5 6 7 0xFFF) { layers .tmOdict 0 with tm := { (layers .none 0).tm with w := 3 } })
      (fun t => (t.tm.od.toList.take 7, t.tm.od[13], t.tm.c)) = some ([0xFFFF, 1, 2, 3, 6, 4, 1], 0xFFF, -1) := by decide
/-- 43_tilemap.md R255: `011` moves the cursor from -1 to 1; a value of 0 moves it by 1. -/
theorem test_tmDelta :
    got (exec (.tmDelta ⟨1, 1⟩) (layers .tmDelta (-1))) (fun t => (t.tm.c, t.phase)) = some (1, .tmCmd) := by decide
theorem test_tmDelta_zero :
    got (exec (.tmDelta ⟨0, 0⟩) (layers .tmDelta (-1))) (fun t => (t.tm.c, t.p)) = some (0, 1) := by decide
theorem test_tmEnd :
    got (exec (.tmEnd ⟨1, 1⟩) { layers .tmDelta 2 with tm := { (layers .none 2).tm with c0 := 0, c1 := 0 } })
      (fun t => (t.tm.c, t.tm.c0, t.tm.c1, t.phase)) = some (4, 8, 16, .tmCell) := by decide
/-- 10_state.md R51 with TM_COUNTERS_ALIAS: counters that have counted up go on in a later phase 2. -/
theorem test_tmEnd_one_storage :
    got (exec (.tmEnd ⟨1, 1⟩)
        { layers .tmDelta 2 with
          cfg := { Config.decided with tmCountersAlias := true, tmPassExtent := .perLayer }
          tm := { (layers .none 2).tm with c0 := 11, c1 := 20, second := true } })
      (fun t => (t.tm.c0, t.tm.c1, t.bound0, t.tm.i, t.phase)) = some (11, 20, 11, 2, .tmCell) := by decide
/-- 43_tilemap.md R257: `010` is OD[2] = 2. -/
theorem test_tmCmdS :
    got (exec (.tmCmdS 2) (layers .tmCmd 3)) (fun t => (t.tmCellAt 3, t.tm.v, t.tm.pc, t.phase))
      = some (2, 2, 3, .tmPropA) := by decide
/-- 43_tilemap.md R258: `11001` is OD[7]. -/
theorem test_tmCmdX : got (exec (.tmCmdX 0 1) (layers .tmCmd 3)) (fun t => (t.tmCellAt 3, t.p)) = some (70, 5) := by decide
theorem test_tmCmdX_last : got (exec (.tmCmdX 1 3) (layers .tmCmd 0)) (fun t => t.tmCellAt 0) = some 13 := by decide
theorem test_tmPropRun : got (exec .tmPropRun (layers .tmPropA 0)) (fun t => (t.phase, t.p)) = some (.tmPropB, 1) := by decide
theorem test_tmPropStop : got (exec .tmPropStop (layers .tmPropA 0)) (fun t => (t.phase, t.p)) = some (.tmDelta, 1) := by
  decide
/-- 43_tilemap.md R262: W = 2, TM_PC = 0: cell 2 takes TM_V. -/
theorem test_tmPropCell :
    got (exec .tmPropCell { layers .tmPropB 0 with tm := { (layers .none 0).tm with v := 7 } })
      (fun t => (t.tmCellAt 2, t.tm.pc, t.tmCellAt 3)) = some (7, 2, 0) := by decide
/-- 43_tilemap.md R260: TM_SEL = 1 makes the stride W + 1 = 3; from cell 1 that is T. -/
theorem test_tmPropCell_overrun :
    trapped (exec .tmPropCell { layers .tmPropB 0 with tm := { (layers .none 0).tm with pc := 1, sel := true } })
      = some (.fault, 6, 0) := by decide
/-- TM_PROPAGATE with `pastEnd = endRun` (log 20): the same cell ends the inner run. -/
theorem test_tmPropCell_endRun :
    got (exec .tmPropCell { layers .tmPropB 0 with
        cfg := { Config.decided with tmPropagate := { Propagation.reference with pastEnd := .endRun } }
        tm := { (layers .none 0).tm with pc := 1, sel := true } })
      (fun t => (t.phase, t.tm.pc, t.tm.sel)) = some (.tmPropA, 1, false) := by decide
theorem test_tmPropEndrun :
    got (exec .tmPropEndrun (layers .tmPropB 0)) (fun t => (t.tm.sel, t.phase)) = some (true, .tmPropA) := by decide
/-- 43_tilemap.md R265: buffer [8, 5, ..], mode 2, cell 2: it takes 8. -/
def copying : State :=
  { layers .tmCell 0 with
    tm := { (layers .none 0).tm with i := 2, mode := some 2 }
    mem := { (layers .none 0).mem with tmbuf := ((Memory.zeros 0 16).write 0 8).write 1 5 } }
theorem test_tmCopy : got (step copying) (fun t => (t.tmCellAt 2, t.tm.i, t.p, t.phase)) = some (8, 3, 0, .tmCell) := by
  decide
theorem test_tmCopy_window :
    trapped (exec .tmCopy { copying with tm := { copying.tm with mode := some 3 } }) = some (.fault, 5, 0) := by decide

/-- TM_PASS_EXTENT = per_layer (log 20): after cell 1 of T = 4 phase 1 runs over the second half. -/
theorem test_perLayer_begins_the_second_half :
    got (exec .tmLitCnt0 { layers .tmCell 0 with
        cfg := { Config.decided with tmPassExtent := .perLayer }, tm := { (layers .none 0).tm with i := 1 } })
      (fun t => (t.phase, t.tm.c, t.tm.second)) = some (.tmDelta, 1, true) := by decide

/-- A TMD machine at cell 0, in literal mode. -/
def literal : State :=
  { layers .tmCell 0 with tm := { (layers .none 0).tm with mode := some 0xFFFF } }

theorem test_tmLitRaw : got (exec (.tmLitRaw 3 5) literal) (fun t => (t.tmCellAt 0, t.tm.i, t.p)) = some (5, 1, 5) := by
  decide
theorem test_tmLitRaw_zero_bound :
    trapped (exec (.tmLitRaw 0 0) { literal with tm := { literal.tm with b0 := 0 } }) = some (.fault, 2, 0) := by decide
theorem test_tmLitOfs : got (exec (.tmLitOfs 4 3) literal) (fun t => (t.tmCellAt 0, t.tm.b1)) = some (19, 16) := by decide
theorem test_tmLitOfs_zero_bound :
    trapped (exec (.tmLitOfs 0 0) { literal with tm := { literal.tm with b1 := 0 } }) = some (.fault, 2, 0) := by decide
theorem test_tmLitCnt0 :
    got (exec .tmLitCnt0 literal) (fun t => (t.tmCellAt 0, t.tm.c0, t.tm.c1, t.tm.b0)) = some (8, 9, 16, 8) := by decide
theorem test_tmLitCnt1 :
    got (exec .tmLitCnt1 { literal with tm := { literal.tm with i := 3, c1 := 0xFFFF } })
      (fun t => (t.tmCellAt 3, t.tm.c0, t.tm.c1, t.phase)) = some (0xFFFF, 8, 0, .tmAlign) := by decide
/-- 43_tilemap.md R271: p = 170 goes to 176. -/
theorem test_tmAlign :
    got (exec (.tmAlign []) { layers .tmAlign 0 with p := 170 }) (fun t => (t.p, t.phase)) = some (176, .hmDim) := by decide
/-- 43_tilemap.md R272: `02 01`. -/
theorem test_hmDim :
    got (step { layers .hmDim 0 with mem := { (layers .none 0).mem with src := srcOfNat 8 (0x0201 * 2 ^ 48) } })
      (fun t => (t.hm.w, t.hm.h, t.phase, t.p)) = some (2, 1, .hmCell, 16) := by decide
theorem test_hmDim_empty :
    got (exec (.hmDim 0 5) (layers .hmDim 0))
      (fun t => (t.win.engine, t.win.resultCount, t.win.resultAux, t.win.resultGeom, t.win.resultAux2))
      = some (.done, 4, 0, 0x00010000, 0x0500) := by decide
/-- 43_tilemap.md R273: `12 34 FF FF 05` is a run of 515. -/
theorem test_hmRun :
    got (exec (.hmRun 0x1234 2 5) (layers .hmCell 0)) (fun t => (t.hm.pat, t.hm.run, t.p)) = some (0x1234, 515, 40) := by
  decide
theorem test_hmRun_zero : trapped (exec (.hmRun 0x1234 0 0) (layers .hmCell 0)) = some (.fault, 3, 0) := by decide
/-- HM_ZERO_RUN = write nothing (log 20): the next run is read. -/
theorem test_hmRun_zero_writes_nothing :
    got (exec (.hmRun 0x1234 0 0) { layers .hmCell 0 with cfg := { Config.decided with hmZeroRun := .writeNothing } })
      (fun t => (t.select, t.hm.j)) = some (.token .hmRun, 0) := by decide
/-- A TMD machine in a heightmap of 2 by 1, at cell j of a run of 3. -/
def heights (j : Nat) : State :=
  { layers .hmCell 0 with hm := { w := 2, h := 1, j := j, run := 3, pat := 0xABCD } }
theorem test_hmCell :
    got (step (heights 0)) (fun t => (t.hmCellAt 0, t.hm.j, t.hm.run, t.p, t.phase))
      = some (0xABCD, 1, 2, 0, .hmCell) := by decide
theorem test_hmCell_last :
    got (step (heights 1)) (fun t => (t.hmCellAt 1, t.win.engine, t.win.resultAux, t.win.resultAux2))
      = some (0xABCD, .done, 2, 0x0102) := by decide

/-! ## SPD -/

/-- An SPD machine at input byte 2, output byte 4. -/
def sprite (ph : Phase) (v : Nat) : State :=
  { small ph 12 v with p := 16, sp := { State.reset.sp with q := 2, o := 4, nsf := 1, need := 3, tidx := 3 } }

/-- 44_sprite.md R301: `08 05` is y 16, w 1, x 8, h 2; another header follows. -/
theorem test_sprSf :
    got (exec (.sprSf 2 0 false 1 1) (sprite .sprHeader 0)) (fun t => (t.subframe 1, t.sp.tidx, t.sp.nsf, t.sp.q, t.phase))
      = some ({ x := 8, y := 16, w := 1, h := 2, tileIdx := 3 }, 5, 2, 4, .sprHeader) := by decide
/-- 44_sprite.md R302: position fields are signed. -/
theorem test_sprSfLast :
    got (exec (.sprSfLast 31 3 false 16 0) (sprite .sprHeader 0)) (fun t => (t.subframe 1, t.sp.need, t.phase))
      = some ({ x := -128, y := -8, w := 4, h := 1, tileIdx := 3 }, 7, .sprWord) := by decide
theorem test_sprSf_reserved : trapped (exec (.sprSf 0 0 true 0 0) (sprite .sprHeader 0)) = some (.fault, 3, 16) := by decide
/-- 44_sprite.md R306: a zero fill of 2 words, and the loop continues. -/
theorem test_sprZero :
    got (exec (.sprZero false false false 2) { sprite .sprWord 0 with
        mem := { (sprite .none 0).mem with out := (((Memory.zeros 0 16).write 3 9).write 4 9).write 8 9 } })
      (fun t => ((List.range 9).map t.outByte, t.sp.o, t.p, t.phase))
      = some ([0, 0, 0, 9, 0, 0, 0, 0, 9], 8, 32, .sprWord) := by decide
theorem test_sprZero_bit12 : trapped (exec (.sprZero true true true 0) (sprite .sprWord 0)) = some (.fault, 3, 16) := by decide
/-- 44_sprite.md R307: the sub-stream begins after the control word, with its window at SP_O. -/
theorem test_sprLz :
    got (exec (.sprLz true false 9) (sprite .sprWord 0)) (fun t => (t.lz.out, t.lz.base, t.lz.nctl, t.p, t.phase))
      = some (4, 4, 0, 32, .lz true) := by decide
theorem test_sprLz_returns :
    got (exec (.lzEnd 0) { sprite (.lz true) 0 with
        p := 56, sp := { (sprite .none 0).sp with q := 4, cw := 0x6000 }, lz := { State.reset.lz with out := 12 } })
      (fun t => (t.win.engine, t.sp.q, t.win.resultCount, t.win.resultConsumed)) = some (.done, 9, 12, 9) := by decide
/-- SPR_LZ_COUNT = output words (log 20): 8 bytes are not the 9 words of the count. -/
theorem test_sprLz_count_refused :
    trapped (exec (.lzEnd 0) { sprite (.lz true) 0 with
        cfg := { Config.decided with sprLzCount := .outputWords }
        p := 56, sp := { (sprite .none 0).sp with q := 4, cw := 0x6009 }, lz := { State.reset.lz with out := 12 } })
      = some (.fault, 3, 16) := by decide
/-- 44_sprite.md R308: the words are copied in input order. -/
theorem test_sprRaw :
    got (step (sprite .sprWord 0x80004002_11223344_55667788))
      (fun t => ((List.range 5).map (fun a => t.outByte (4 + a)), t.win.engine, t.win.resultCount, t.p))
      = some ([0x11, 0x22, 0x33, 0x44, 0], .done, 8, 64) := by decide
theorem test_sprRaw_end :
    trapped (exec (.sprRaw true false 5) (sprite .sprWord 0)) = some (.fault, 1, 16) := by decide

/-! ## HOST, START and reset -/

/-- An IDLE machine with turns to come. -/
def idle (turns : List Turn) : State :=
  { small .none 4 0x80410000 with
    win := { (small .none 4 0).win with engine := .idle }, sched := turns }

theorem test_reset_memory_is_canonical : State.reset.mem.wf = true := by decide
theorem test_start :
    got (step (idle [.host (.writeWindow 0 0x103)]))
      (fun t => (t.win.engine, t.jobCodec, t.phase, t.tm.c, t.readWindow 0, t.readWindow 4))
      = some (.busy, 3, .sprHeader, -1, 3, 1) := by decide
theorem test_writes_while_busy_are_ignored :
    got (step { small .btCount 4 0 with sched := [.host (.writeWindow 8 99)] }) (fun t => t.win.srcLen) = some 4 := by
  decide
/-- 10_state.md R40: a write at or above 0x28 is ignored, also at 0x29. -/
theorem test_a_reserved_write_is_ignored : (idle []).writeWindow 0x29 7 = .next (idle []) ∧ (idle []).readWindow 0x29 = 0 :=
  ⟨rfl, rfl⟩
/-- 20_memory.md R84: cell (1, 0) of a heightmap of width 2 is HM[1]. -/
theorem test_heightmap_is_row_major :
    got (step (heights 1)) (fun t => ({ t with jobCodec := 2 }.hostReadHmAt 1 0)) = some 0xABCD := by decide
theorem test_block_reset :
    got (step { small .btCount 4 0 with sched := [.host .reset] })
      (fun t => (t.win.engine, t.readWindow 8, t.phase, t.mem.src.get? 0)) = some (.idle, 0, .none, none) := by decide
theorem test_status_of_a_fault :
    got (exec (.lzRef 1 8) (small (.lz false) 4 0)) (fun t => t.readWindow 4) = some 0x53 := by decide
/-- log 1: SRC, SRC_LEN, OUT_CAP and START from reset, and then the first token of an LZD job. -/
theorem test_a_program_runs_from_reset :
    got (Sys2Proof.core.run 5 { State.reset with
        sched := [.host (.writeSrc 0 0x80), .host (.writeWindow 8 1), .host (.writeWindow 12 16),
          .host (.writeWindow 0 0x100)] })
      (fun t => (t.win.engine, t.lz.bit, t.p)) = some (.busy, some true, 8) := by decide
/-- log 21: a word of the table is the first token that runs. -/
theorem test_withFetchWord :
    decodeTableWord 8 0x11 = some (.btIdxMtf 1) ∧
      step (State.reset.withFetchWord 8 0x11) = exec (.btIdxMtf 1) (State.reset.withFetchWord 8 0x11) := ⟨by decide, rfl⟩

/-! ## Witnesses: states and operands that meet the hypotheses of the statements -/

theorem witness_DecodeInvertsEncode :
    (Instr.tmEnd ⟨1, 1⟩).wf Config.decided = true ∧ (Expect.tmDelta 2).offers (.tmEnd ⟨1, 1⟩) = true := by decide

theorem witness_DecodeReadsOnlyEncodings :
    (∀ k, Expect.tmAlign 3 = .tmAlign k → k < 8 ∧ k ≤ [true, false, true].length) ∧
      decode Config.decided (.tmAlign 3) [true, false, true] = .ok (.tmAlign [true, false, true], []) :=
  ⟨fun k h => by cases h; decide, rfl⟩

theorem witness_CodedNumbersCoverTheirRange :
    (VarCode.mk 15 32767).wf Config.decided = true ∧ (VarCode.mk 15 32767).value = 65534 ∧
      (VarCode.mk 0 0).wf Config.decided = true ∧ (VarCode.mk 0 0).value = 0 := by decide

theorem witness_BitReaderPrimitives :
    let last := { small .none 2 0 with p := 15 }
    let past := { small .none 2 0 with p := 16 }
    last.p / 8 < last.win.srcLen.toNat ∧ past.win.srcLen.toNat ≤ past.p / 8 ∧ last.cfg = Config.decided ∧
      last.p % 8 ≠ 0 ∧ past.cfg = Config.decided ∧ past.p % 8 = 0 := by decide

theorem witness_DecoderReadsAsTheBitReader : (small .none 2 0).p % 8 = 0 ∧ 0 < 2 := by decide

theorem witness_StepRunsTheDecodedToken :
    let s := small .btCount 2 1
    s.win.engine = .busy ∧ s.select = .token .btCount ∧ decode s.cfg .btCount s.inputBits = .ok (.btCount 1, []) ∧
      s.sched = [] ∧ { s with sched := [.dec] }.sched = .dec :: [] := ⟨rfl, rfl, rfl, rfl, rfl⟩

theorem witness_GrammarSelectsTheToken :
    let z := small (.lz false) 1 0
    let x := { z with lz := { z.lz with nctl := 1 } }
    let y := { z with lz := { z.lz with bit := some true } }
    z.phase = .lz false ∧ z.lz.bit = none ∧ z.lz.nctl = 0 ∧ x.lz.bit = none ∧ x.lz.nctl ≠ 0 ∧ y.lz.bit = some true ∧
      (bigTiles .btSkip 0).phase = .btSkip ∧ (bigTiles .btSkip 0).bt.first = true ∧
      (queue .btSkip).bt.first = false ∧ (queue .btCount).phase = .btCount ∧ (queue .btApply).phase = .btApply ∧
      (queue .btIndex).phase = .btIndex ∧ (queue .btCompanion).phase = .btCompanion ∧
      (queue .btCompIndex).phase = .btCompIndex := by decide

theorem witness_GrammarSelectsTheToken_tilemap :
    copying.phase = .tmCell ∧ copying.cellMode = some 2 ∧ (2 : Half) ≠ 0xFFFF ∧ literal.phase = .tmCell ∧
      literal.cfg = Config.decided ∧ literal.cellMode = some 0xFFFF ∧ literal.tm.b0 ≠ 0 ∧
      (layers .tmHdr 0).phase = .tmHdr ∧ (layers .tmTdict 0).phase = .tmTdict ∧ (layers .tmOdict 0).phase = .tmOdict ∧
      (layers .tmCmd 0).phase = .tmCmd ∧ (layers .tmPropA 0).phase = .tmPropA ∧ (layers .tmPropB 0).phase = .tmPropB ∧
      (layers .hmDim 0).phase = .hmDim ∧ (layers .hmCell 0).hm.run = 0 ∧ (heights 0).phase = .hmCell ∧
      (heights 0).hm.run ≠ 0 ∧ (sprite .sprHeader 0).phase = .sprHeader ∧ (sprite .sprWord 0).phase = .sprWord := by
  decide

/-- `011` at TM_C = 2: TM.END for T = 4; at TM_C = 1: TM.DELTA. -/
theorem witness_DeltaReachingTheEndEndsPhaseOne :
    let s := { layers .tmDelta 2 with mem := { (layers .none 0).mem with src := srcOfNat 8 (0b011 * 2 ^ 61) } }
    let t := { s with tm := { s.tm with c := 1 } }
    s.win.engine = .busy ∧ s.sched = [] ∧ s.cfg.tmPassExtent = .whole ∧ s.phase = .tmDelta ∧
      (VarCode.mk 1 1).wf s.cfg = true ∧
      s.inputBits = (VarCode.mk 1 1).bits ++ List.replicate 61 false ∧
      (s.tm.t : Int) ≤ s.tm.c + 2 ∧ t.inputBits = s.inputBits ∧ ¬ (t.tm.t : Int) ≤ t.tm.c + 2 := by decide +kernel

theorem witness_InputEndingInsideATokenFaults :
    let s := { small .btCount 2 0 with p := 8 }
    s.win.engine = .busy ∧ s.sched = [] ∧ s.select = .token .btCount ∧ (Instr.btCount 0).wf s.cfg = true ∧
      Expect.btCount.offers (.btCount 0) = true ∧ List.replicate 8 false ≠ [] ∧
      s.inputBits ++ List.replicate 8 false = encode (.btCount 0) := by decide

theorem witness_InputEndingInsideATokenFaults_padding : ∀ pad, Instr.btCount 0 ≠ .tmAlign pad := by simp

theorem witness_SixteenZerosFault :
    let s := bigTiles .btSkip 0
    s.win.engine = .busy ∧ s.sched = [] ∧ s.cfg = Config.decided ∧ s.select = .token .btSkip0 ∧
      s.inputBits = List.replicate 16 false ++ List.replicate 16 false := by decide +kernel

theorem witness_VarintReturnsItsValue :
    15 ≤ State.reset.cfg.varintMaxExp ∧ State.reset.cfg.varintMaxExp < 16 := by decide

theorem witness_LzLitWritesItsByte :
    let s := { small (.lz false) 4 0 with lz := { State.reset.lz with out := 15 } }
    let t := { s with lz := { s.lz with out := 16 } }
    s.lz.out < s.win.outCap.toNat ∧ t.win.outCap.toNat ≤ t.lz.out := by decide

/-- An LZD machine with LZ_OUT = 13 and window base 12. -/
def copyingBack (out : Nat) : State :=
  { small (.lz false) 4 0 with lz := { State.reset.lz with out := out, base := 12 } }

theorem witness_LzRefRepeatsTheWindow :
    (1 : BitVec 12) ≠ 0 ∧ (2 : BitVec 12) ≠ 0 ∧
      (copyingBack 13).lz.out - (copyingBack 13).lz.base < (2 : BitVec 12).toNat ∧
      (1 : BitVec 12).toNat ≤ (copyingBack 13).lz.out - (copyingBack 13).lz.base ∧
      (copyingBack 14).win.outCap.toNat < (copyingBack 14).lz.out + (18 - (15 : BitVec 4).toNat) ∧
      (copyingBack 13).lz.out + (18 - (15 : BitVec 4).toNat) ≤ (copyingBack 13).win.outCap.toNat := by decide

/-- The end of a sub-stream of `n` bytes. -/
def subStream (n : Nat) : State :=
  { sprite (.lz true) 0 with
    p := 56, sp := { (sprite .none 0).sp with q := 4 }, lz := { State.reset.lz with out := 4 + n } }

theorem witness_LzEndEndsTheStream :
    (copyingBack 13).cfg = Config.decided ∧ (copyingBack 13).phase = .lz false ∧ (copyingBack 13).lz.out < 2 ^ 32 ∧
      ((copyingBack 13).p + 16) / 8 < 2 ^ 32 ∧
      (subStream 2).cfg = Config.decided ∧ (subStream 2).phase = .lz true ∧
      (subStream 2).sp.q ≤ ((subStream 2).p + 16) / 8 ∧ (subStream 2).sp.o ≤ (subStream 2).lz.out ∧
      ((subStream 2).lz.out - (subStream 2).sp.o) % 2 = 0 ∧
      (subStream 1).sp.q ≤ ((subStream 1).p + 16) / 8 ∧ (subStream 1).sp.o ≤ (subStream 1).lz.out ∧
      ((subStream 1).lz.out - (subStream 1).sp.o) % 2 = 1 := by decide

/-- OUT_CAP = 16 holds four big tiles, and not five. -/
theorem witness_BtCountSizesTheJob :
    let s := small .btCount 2 0
    s.win.outCap.toNat < 4 * (5 : Half).toNat ∧ 0 < (4 : Half).toNat ∧ 4 * (4 : Half).toNat ≤ s.win.outCap.toNat ∧
      (0 : Half) = 0 ∧ (s.p + 23) / 8 < 2 ^ 32 := by decide

theorem witness_SkipRunsMoveTheMask :
    let c : VarCode := ⟨1, 0⟩
    let i := Instr.btSkip c
    let s := bigTiles .btSkip 6
    c.exp ≤ s.cfg.varintMaxExp ∧ (i = .btSkip0 c ∧ 2 = c.value ∨ i = .btSkip c ∧ 2 = c.value + 1) ∧
      (bigTiles .btSkip 7).bt.total < (bigTiles .btSkip 7).bt.pos + 2 ∧ s.bt.pos + 2 = s.bt.total ∧
      (bigTiles .btSkip 5).bt.pos + 2 < (bigTiles .btSkip 5).bt.total := by decide

theorem witness_ApplyRunsSetTheAttribute :
    let c : VarCode := ⟨1, 0⟩
    let s := bigTiles .btApply 6
    c.exp ≤ s.cfg.varintMaxExp ∧ (bigTiles .btApply 7).bt.total < (bigTiles .btApply 7).bt.pos + (c.value + 1) ∧
      s.bt.pos + (c.value + 1) ≤ s.bt.total := by decide

theorem witness_MaskPassesAndPairsComeInOrder :
    let s := bigTiles .btSkip 8
    let v := { s with bt := { s.bt with attr := .vflip } }
    let h := { s with bt := { s.bt with attr := .hflip } }
    let last := { s with bt := { s.bt with k := 3 } }
    s.bt.attr = .priority ∧ v.bt.attr = .vflip ∧ h.bt.attr = .hflip ∧ h.bt.n ≠ 0 ∧
      { h with bt := { h.bt with n := 0 } }.bt.n = 0 ∧ (h.p + 7) / 8 < 2 ^ 32 ∧
      { s with bt := { s.bt with k := 2 } }.bt.k + 1 < 2 * s.bt.n.toNat ∧ 2 * last.bt.n.toNat ≤ last.bt.k + 1 := by
  decide

theorem witness_RawIndexIsPushedAndPlaced :
    (queue .btIndex).phase ≠ .btCompIndex ∧ (queue .btCompIndex).phase = .btCompIndex := by decide

theorem witness_QueueIndexIsMovedAndPlaced :
    (queue .btIndex).cfg = Config.decided ∧ (queue .btIndex).bt.occ ≤ (2 : BitVec 4).toNat ∧
      (1 : BitVec 4).toNat < (queue .btIndex).bt.occ ∧ (queue .btIndex).phase ≠ .btCompIndex ∧
      (1 : BitVec 4).toNat < (queue .btCompIndex).bt.occ ∧ (queue .btCompIndex).phase = .btCompIndex := by decide

theorem witness_CompanionIsDerivedOrFollows : (queue .btCompanion).cfg = Config.decided := by decide

/-- OUT_CAP = 16: T = 16 fits and T = 18 does not. -/
theorem witness_HeaderAndDictionariesAreSet :
    let s := small .tmHdr 4 0
    s.win.outCap.toNat < ((2 : Byte).toNat + 1) * (2 * ((2 : Byte).toNat + 1)) ∧
      ((3 : Byte).toNat + 1) * (2 * ((1 : Byte).toNat + 1)) ≤ s.win.outCap.toNat := by decide

theorem witness_DeltasMoveTheCursor :
    (VarCode.mk 15 0).exp ≤ (layers .tmDelta 0).cfg.varintMaxExp ∧ (layers .tmDelta 0).cfg.tmPassExtent = .whole := by
  decide

theorem witness_CommandsPlaceDictionaryValues :
    let s := layers .tmCmd 15
    let full := layers .tmCmd 16
    s.cfg = Config.decided ∧ 0 ≤ s.tm.c ∧ (5 : BitVec 3).toNat ≤ 5 ∧ s.tm.c.toNat < s.win.outCap.toNat ∧
      6 + 4 * (1 : BitVec 1).toNat + (3 : BitVec 2).toNat = 13 ∧ 0 ≤ full.tm.c ∧
      full.win.outCap.toNat ≤ full.tm.c.toNat := by decide

/-- T = 4 at stride 2: cell 3 is the last; with T = 20 and OUT_CAP = 16 cell 16 has no room. -/
theorem witness_PropagationFollowsItsBits :
    let a := { layers .tmPropB 0 with tm := { (layers .none 0).tm with pc := 2 } }
    let b := { layers .tmPropB 0 with tm := { (layers .none 0).tm with pc := 14, t := 20 } }
    let c := { layers .tmPropB 0 with tm := { (layers .none 0).tm with pc := 1 } }
    a.cfg = Config.decided ∧ b.cfg = Config.decided ∧ c.cfg = Config.decided ∧
      a.tm.t ≤ a.tm.pc + (if a.tm.sel then a.tm.w + 1 else a.tm.w) ∧
      b.tm.pc + (if b.tm.sel then b.tm.w + 1 else b.tm.w) < b.tm.t ∧
      b.win.outCap.toNat ≤ b.tm.pc + (if b.tm.sel then b.tm.w + 1 else b.tm.w) ∧
      c.tm.pc + (if c.tm.sel then c.tm.w + 1 else c.tm.w) < c.tm.t ∧
      c.tm.pc + (if c.tm.sel then c.tm.w + 1 else c.tm.w) < c.win.outCap.toNat := by decide

theorem witness_CellsSetOrContinueTheMode :
    let set := { copying with tm := { copying.tm with i := 0 } }
    let bare := { copying with tm := { copying.tm with mode := none } }
    copying.cfg = Config.decided ∧ set.tmCellAt set.tm.i ≠ 0 ∧ copying.tmCellAt copying.tm.i = 0 ∧
      bare.win.engine = .busy ∧ bare.sched = [] ∧ bare.phase = .tmCell ∧ bare.tmCellAt bare.tm.i = 0 ∧
      bare.tm.mode = none := by decide

theorem witness_CopyRepeatsAnEarlierCell :
    let far := { copying with tm := { copying.tm with mode := some 3 } }
    let full := { copying with win := { copying.win with outCap := 2 } }
    far.cfg.tmPassExtent = .whole ∧ full.cfg.tmPassExtent = .whole ∧ copying.cfg.tmPassExtent = .whole ∧
      far.cellMode = some 3 ∧ far.tm.i < (3 : Half).toNat ∧ full.cellMode = some 2 ∧ (2 : Half).toNat ≤ full.tm.i ∧
      full.win.outCap.toNat ≤ full.tm.i ∧ copying.cellMode = some 2 ∧ (2 : Half).toNat ≤ copying.tm.i ∧
      copying.tm.i < copying.win.outCap.toNat := by decide

theorem witness_LiteralsFillTheCell :
    let zero := { literal with tm := { literal.tm with b0 := 0, b1 := 0 } }
    literal.cfg = Config.decided ∧ literal.tm.i < literal.win.outCap.toNat ∧ 7 < 2 ^ 3 ∧ 15 < 2 ^ 4 ∧
      literal.tm.b0 ≠ 0 ∧ literal.tm.b1 ≠ 0 ∧ zero.cfg = Config.decided ∧ zero.tm.b0 = 0 ∧ zero.tm.b1 = 0 := by decide

theorem witness_AlignReachesTheByteBoundary : (layers .tmAlign 0).cfg = Config.decided := by decide

/-- OUT_CAP = 16: 1 by 17 does not fit, 4 by 4 does, 0 by 255 is empty. -/
theorem witness_HeightmapHeadersAreRead :
    let s := layers .hmDim 0
    s.win.outCap.toNat < (1 : Byte).toNat * (17 : Byte).toNat ∧
      (4 : Byte).toNat * (4 : Byte).toNat ≤ s.win.outCap.toNat ∧ 0 < (4 : Byte).toNat * (4 : Byte).toNat ∧
      (0 : Byte).toNat * (255 : Byte).toNat = 0 ∧ s.tm.t < 2 ^ 32 ∧ (s.p + 23) / 8 < 2 ^ 32 ∧ s.cfg = Config.decided ∧
      (0 < 1 ∨ (0 : Byte) ≠ 0) ∧ (0 < 0 ∨ (1 : Byte) ≠ 0) := by decide

theorem witness_HeightmapCellsTakeThePattern :
    let full := { heights 0 with hm := { (heights 0).hm with j := 16 } }
    let s := { heights 0 with hm := { (heights 0).hm with j := 15 } }
    full.win.outCap.toNat ≤ full.hm.j ∧ s.hm.j < s.win.outCap.toNat ∧ s.tm.t < 2 ^ 32 ∧ (s.p + 7) / 8 < 2 ^ 32 := by
  decide

theorem witness_TilemapResultsArePacked :
    let small := (layers .none 0).tm
    let large := { (layers .none 0).tm with w := 256, l := 256 }
    1 ≤ small.w ∧ small.w ≤ 256 ∧ 1 ≤ small.l ∧ small.l ≤ 256 ∧ 1 ≤ large.w ∧ large.w ≤ 256 ∧ 1 ≤ large.l ∧
      large.l ≤ 256 := by decide

theorem witness_SubframeHeadersAppendRecords : (sprite .sprHeader 0).cfg = Config.decided := by decide

/-- SP_O = 4, OUT_CAP = 16: six words fit, seven do not, and none always does. -/
theorem witness_ZeroFillWritesZeroBytes :
    let s := sprite .sprWord 0
    s.cfg = Config.decided ∧ s.win.outCap.toNat < s.sp.o + 2 * (7 : BitVec 12).toNat ∧ 0 < (7 : BitVec 12).toNat ∧
      s.sp.o + 2 * (6 : BitVec 12).toNat ≤ s.win.outCap.toNat ∧ (0 : BitVec 12).toNat = 0 := by decide

/-- SRC_LEN = 12 and SP_Q = 2: four words can be read; OUT_CAP = 10 leaves room for three. -/
theorem witness_RawWordsAreCopied :
    let s := sprite .sprWord 0
    let t := { s with win := { s.win with outCap := 10 } }
    s.cfg = Config.decided ∧ s.p = 8 * s.sp.q ∧
      (s.win.srcLen.toNat - (s.sp.q + 2)) / 2 < (5 : BitVec 12).toNat ∧
      (s.win.srcLen.toNat - (s.sp.q + 2)) / 2 ≤ (s.win.outCap.toNat - s.sp.o) / 2 ∧
      (t.win.outCap.toNat - t.sp.o) / 2 < (4 : BitVec 12).toNat ∧
      (t.win.outCap.toNat - t.sp.o) / 2 < (t.win.srcLen.toNat - (t.sp.q + 2)) / 2 ∧
      (4 : BitVec 12).toNat ≤ (s.win.srcLen.toNat - (s.sp.q + 2)) / 2 ∧
      (4 : BitVec 12).toNat ≤ (s.win.outCap.toNat - s.sp.o) / 2 := by decide

theorem witness_SubStreamsBeginAtTheControlWord : (sprite .sprWord 0).cfg = Config.decided := by decide

theorem witness_StopBitEndsThePixelLoop :
    let s := { sprite .sprWord 0 with sp := { (sprite .none 0).sp with cw := 0x4000 } }
    s.sp.cw = sprWord false true false false 0 ∧ s.sp.o < 2 ^ 32 ∧ s.sp.q < 2 ^ 32 ∧ s.sp.need < 2 ^ 32 ∧
      s.sp.nsf < 2 ^ 32 ∧ (sprite .sprWord 0).sp.cw = sprWord false false false false 0 := by decide

theorem witness_FaultEntryEndsTheJob : (small .btCount 2 0).p < 2 ^ 32 ∧ (small .btCount 2 0).sched = [] := by decide

theorem witness_StatusAndControlReadAsPacked : 0x28 ≤ 0x28 ∧ 0x28 ≤ 0x29 := by decide

theorem witness_HostWritesReachTheirTarget :
    (idle []).win.engine ≠ .busy ∧ (0x0C = 0x00 → (7 : Word32).getLsbD 8 = false) ∧
      (0x09 = 0x00 → (7 : Word32).getLsbD 8 = false) ∧ (0x00 = 0x00 → (3 : Word32).getLsbD 8 = false) := by decide

theorem witness_WindowWritesWhileBusyAreIgnored :
    let s := { small .btCount 4 0 with sched := [.host (.writeWindow 0 0x100)] }
    s.win.engine = .busy ∧ s.sched = .host (.writeWindow 0 0x100) :: [] := by decide

theorem witness_EngineStateChangesAsListed :
    (∃ t, step { small .btCount 4 0 with sched := [.host .reset] } = .next t ∧ t.win.engine ≠ .busy) ∧
      (∃ t, step (idle [.host (.writeWindow 0 0x100)]) = .next t ∧ t.win.engine ≠ .idle) ∧
      ∃ t, step (heights 1) = .next t ∧ t.win.engine ≠ .busy :=
  ⟨⟨_, rfl, by decide⟩, ⟨_, rfl, by decide⟩, ⟨_, rfl, by decide⟩⟩

theorem witness_LayersAreTheHalvesOfTheBuffer :
    let t := layers .none 0
    let s :=
      { t with
        win := { t.win with
          engine := .done, resultGeom := t.tm.geom, resultCount := 4, resultAux := 6
          resultAux2 := HmRegs.dims { t.hm with w := 2, h := 3 } }
        jobCodec := 2, hm := { t.hm with w := 2, h := 3 } }
    s.win.engine = .done ∧ s.jobCodec = 2 ∧ 1 ≤ s.tm.w ∧ s.tm.w ≤ 256 ∧ 1 ≤ s.tm.l ∧ s.tm.l ≤ 256 ∧
      s.win.resultGeom = s.tm.geom ∧ s.win.resultCount.toNat = s.tm.w * (2 * s.tm.l) ∧ 1 < s.tm.w ∧ 0 < s.tm.l ∧
      s.win.resultAux2 = s.hm.dims ∧ s.win.resultAux.toNat = s.hm.w.toNat * s.hm.h.toNat ∧ 1 < s.hm.w.toNat ∧
      2 < s.hm.h.toNat := by
  decide

theorem witness_BlockResetClearsTheWindow :
    { small .btCount 4 0 with sched := [.host .reset] }.sched = .host .reset :: [] ∧ (0x24 % 4 = 0 ∨ 0x28 ≤ 0x24) ∧
      (0x29 % 4 = 0 ∨ 0x28 ≤ 0x29) := by decide

theorem witness_StartSetsTheJobStartValues :
    (idle []).win.engine ≠ .busy ∧ (0x102 : Word32).getLsbD 8 = true ∧ 15 < (idle []).win.outCap.toNat := by decide

theorem witness_NoValueSurvivesIntoTheNextJob :
    let s := idle []
    let s' :=
      { s with
        win := { s.win with engine := .done, resultCount := 7 }, p := 40, lz := { s.lz with out := 7 }
        mem := { s.mem with out := (Memory.zeros 0 16).write 3 9 } }
    s.win.engine ≠ .busy ∧ s'.win.engine ≠ .busy ∧ (0x100 : Word32).getLsbD 8 = true ∧ s.cfg = s'.cfg ∧
      s.mem.src = s'.mem.src ∧ s.win.srcLen = s'.win.srcLen ∧ s.win.outCap = s'.win.outCap ∧ s.stamp = s'.stamp ∧
      s.sched = s'.sched ∧ (∃ t, s.writeWindow 0x00 0x100 = .next t) ∧ ∃ t, s'.writeWindow 0x00 0x100 = .next t :=
  ⟨by decide, by decide, by decide, rfl, rfl, rfl, rfl, rfl, rfl, ⟨_, rfl⟩, ⟨_, rfl⟩⟩

theorem witness_WaitingStatesHoldEverything : (idle []).win.engine ≠ .busy ∧ (idle []).sched = [] := by decide

theorem witness_MemoryStaysCanonical :
    (heights 1).mem.wf = true ∧ ∃ t, step (heights 1) = .next t := ⟨by decide, ⟨_, rfl⟩⟩

/-! ### States of the job invariant -/

/-- A BTD job at its first token, 4N = 16 being all that OUT_CAP has room for. -/
def counting : State :=
  { small .btCount 2 4 with jobCodec := 1 }

/-- A BTD job whose first token asks for too much. -/
def countingPastTheEnd : State :=
  { small .btCount 2 5 with jobCodec := 1 }

theorem witness_jobInv_counting : JobInv counting :=
  ⟨rfl, fun _ => rfl, ⟨fun _ => by decide, fun _ => rfl⟩, fun _ => by decide, ⟨rfl, rfl⟩⟩

theorem witness_jobInv_countingPastTheEnd : JobInv countingPastTheEnd :=
  ⟨rfl, fun _ => rfl, ⟨fun _ => by decide, fun _ => rfl⟩, fun _ => by decide, ⟨rfl, rfl⟩⟩

theorem witness_TokensFaultOnlyAsTheirRulesSay :
    JobInv countingPastTheEnd ∧ countingPastTheEnd.win.engine = .busy ∧
      countingPastTheEnd.fetch = .instr (.btCount 5) ∧
      ∃ t, exec (.btCount 5) countingPastTheEnd = .next t ∧ t.win.engine = .fault :=
  ⟨witness_jobInv_countingPastTheEnd, rfl, rfl, ⟨_, rfl, rfl⟩⟩

theorem witness_JobInvariantIsKept : JobInv counting ∧ ∃ t, step counting = .next t :=
  ⟨witness_jobInv_counting, ⟨_, rfl⟩⟩

theorem witness_DecTurnsAlwaysGoOn : JobInv counting ∧ counting.win.engine = .busy :=
  ⟨witness_jobInv_counting, rfl⟩

theorem witness_EveryJobEnds : JobInv counting ∧ counting.sched = [] :=
  ⟨witness_jobInv_counting, rfl⟩

theorem witness_CursorMovesOverTheToken :
    (JobInv counting ∧ counting.win.engine = .busy ∧ counting.fetch = .instr (.btCount 4) ∧
      ∃ t, decStep counting = .next t ∧ t.win.engine ≠ .fault) ∧
    JobInv countingPastTheEnd ∧ countingPastTheEnd.win.engine = .busy ∧ ∃ t, decStep countingPastTheEnd = .next t :=
  ⟨⟨witness_jobInv_counting, rfl, rfl, ⟨_, rfl, by decide⟩⟩, witness_jobInv_countingPastTheEnd, rfl, ⟨_, rfl⟩⟩

/-- A BTD job in its last mask position, or at its last pair. -/
def lastPlace (ph : Phase) : State :=
  { small ph 2 0 with
    jobCodec := 1, bt := { State.reset.bt with n := 4, total := 16, pos := 15, k := 7, occ := 16 } }

/-- A TMD job of one layer row of two cells, at its last cell. -/
def lastCell (ph : Phase) : State :=
  { layers ph 3 with jobCodec := 2, tm := { (layers .none 3).tm with pc := 3, i := 3 } }

theorem witness_RegistersFitTheirWidths_lz : JobInv { copyingBack 16 with lz := { (copyingBack 16).lz with base := 0 } } :=
  ⟨rfl, fun _ => rfl, ⟨fun _ => by decide, fun _ => rfl⟩, fun _ => by decide,
    ⟨rfl, rfl, by decide, rfl, by decide⟩⟩

theorem witness_RegistersFitTheirWidths_mask : JobInv (lastPlace .btSkip) ∧ (lastPlace .btSkip).win.engine = .busy :=
  ⟨⟨rfl, fun _ => rfl, ⟨fun _ => by decide, fun _ => rfl⟩, fun _ => by decide, ⟨rfl, rfl, by decide, by decide⟩⟩, rfl⟩

theorem witness_RegistersFitTheirWidths_pair : JobInv (lastPlace .btIndex) ∧ (lastPlace .btIndex).win.engine = .busy :=
  ⟨⟨rfl, fun _ => rfl, ⟨fun _ => by decide, fun _ => rfl⟩, fun _ => by decide,
    ⟨rfl, rfl, by decide, by decide, by decide⟩⟩, rfl⟩

theorem witness_geometry (ph : Phase) : Geometry (lastCell ph) :=
  have inRange : 1 ≤ 2 ∧ 2 ≤ 256 ∧ 1 ≤ 1 ∧ 1 ≤ 256 ∧ 2 = 2 * 1 ∧ 4 = 2 * 2 ∧ 4 ≤ (16 : Word32).toNat := by decide
  inRange

theorem witness_RegistersFitTheirWidths_propagation :
    JobInv (lastCell .tmPropA) ∧ (lastCell .tmPropA).win.engine = .busy :=
  ⟨⟨rfl, fun _ => rfl, ⟨fun _ => by decide, fun _ => rfl⟩, fun _ => by decide,
    ⟨rfl, witness_geometry _, by decide, by decide, by decide⟩⟩, rfl⟩

theorem witness_RegistersFitTheirWidths_geometry :
    (JobInv (lastCell .tmTdict) ∧ (lastCell .tmTdict).win.engine = .busy) ∧
      JobInv (lastCell .tmOdict) ∧ JobInv (lastCell .tmAlign) ∧ JobInv (lastCell .hmDim) :=
  ⟨⟨⟨rfl, fun _ => rfl, ⟨fun _ => by decide, fun _ => rfl⟩, fun _ => by decide, ⟨rfl, witness_geometry _⟩⟩, rfl⟩,
    ⟨rfl, fun _ => rfl, ⟨fun _ => by decide, fun _ => rfl⟩, fun _ => by decide, ⟨rfl, witness_geometry _⟩⟩,
    ⟨rfl, fun _ => rfl, ⟨fun _ => by decide, fun _ => rfl⟩, fun _ => by decide, ⟨rfl, witness_geometry _⟩⟩,
    ⟨rfl, fun _ => rfl, ⟨fun _ => by decide, fun _ => rfl⟩, fun _ => by decide, ⟨rfl, witness_geometry _, rfl⟩⟩⟩

theorem witness_RegistersFitTheirWidths_cell : JobInv (lastCell .tmCell) ∧ (lastCell .tmCell).win.engine = .busy :=
  ⟨⟨rfl, fun _ => rfl, ⟨fun _ => by decide, fun _ => rfl⟩, fun _ => by decide,
    ⟨rfl, witness_geometry _, by decide, by decide⟩⟩, rfl⟩

theorem witness_RegistersFitTheirWidths_heightmap :
    JobInv { heights 1 with jobCodec := 2 } ∧ (heights 1).win.engine = .busy :=
  ⟨⟨rfl, fun _ => rfl, ⟨fun _ => by decide, fun _ => rfl⟩, fun _ => by decide,
    ⟨rfl, ⟨by decide, by decide, by decide, by decide, rfl, rfl, by decide⟩, rfl, by decide, by decide⟩⟩, rfl⟩

theorem witness_TokensLeaveTheInterfaceAlone : ∃ t, exec (.btCount 4) counting = .next t := ⟨_, rfl⟩

/-- SRC_LEN = 2, and another byte at index 2. -/
theorem witness_DecReadsOnlyTheGivenInput :
    (∀ i, i < counting.win.srcLen.toNat →
      ((srcOfNat 2 4).write 2 9).read (Config.freeBits 8 tagSrc) i = counting.srcByte i) ∧
      ((srcOfNat 2 4).write 2 9).get? 2 = some 9 ∧ counting.mem.src.get? 2 = none := by decide

end Sys2Proof.Tests
end

section
/-! No token changes the inputs, and none changes the window but by ending the job (O59). What a token may not change is
one value, `State.interface`. Each operation of the model either keeps it or ends the job, said once per operation; each
token is then a composition of such operations. -/

namespace Sys2Proof.Machine

/-! ## The interface of a state -/

/-- What HOST gives a job and reads of it: SRC, the register window, the latched codec, the parameters and the turns to
come. -/
structure Interface where
  src : Memory Byte
  win : Window
  jobCodec : BitVec 2
  cfg : Params
  sched : List Turn

def State.interface (s : State) : Interface where
  src := s.mem.src
  win := s.win
  jobCodec := s.jobCodec
  cfg := s.cfg
  sched := s.sched

/-- The state t has the inputs of `i`, and its window too, unless a job has ended in t. -/
structure LeavesInterface (i : Interface) (t : State) : Prop where
  src : t.mem.src = i.src
  srcLen : t.win.srcLen = i.win.srcLen
  outCap : t.win.outCap = i.win.outCap
  codec : t.win.codec = i.win.codec
  jobCodec : t.jobCodec = i.jobCodec
  cfg : t.cfg = i.cfg
  sched : t.sched = i.sched
  window : t.win = i.win ∨ t.phase = .none ∧ (t.win.engine = .done ∨ t.win.engine = .fault)

/-- An effect that keeps the whole interface, in the state it reaches or raises its fault from. -/
def EffectKeeps (i : Interface) : Effect → Prop
  | .ok t => t.interface = i
  | .error e => e.2.interface = i

/-- An effect that may end the job, but raises a fault only with the interface kept so far. -/
def EffectLeaves (i : Interface) : Effect → Prop
  | .ok t => LeavesInterface i t
  | .error e => e.2.interface = i

/-- Every next state this answer can be leaves the interface alone. -/
def AnswerLeaves (i : Interface) (a : Answer) : Prop :=
  ∀ t, a = .next t → LeavesInterface i t

/-! ## How the predicates compose -/

theorem leavesInterface_of_eq {i : Interface} {t : State} (h : t.interface = i) : LeavesInterface i t := by
  subst h
  exact ⟨rfl, rfl, rfl, rfl, rfl, rfl, rfl, .inl rfl⟩

theorem EffectKeeps.ok {i : Interface} {r : Effect} {t : State} (h : EffectKeeps i r) (e : r = .ok t) :
    t.interface = i := by
  subst e; exact h

theorem EffectKeeps.error {i : Interface} {r : Effect} {f : Trap × State} (h : EffectKeeps i r) (e : r = .error f) :
    f.2.interface = i := by
  subst e; exact h

theorem effectLeaves_ok {i : Interface} {t : State} (h : LeavesInterface i t) : EffectLeaves i (.ok t) :=
  h

theorem EffectKeeps.leaves {i : Interface} {r : Effect} (h : EffectKeeps i r) : EffectLeaves i r :=
  match r, h with
  | .ok _, h => leavesInterface_of_eq h
  | .error _, h => h

/-- Fault entry changes STATUS, FAULT_POS and the results, and ends the job (60_exceptions.md R349). -/
theorem raise_leaves {i : Interface} {s : State} (h : s.interface = i) (f : Trap) : LeavesInterface i (s.raise f) := by
  subst h
  exact ⟨rfl, rfl, rfl, rfl, rfl, rfl, rfl, .inr ⟨rfl, .inr rfl⟩⟩

/-- The end of a job changes STATUS and the results (70_reset_and_hazards.md R384). -/
theorem finishJob_leaves {i : Interface} {s : State} (h : s.interface = i) (count consumed aux : Nat)
    (geom aux2 : Word32) : LeavesInterface i (s.finishJob count consumed aux geom aux2) := by
  subst h
  exact ⟨rfl, rfl, rfl, rfl, rfl, rfl, rfl, .inr ⟨rfl, .inl rfl⟩⟩

theorem answerLeaves_next {i : Interface} {t : State} (h : LeavesInterface i t) : AnswerLeaves i (.next t) := by
  rintro _ ⟨⟩
  exact h

theorem answerLeaves_settle {i : Interface} {r : Effect} (h : EffectLeaves i r) : AnswerLeaves i (settle r) := by
  intro t ht
  obtain rfl | ⟨f, u, rfl, rfl⟩ := settle_cases ht
  · exact h
  · exact raise_leaves h f

/-! ## Reads and writes -/

theorem advance_interface (s : State) (n : Nat) : (s.advance n).interface = s.interface := rfl

theorem setBt_interface (s : State) (b : BtRegs) : { s with bt := b }.interface = s.interface := rfl

theorem takeVarint_keeps (s : State) (c : VarCode) : EffectKeeps s.interface (s.takeVarint c) := by
  obtain ⟨-, e⟩ | ⟨-, e⟩ := takeVarint_cases s c <;> rw [e] <;> rfl

theorem memRead_interface {s t : State} {q n v : Nat} (h : s.memRead q n = .ok (v, t)) :
    t.interface = s.interface := by
  unfold State.memRead at h
  split at h
  · cases h
  · cases h; rfl

theorem outWrite_keeps (s : State) (i : Nat) (v : Byte) (pos : Nat) : EffectKeeps s.interface (s.outWrite i v pos) := by
  unfold State.outWrite; split <;> rfl

theorem tmWrite_keeps (s : State) (i : Nat) (v : Half) (pos : Nat) : EffectKeeps s.interface (s.tmWrite i v pos) := by
  unfold State.tmWrite; split <;> rfl

theorem hmWrite_keeps (s : State) (i : Nat) (v : Half) (pos : Nat) : EffectKeeps s.interface (s.hmWrite i v pos) := by
  unfold State.hmWrite; split <;> rfl

/-! ## LZD and the end of a control word -/

theorem takeCtl_interface (s : State) : s.takeCtl.interface = s.interface := by
  simp [State.interface]

theorem lzCopy_keeps {i : Interface} {s : State} (h : s.interface = i) (offset pos n : Nat) :
    EffectKeeps i (lzCopy offset pos n s) := by
  induction n generalizing s with
  | zero => exact h
  | succ n ih =>
    subst h
    have hw := outWrite_keeps s s.lz.out (s.outByte (s.lz.out - offset)) pos
    rw [lzCopy]
    split
    next t e =>
      have ht := hw.ok e
      exact ih ht
    next f e => exact hw.error e

theorem finishSprite_leaves {i : Interface} {s : State} (h : s.interface = i) : LeavesInterface i s.finishSprite :=
  finishJob_leaves h ..

theorem endWord_leaves {i : Interface} {s : State} (h : s.interface = i) : LeavesInterface i s.endWord := by
  unfold State.endWord
  split
  · exact finishSprite_leaves h
  · exact leavesInterface_of_eq h

theorem returnFromLz_leaves {i : Interface} {s : State} (h : s.interface = i) : EffectLeaves i s.returnFromLz := by
  simp only [State.returnFromLz]
  split
  · exact h
  · exact effectLeaves_ok (endWord_leaves h)

theorem endLz_leaves {i : Interface} {s : State} (h : s.interface = i) : EffectLeaves i s.endLz := by
  unfold State.endLz
  split
  · exact returnFromLz_leaves h
  · exact effectLeaves_ok (finishJob_leaves h ..)

theorem execLzCtrl_leaves (c : Byte) (s : State) : AnswerLeaves s.interface (execLzCtrl c s) :=
  answerLeaves_next (leavesInterface_of_eq rfl)

theorem execLzLit_leaves (lit : Byte) (s : State) : AnswerLeaves s.interface (execLzLit lit s) := by
  have ht : (s.advance 8).takeCtl.interface = s.interface := takeCtl_interface _
  have hw := outWrite_keeps (s.advance 8).takeCtl (s.advance 8).takeCtl.lz.out lit s.p
  rw [ht] at hw
  apply answerLeaves_settle
  split
  next u e =>
    have hu := hw.ok e
    exact leavesInterface_of_eq hu
  next f e => exact hw.error e

theorem execLzRef_leaves (offset : BitVec 12) (lcode : BitVec 4) (s : State) :
    AnswerLeaves s.interface (execLzRef offset lcode s) := by
  have ht : (s.advance 16).takeCtl.interface = s.interface := takeCtl_interface _
  apply answerLeaves_settle
  split
  · exact ht
  · exact (lzCopy_keeps ht ..).leaves

theorem execLzEnd_leaves (lcode : BitVec 4) (s : State) : AnswerLeaves s.interface (execLzEnd lcode s) := by
  have ht : (s.advance 16).takeCtl.interface = s.interface := takeCtl_interface _
  apply answerLeaves_settle
  split
  · exact endLz_leaves ht
  · split
    · exact endLz_leaves ht
    · split
      next => exact ht
      next c u e => exact endLz_leaves ((memRead_interface e).trans ht)

/-! ## BTD -/

theorem finishBigTiles_leaves {i : Interface} {s : State} (h : s.interface = i) :
    LeavesInterface i s.finishBigTiles :=
  finishJob_leaves h ..

theorem beginPairs_leaves {i : Interface} {s : State} (h : s.interface = i) : LeavesInterface i s.beginPairs := by
  simp only [State.beginPairs]
  split
  · exact finishBigTiles_leaves h
  · exact leavesInterface_of_eq h

theorem beginMasks_leaves {i : Interface} {s : State} (h : s.interface = i) : LeavesInterface i s.beginMasks := by
  unfold State.beginMasks
  split
  · exact beginPairs_leaves h
  · exact leavesInterface_of_eq h

theorem nextMask_leaves {i : Interface} {s : State} (h : s.interface = i) : LeavesInterface i s.nextMask := by
  unfold State.nextMask
  split
  · exact leavesInterface_of_eq h
  · exact leavesInterface_of_eq h
  · exact beginPairs_leaves h

theorem afterSkip_leaves {i : Interface} {s : State} (h : s.interface = i) : LeavesInterface i s.afterSkip := by
  unfold State.afterSkip
  split
  · exact nextMask_leaves h
  · exact leavesInterface_of_eq h

theorem afterApply_leaves {i : Interface} {s : State} (h : s.interface = i) : LeavesInterface i s.afterApply := by
  unfold State.afterApply
  split
  · exact nextMask_leaves h
  · exact leavesInterface_of_eq h

theorem endPair_leaves {i : Interface} {s : State} (h : s.interface = i) : LeavesInterface i s.endPair := by
  simp only [State.endPair]
  split
  · exact leavesInterface_of_eq h
  · exact finishBigTiles_leaves h

theorem placeIndex_leaves {i : Interface} {s : State} (h : s.interface = i) (v : Half) :
    LeavesInterface i (s.placeIndex v) := by
  unfold State.placeIndex
  split
  · exact endPair_leaves h
  · exact leavesInterface_of_eq h

theorem skipTiles_leaves {i : Interface} {s : State} (h : s.interface = i) (n pos : Nat) :
    EffectLeaves i (s.skipTiles n pos) := by
  simp only [State.skipTiles]
  split
  · exact h
  · exact effectLeaves_ok (afterSkip_leaves h)

theorem execBtCount_leaves (n : Half) (s : State) : AnswerLeaves s.interface (execBtCount n s) := by
  apply answerLeaves_settle
  split
  · exact rfl
  · exact effectLeaves_ok (beginMasks_leaves rfl)

theorem execBtSkip0_leaves (c : VarCode) (s : State) : AnswerLeaves s.interface (execBtSkip0 c s) := by
  have hv := takeVarint_keeps s c
  apply answerLeaves_settle
  split
  next t e => exact skipTiles_leaves (hv.ok e) ..
  next f e => exact hv.error e

theorem execBtSkip_leaves (c : VarCode) (s : State) : AnswerLeaves s.interface (execBtSkip c s) := by
  have hv := takeVarint_keeps s c
  apply answerLeaves_settle
  split
  next t e => exact skipTiles_leaves (hv.ok e) ..
  next f e => exact hv.error e

theorem execBtApply_leaves (c : VarCode) (s : State) : AnswerLeaves s.interface (execBtApply c s) := by
  have hv := takeVarint_keeps s c
  apply answerLeaves_settle
  split
  next f e => exact hv.error e
  next t e =>
    have ht := hv.ok e
    dsimp only
    split
    · exact ht
    · exact effectLeaves_ok (afterApply_leaves ht)

theorem execBtIdxMtf_leaves (j : BitVec 4) (s : State) : AnswerLeaves s.interface (execBtIdxMtf j s) := by
  apply answerLeaves_settle
  split
  · split
    · exact rfl
    · exact effectLeaves_ok (placeIndex_leaves (advance_interface ..) _)
  · exact effectLeaves_ok (placeIndex_leaves (setBt_interface (s.advance 5) _) _)

theorem execBtIdxRaw_leaves (r : BitVec 11) (s : State) : AnswerLeaves s.interface (execBtIdxRaw r s) :=
  answerLeaves_next (placeIndex_leaves (setBt_interface (s.advance 12) _) _)

theorem execBtCompDer_leaves (s : State) : AnswerLeaves s.interface (execBtCompDer s) := by
  apply answerLeaves_next
  apply endPair_leaves
  cases s.cfg.btPushDerived <;> rfl

theorem execBtCompInd_leaves (s : State) : AnswerLeaves s.interface (execBtCompInd s) :=
  answerLeaves_next (leavesInterface_of_eq rfl)

/-! ## TMD, phase 1 -/

theorem nextCell_interface (s : State) : s.nextCell.interface = s.interface := by
  obtain ⟨-, e⟩ | ⟨-, -, -, e⟩ | ⟨-, -, e⟩ := nextCell_cases s <;> rw [e] <;> rfl

theorem beginFill_interface (s : State) : s.beginFill.interface = s.interface :=
  calc s.beginFill.interface
    _ = s.seedCounters.interface := nextCell_interface _
    _ = s.interface := by simp [State.interface]

theorem placeCommand_keeps (s : State) (v : Half) (pos : Nat) : EffectKeeps s.interface (s.placeCommand v pos) := by
  have hw := tmWrite_keeps { s with tm := { s.tm with v := v } } s.tm.c.toNat v pos
  simp only [State.placeCommand]
  split
  next t e =>
    have ht := hw.ok e
    exact ht
  next f e => exact hw.error e

theorem execTmHdr_leaves (left top wm1 hs : Byte) (s : State) :
    AnswerLeaves s.interface (execTmHdr left top wm1 hs s) := by
  apply answerLeaves_settle
  split
  · exact rfl
  · exact leavesInterface_of_eq rfl

theorem execTmTdict_leaves (b0 b1 : BitVec 10) (s : State) : AnswerLeaves s.interface (execTmTdict b0 b1 s) :=
  answerLeaves_next (leavesInterface_of_eq (by simp [State.interface]))

theorem execTmOdict_leaves (v6 v7 v8 v9 v10 v11 v12 v13 : BitVec 12) (s : State) :
    AnswerLeaves s.interface (execTmOdict v6 v7 v8 v9 v10 v11 v12 v13 s) :=
  answerLeaves_next (leavesInterface_of_eq rfl)

theorem execTmDelta_leaves (c : VarCode) (s : State) : AnswerLeaves s.interface (execTmDelta c s) := by
  have hv := takeVarint_keeps s c
  apply answerLeaves_settle
  split
  next t e =>
    have ht := hv.ok e
    exact leavesInterface_of_eq ht
  next f e => exact hv.error e

theorem execTmEnd_leaves (c : VarCode) (s : State) : AnswerLeaves s.interface (execTmEnd c s) := by
  have hv := takeVarint_keeps s c
  apply answerLeaves_settle
  split
  next t e =>
    have ht := hv.ok e
    exact leavesInterface_of_eq ((beginFill_interface _).trans ht)
  next f e => exact hv.error e

theorem execTmCmdS_leaves (c : BitVec 3) (s : State) : AnswerLeaves s.interface (execTmCmdS c s) :=
  answerLeaves_settle (placeCommand_keeps (s.advance 3) ..).leaves

theorem execTmCmdX_leaves (x : BitVec 1) (e : BitVec 2) (s : State) : AnswerLeaves s.interface (execTmCmdX x e s) :=
  answerLeaves_settle (placeCommand_keeps (s.advance 5) ..).leaves

theorem execTmPropRun_leaves (s : State) : AnswerLeaves s.interface (execTmPropRun s) :=
  answerLeaves_next (leavesInterface_of_eq rfl)

theorem execTmPropStop_leaves (s : State) : AnswerLeaves s.interface (execTmPropStop s) :=
  answerLeaves_next (leavesInterface_of_eq rfl)

theorem execTmPropCell_leaves (s : State) : AnswerLeaves s.interface (execTmPropCell s) := by
  apply answerLeaves_settle
  split
  · split
    · exact rfl
    · exact leavesInterface_of_eq rfl
  · split
    next t e =>
      have ht := (tmWrite_keeps ..).ok e
      exact leavesInterface_of_eq ht
    next f e =>
      have hf := (tmWrite_keeps ..).error e
      exact hf

theorem execTmPropEndrun_leaves (s : State) : AnswerLeaves s.interface (execTmPropEndrun s) :=
  answerLeaves_next (leavesInterface_of_eq rfl)

/-! ## TMD, phase 2 -/

theorem fillCell_keeps (s : State) (v : Half) (pos : Nat) : EffectKeeps s.interface (s.fillCell v pos) := by
  have hw := tmWrite_keeps s s.tm.i v pos
  unfold State.fillCell
  split
  next t e =>
    have ht := hw.ok e
    exact (nextCell_interface _).trans ht
  next f e => exact hw.error e

theorem execTmCopy_leaves (s : State) : AnswerLeaves s.interface (execTmCopy s) := by
  apply answerLeaves_settle
  split
  · exact rfl
  · split
    · exact rfl
    · exact (fillCell_keeps s.setMode ..).leaves

theorem execTmLitRaw_leaves (n v : Nat) (s : State) : AnswerLeaves s.interface (execTmLitRaw n v s) := by
  apply answerLeaves_settle
  split
  · exact rfl
  · exact (fillCell_keeps (s.advance (2 + n)).setMode ..).leaves

theorem execTmLitOfs_leaves (n v : Nat) (s : State) : AnswerLeaves s.interface (execTmLitOfs n v s) := by
  apply answerLeaves_settle
  split
  · exact rfl
  · exact (fillCell_keeps (s.advance (2 + n)).setMode ..).leaves

theorem execTmLitCnt0_leaves (s : State) : AnswerLeaves s.interface (execTmLitCnt0 s) := by
  have hf := fillCell_keeps (s.advance 2).setMode s.tm.c0 s.p
  apply answerLeaves_settle
  split
  next t e =>
    have ht := hf.ok e
    exact leavesInterface_of_eq ht
  next f e => exact hf.error e

theorem execTmLitCnt1_leaves (s : State) : AnswerLeaves s.interface (execTmLitCnt1 s) := by
  have hf := fillCell_keeps (s.advance 2).setMode s.tm.c1 s.p
  apply answerLeaves_settle
  split
  next t e =>
    have ht := hf.ok e
    exact leavesInterface_of_eq ht
  next f e => exact hf.error e

/-! ## TMD, alignment and the heightmap -/

theorem execTmAlign_leaves (pad : List Bool) (s : State) : AnswerLeaves s.interface (execTmAlign pad s) :=
  answerLeaves_next (leavesInterface_of_eq rfl)

theorem finishTilemap_leaves {i : Interface} {s : State} (h : s.interface = i) : LeavesInterface i s.finishTilemap :=
  finishJob_leaves h ..

theorem execHmDim_leaves (hw hh : Byte) (s : State) : AnswerLeaves s.interface (execHmDim hw hh s) := by
  apply answerLeaves_settle
  split
  · exact rfl
  · apply effectLeaves_ok
    split
    · exact finishTilemap_leaves rfl
    · exact leavesInterface_of_eq rfl

theorem execHmRun_leaves (pat : Half) (k : Nat) (last : Byte) (s : State) :
    AnswerLeaves s.interface (execHmRun pat k last s) := by
  apply answerLeaves_settle
  split
  · exact rfl
  · exact leavesInterface_of_eq rfl

theorem execHmCell_leaves (s : State) : AnswerLeaves s.interface (execHmCell s) := by
  have hw := hmWrite_keeps s s.hm.j s.hm.pat s.p
  apply answerLeaves_settle
  split
  next f e => exact hw.error e
  next t e =>
    have ht := hw.ok e
    apply effectLeaves_ok
    split
    · exact leavesInterface_of_eq ht
    · exact finishTilemap_leaves ht

/-! ## SPD -/

theorem addSubframe_keeps (s : State) (last : Bool) (y : BitVec 5) (w : BitVec 2) (r : Bool) (x : BitVec 5)
    (h : BitVec 2) : EffectKeeps s.interface (s.addSubframe last y w r x h) := by
  simp only [State.addSubframe]
  split
  · split <;> rfl
  · rfl

theorem takeWord_keeps (s : State) (cw : Half) (r : Bool) : EffectKeeps s.interface (s.takeWord cw r) := by
  simp only [State.takeWord]
  split
  · split <;> rfl
  · rfl

theorem zeroWords_keeps {i : Interface} {s : State} (h : s.interface = i) (pos n : Nat) :
    EffectKeeps i (zeroWords pos n s) := by
  induction n generalizing s with
  | zero => exact h
  | succ n ih =>
    rw [zeroWords]
    split
    next f e => exact ((outWrite_keeps ..).error e).trans h
    next t e =>
      have ht := ((outWrite_keeps ..).ok e).trans h
      split
      next f e => exact ((outWrite_keeps ..).error e).trans ht
      next u e =>
        have hu := ((outWrite_keeps ..).ok e).trans ht
        exact ih hu

theorem rawWords_keeps {i : Interface} {s : State} (h : s.interface = i) (pos n : Nat) :
    EffectKeeps i (rawWords pos n s) := by
  induction n generalizing s with
  | zero => exact h
  | succ n ih =>
    rw [rawWords]
    split
    next => exact h
    next wd s' e =>
      have hs := (memRead_interface e).trans h
      dsimp only
      split
      next f e =>
        have hf := (outWrite_keeps ..).error e
        exact hf.trans hs
      next t e =>
        have ht := (outWrite_keeps ..).ok e
        split
        next f e => exact ((outWrite_keeps ..).error e).trans (ht.trans hs)
        next u e =>
          have hu := ((outWrite_keeps ..).ok e).trans (ht.trans hs)
          exact ih hu

theorem execSprSf_leaves (y : BitVec 5) (w : BitVec 2) (r : Bool) (x : BitVec 5) (h : BitVec 2) (s : State) :
    AnswerLeaves s.interface (execSprSf y w r x h s) := by
  have ha := addSubframe_keeps s false y w r x h
  apply answerLeaves_settle
  split
  next t e =>
    have ht := ha.ok e
    exact leavesInterface_of_eq ht
  next f e => exact ha.error e

theorem execSprSfLast_leaves (y : BitVec 5) (w : BitVec 2) (r : Bool) (x : BitVec 5) (h : BitVec 2) (s : State) :
    AnswerLeaves s.interface (execSprSfLast y w r x h s) := by
  have ha := addSubframe_keeps s true y w r x h
  apply answerLeaves_settle
  split
  next t e =>
    have ht := ha.ok e
    exact leavesInterface_of_eq ht
  next f e => exact ha.error e

theorem execSprZero_leaves (stop l r : Bool) (count : BitVec 12) (s : State) :
    AnswerLeaves s.interface (execSprZero stop l r count s) := by
  have hw := takeWord_keeps s (sprWord true stop l r count) r
  apply answerLeaves_settle
  split
  next f e => exact hw.error e
  next t e =>
    have hz := zeroWords_keeps (hw.ok e) s.p (sprCount s.cfg count)
    split
    next f e => exact hz.error e
    next u e => exact effectLeaves_ok (endWord_leaves (hz.ok e))

theorem execSprLz_leaves (stop r : Bool) (count : BitVec 12) (s : State) :
    AnswerLeaves s.interface (execSprLz stop r count s) := by
  have hw := takeWord_keeps s (sprWord false stop true r count) r
  apply answerLeaves_settle
  split
  next f e => exact hw.error e
  next t e =>
    have ht := hw.ok e
    split <;> exact leavesInterface_of_eq ht

theorem execSprRaw_leaves (stop r : Bool) (count : BitVec 12) (s : State) :
    AnswerLeaves s.interface (execSprRaw stop r count s) := by
  have hw := takeWord_keeps s (sprWord false stop false r count) r
  apply answerLeaves_settle
  split
  next f e => exact hw.error e
  next t e =>
    have hr := rawWords_keeps (hw.ok e) s.p (sprCount s.cfg count)
    split
    next f e => exact hr.error e
    next u e => exact effectLeaves_ok (endWord_leaves (hr.ok e))

/-! ## Every token -/

theorem exec_leaves (i : Instr) (s : State) : AnswerLeaves s.interface (exec i s) :=
  match i with
  | .varint c => answerLeaves_settle (takeVarint_keeps s c).leaves
  | .lzCtrl c => execLzCtrl_leaves c s
  | .lzLit lit => execLzLit_leaves lit s
  | .lzRef offset lcode => execLzRef_leaves offset lcode s
  | .lzEnd lcode => execLzEnd_leaves lcode s
  | .btCount n => execBtCount_leaves n s
  | .btSkip0 c => execBtSkip0_leaves c s
  | .btSkip c => execBtSkip_leaves c s
  | .btApply c => execBtApply_leaves c s
  | .btIdxMtf j => execBtIdxMtf_leaves j s
  | .btIdxRaw r => execBtIdxRaw_leaves r s
  | .btCompDer => execBtCompDer_leaves s
  | .btCompInd => execBtCompInd_leaves s
  | .tmHdr left top wm1 hs => execTmHdr_leaves left top wm1 hs s
  | .tmTdict b0 b1 => execTmTdict_leaves b0 b1 s
  | .tmOdict v6 v7 v8 v9 v10 v11 v12 v13 => execTmOdict_leaves v6 v7 v8 v9 v10 v11 v12 v13 s
  | .tmDelta c => execTmDelta_leaves c s
  | .tmEnd c => execTmEnd_leaves c s
  | .tmCmdS c => execTmCmdS_leaves c s
  | .tmCmdX x e => execTmCmdX_leaves x e s
  | .tmPropRun => execTmPropRun_leaves s
  | .tmPropStop => execTmPropStop_leaves s
  | .tmPropCell => execTmPropCell_leaves s
  | .tmPropEndrun => execTmPropEndrun_leaves s
  | .tmCopy => execTmCopy_leaves s
  | .tmLitRaw n v => execTmLitRaw_leaves n v s
  | .tmLitOfs n v => execTmLitOfs_leaves n v s
  | .tmLitCnt0 => execTmLitCnt0_leaves s
  | .tmLitCnt1 => execTmLitCnt1_leaves s
  | .tmAlign pad => execTmAlign_leaves pad s
  | .hmDim hw hh => execHmDim_leaves hw hh s
  | .hmRun pat k last => execHmRun_leaves pat k last s
  | .hmCell => execHmCell_leaves s
  | .sprSf y w r x h => execSprSf_leaves y w r x h s
  | .sprSfLast y w r x h => execSprSfLast_leaves y w r x h s
  | .sprZero stop l r count => execSprZero_leaves stop l r count s
  | .sprLz stop r count => execSprLz_leaves stop r count s
  | .sprRaw stop r count => execSprRaw_leaves stop r count s

/-- Settles O59: each token is a composition of operations that keep the interface or end the job. -/
theorem tokensLeaveTheInterfaceAlone : Obligations.TokensLeaveTheInterfaceAlone := by
  intro s t i h
  obtain ⟨src, srcLen, outCap, codec, jobCodec, cfg, sched, window⟩ := exec_leaves i s t h
  exact ⟨src, srcLen, outCap, codec, jobCodec, cfg, sched, window⟩

end Sys2Proof.Machine
end

section
/-! The bit reader's three primitives (O5): ReadBit before and past the end of the input, PeekBit as a ReadBit that gives
its bit back, and Align as a move of p alone. -/

namespace Sys2Proof.Machine

/-! ## ReadBit and PeekBit -/

theorem readBit_of_lt {s : State} (h : s.p / 8 < s.win.srcLen.toNat) :
    s.readBit = .ok (s.srcBit s.p, { s with p := s.p + 1 }) :=
  if_neg (Nat.not_le.mpr h)

theorem readBit_of_le {s : State} (h : s.win.srcLen.toNat ≤ s.p / 8) : s.readBit = .error .unexpectedEndOfStream :=
  if_pos h

/-- PeekBit undoes ReadBit's move, and only that (R152). -/
theorem peekBit_of_readBit {s : State} {b : Bool} (h : s.readBit = .ok (b, { s with p := s.p + 1 })) :
    s.peekBit = .ok (b, s) := by
  simp [State.peekBit, h]

theorem peekBit_of_readBit_error {s : State} {f : FaultKind} (h : s.readBit = .error f) : s.peekBit = .error f := by
  simp [State.peekBit, h]

/-! ## Align -/

/-- Setting the low three bits of p moves it to the last bit of its byte. -/
theorem or_seven_eq (p : Nat) : p ||| 7 = 8 * (p / 8) + 7 := by
  have low : ∀ r < 8, r ||| 7 = 7 := by decide
  have join (r : Nat) (hr : r < 8) : 8 * (p / 8) + r = 8 * (p / 8) ||| r :=
    Nat.two_pow_add_eq_or_of_lt (i := 3) hr (p / 8)
  have hr : p % 8 < 8 := Nat.mod_lt p (by decide)
  calc p ||| 7 = (8 * (p / 8) + p % 8) ||| 7 := by rw [Nat.div_add_mod]
    _ = 8 * (p / 8) ||| (p % 8 ||| 7) := by rw [join _ hr, Nat.or_assoc]
    _ = 8 * (p / 8) + 7 := by rw [low _ hr, ← join 7 (by decide)]

theorem alignedPos_of_unaligned (cfg : Params) {p : Nat} (h : p % 8 ≠ 0) : alignedPos cfg p = (p ||| 7) + 1 := by
  have boundary : alignedPos cfg p = (p / 8 + 1) * 8 := if_pos h
  rw [boundary, or_seven_eq]
  omega

/-- At a byte boundary the parameter ALIGN_WHEN_ALIGNED decides (D12). -/
theorem alignedPos_of_aligned {cfg : Params} {p : Nat} (hc : cfg.alignWhenAligned = .noop) (h : p % 8 = 0) :
    alignedPos cfg p = p := by
  simp [alignedPos, h, hc]

theorem align_of_unaligned {s : State} (h : s.p % 8 ≠ 0) : s.align = { s with p := (s.p ||| 7) + 1 } := by
  rw [State.align, alignedPos_of_unaligned s.cfg h]

theorem align_of_aligned {s : State} (hc : s.cfg.alignWhenAligned = .noop) (h : s.p % 8 = 0) : s.align = s := by
  rw [State.align, alignedPos_of_aligned hc h]

/-- Settles O5, by the side of the end of the input that p is on, and by whether p is at a byte boundary. -/
theorem bitReaderPrimitives : Obligations.BitReaderPrimitives := by
  intro s
  refine ⟨fun inside => ?_, fun past => ?_, fun _ unaligned => align_of_unaligned unaligned, fun decided aligned => ?_⟩
  · have read := readBit_of_lt inside
    exact ⟨read, peekBit_of_readBit read⟩
  · have read := readBit_of_le past
    exact ⟨read, peekBit_of_readBit_error read⟩
  · exact align_of_aligned (by rw [decided]; rfl) aligned

end Sys2Proof.Machine
end

section
/-! The move-to-front queue's two operations (O21): what each leaves in Q[0] and in the entries behind it, and
MoveToFront as one entry taken out of the list and put before the rest. -/

namespace Sys2Proof.Machine

/-! ## PushFront -/

theorem pushFront_eq (b : BtRegs) (v : Half) :
    b.pushFront v = { b with q := (b.pushFront v).q, occ := min (b.occ + 1) 16 } := rfl

@[simp] theorem pushFront_q_zero (b : BtRegs) (v : Half) : (b.pushFront v).q[0] = v :=
  Vector.getElem_ofFn _

theorem pushFront_q_succ (b : BtRegs) (v : Half) {j : Nat} (hj : j + 1 < 16) :
    (b.pushFront v).q[j + 1] = if j + 1 ≤ min b.occ 15 then b.q[j]'(by omega) else b.q[j + 1] :=
  Vector.getElem_ofFn hj

/-! ## MoveToFront -/

theorem moveToFront_eq (b : BtRegs) (i : BitVec 4) : b.moveToFront i = { b with q := (b.moveToFront i).q } := rfl

@[simp] theorem moveToFront_q_zero (b : BtRegs) (i : BitVec 4) : (b.moveToFront i).q[0] = b.q[i.toNat]'i.isLt :=
  Vector.getElem_ofFn _

theorem moveToFront_q_succ (b : BtRegs) (i : BitVec 4) {j : Nat} (hj : j + 1 < 16) :
    (b.moveToFront i).q[j + 1] = if j + 1 ≤ i.toNat then b.q[j]'(by omega) else b.q[j + 1] :=
  Vector.getElem_ofFn hj

theorem moveToFront_q_toList (b : BtRegs) (i : BitVec 4) :
    (b.moveToFront i).q.toList = b.q[i.toNat]'i.isLt :: b.q.toList.eraseIdx i.toNat := by
  have hi : i.toNat < 16 := i.isLt
  refine List.ext_getElem (by simp [List.length_eraseIdx, hi]) fun j hj _ => ?_
  rw [Vector.length_toList] at hj
  cases j with
  | zero => simp
  | succ j =>
    by_cases before : j < i.toNat <;>
      simp [moveToFront_q_succ b i hj, List.getElem_eraseIdx, before]

/-- No entry is lost or doubled: an entry taken out and put in front is a permutation. -/
theorem moveToFront_q_perm (b : BtRegs) (i : BitVec 4) : (b.moveToFront i).q.toList.Perm b.q.toList := by
  rw [moveToFront_q_toList]
  exact List.getElem_cons_eraseIdx_perm (l := b.q.toList) (by simpa using i.isLt)

theorem moveToFront_zero (b : BtRegs) : b.moveToFront 0 = b := by
  have same : (b.moveToFront 0).q = b.q := by
    ext1 j hj
    cases j with
    | zero => exact moveToFront_q_zero b 0
    | succ j => exact (moveToFront_q_succ b 0 hj).trans (if_neg (Nat.not_succ_le_zero j))
  rw [moveToFront_eq, same]

/-- Settles O21, entry by entry for both operations. -/
theorem queueOperationsReorderEntries : Obligations.QueueOperationsReorderEntries := by
  refine ⟨fun b v => ⟨pushFront_eq b v, pushFront_q_zero b v, fun _ => pushFront_q_succ b v⟩, fun b i => ?_⟩
  exact ⟨moveToFront_eq b i, moveToFront_q_zero b i, fun _ => moveToFront_q_succ b i, moveToFront_q_perm b i,
    moveToFront_zero b⟩

end Sys2Proof.Machine
end

section
/-! The waiting states (O51): a turn of DEC outside BUSY leaves the state as it is, and a state that its step leaves as it
is stays through every number of steps. -/

namespace Sys2Proof.Machine

/-! ## One turn -/

theorem decStep_of_not_busy {s : State} (waiting : s.win.engine ≠ .busy) : decStep s = .next s :=
  if_neg waiting

theorem step_of_sched_nil {s : State} (decAlone : s.sched = []) : step s = decStep s := by
  simp only [step, decAlone]

/-! ## A run of turns -/

theorem run_succ_of_step {M : Host.Core} {s t : M.State} (h : M.step s = .next t) (n : Nat) :
    M.run (n + 1) s = M.run n t := by
  simp only [Host.Core.run, h]

theorem run_of_step_self {M : Host.Core} {s : M.State} (fixed : M.step s = .next s) (n : Nat) :
    M.run n s = .next s := by
  induction n with
  | zero => rfl
  | succ n ih => exact (run_succ_of_step fixed n).trans ih

/-- Settles O51: with DEC alone on the schedule, a waiting state is a fixed point of step. -/
theorem waitingStatesHoldEverything : Obligations.WaitingStatesHoldEverything := by
  intro s n waiting decAlone
  have fixed : step s = .next s := (step_of_sched_nil decAlone).trans (decStep_of_not_busy waiting)
  exact run_of_step_self (M := core) fixed n

end Sys2Proof.Machine
end

section
/-! Reading a token inverts writing it, and reads nothing else (O1, O2), at each point of the grammar; the rules'
example words (O3); and the range of the coded numbers (O4). -/

namespace Sys2Proof

/-! ## Reading what was written -/

theorem ok_bind {α β : Type} (a : α) (f : α → Except DecodeError β) : (Except.ok a >>= f) = f a := rfl

theorem readFlag_cons (b : Bool) (bits : List Bool) : readFlag (b :: bits) = .ok (b, bits) := rfl

theorem decodeLzPair_bits (offset : BitVec 12) (lcode : BitVec 4) (rest : List Bool) :
    decodeLzPair (lzPairBits offset lcode ++ rest) =
      .ok (if offset = 0 then .lzEnd lcode else .lzRef offset lcode, rest) := by
  simp only [decodeLzPair, lzPairBits, List.append_assoc, readField_fieldBits, ok_bind]
  rw [offset_halves]

/-- The 3 bits of an extended command are 11 and the low bit of c (30_encoding.md R140). -/
theorem extendedCommand_bits (x : BitVec 1) :
    ∃ c : BitVec 3, ¬c.toNat ≤ 5 ∧ c.setWidth 1 = x ∧ fieldBits c = true :: true :: fieldBits x := by
  revert x; decide

theorem bits_of_extendedCommand {c : BitVec 3} (h : ¬c.toNat ≤ 5) :
    fieldBits c = true :: true :: fieldBits (c.setWidth 1) := by
  revert c; decide

theorem decodeTmCmd_short {c : BitVec 3} (h : c.toNat ≤ 5) (rest : List Bool) :
    decodeTmCmd (fieldBits c ++ rest) = .ok (.tmCmdS c, rest) := by
  simp only [decodeTmCmd, readField_fieldBits, ok_bind, if_pos h]

theorem decodeTmCmd_extended (x : BitVec 1) (e : BitVec 2) (rest : List Bool) :
    decodeTmCmd (true :: true :: (fieldBits x ++ fieldBits e) ++ rest) = .ok (.tmCmdX x e, rest) := by
  obtain ⟨c, high, rfl, bits⟩ := extendedCommand_bits x
  rw [← List.cons_append, ← List.cons_append, ← bits, List.append_assoc]
  simp only [decodeTmCmd, readField_fieldBits, ok_bind, if_neg high]

theorem decodeSprHeader_bits (s : Bool) (y : BitVec 5) (w : BitVec 2) (r : Bool) (x : BitVec 5) (h : BitVec 2)
    (rest : List Bool) :
    decodeSprHeader (sprHeaderBits s y w r x h ++ rest) =
      .ok (if s then .sprSfLast y w r x h else .sprSf y w r x h, rest) := by
  simp only [decodeSprHeader, sprHeaderBits, List.cons_append, List.append_assoc, readFlag_cons, readField_fieldBits,
    ok_bind]

theorem decodeSprWord_bits (z s l r : Bool) (count : BitVec 12) (rest : List Bool) :
    decodeSprWord (sprWordBits z s l r count ++ rest) =
      .ok (if z then .sprZero s l r count else if l then .sprLz s r count else .sprRaw s r count, rest) := by
  simp only [decodeSprWord, sprWordBits, List.cons_append, readFlag_cons, readField_fieldBits, ok_bind]

/-- The reads of a token's encoding, field by field: the equations that invert `encode`. -/
theorem decode_encode {cfg : Params} {want : Expect} {i : Instr} (wf : i.wf cfg = true)
    (offered : want.offers i = true) (rest : List Bool) : decode cfg want (encode i ++ rest) = .ok (i, rest) := by
  cases want with
  | varint => cases i with
    | varint c => simp only [decode, encode, readVar_bits (show c.wf cfg = true from wf), ok_bind]
    | _ => cases offered
  | lzCtrl => cases i with
    | lzCtrl c => simp only [decode, encode, readField_fieldBits, ok_bind]
    | _ => cases offered
  | lzLit => cases i with
    | lzLit lit => simp only [decode, encode, readField_fieldBits, ok_bind]
    | _ => cases offered
  | lzPair => cases i with
    | lzRef offset lcode =>
      have h0 : offset ≠ 0 := of_decide_eq_true wf
      exact (decodeLzPair_bits ..).trans (by rw [if_neg h0])
    | lzEnd lcode => exact decodeLzPair_bits ..
    | _ => cases offered
  | btCount => cases i with
    | btCount n => simp only [decode, encode, readField_fieldBits, ok_bind]
    | _ => cases offered
  | btSkip0 => cases i with
    | btSkip0 c => simp only [decode, encode, readVar_bits (show c.wf cfg = true from wf), ok_bind]
    | _ => cases offered
  | btSkip => cases i with
    | btSkip c => simp only [decode, encode, readVar_bits (show c.wf cfg = true from wf), ok_bind]
    | _ => cases offered
  | btApply => cases i with
    | btApply c => simp only [decode, encode, readVar_bits (show c.wf cfg = true from wf), ok_bind]
    | _ => cases offered
  | btIndex => cases i with
    | btIdxMtf j => simp [decode, encode, readFlag_cons, readField_fieldBits, ok_bind]
    | btIdxRaw r => simp [decode, encode, readFlag_cons, readField_fieldBits, ok_bind]
    | _ => cases offered
  | btCompanion => cases i with
    | btCompDer => rfl
    | btCompInd => rfl
    | _ => cases offered
  | tmHdr => cases i with
    | tmHdr left top wm1 hs => simp only [decode, encode, List.append_assoc, readField_fieldBits, ok_bind]
    | _ => cases offered
  | tmTdict => cases i with
    | tmTdict b0 b1 => simp only [decode, encode, List.append_assoc, readField_fieldBits, ok_bind]
    | _ => cases offered
  | tmOdict => cases i with
    | tmOdict v6 v7 v8 v9 v10 v11 v12 v13 =>
      simp only [decode, encode, List.append_assoc, readField_fieldBits, ok_bind]
    | _ => cases offered
  | tmDelta room => cases i with
    | tmDelta c =>
      have below : ¬room ≤ c.delta := Nat.not_le.mpr (of_decide_eq_true offered)
      simp only [decode, encode, readVar_bits (show c.wf cfg = true from wf), ok_bind, if_neg below]
    | tmEnd c =>
      have reached : room ≤ c.delta := of_decide_eq_true offered
      simp only [decode, encode, readVar_bits (show c.wf cfg = true from wf), ok_bind, if_pos reached]
    | _ => cases offered
  | tmCmd => cases i with
    | tmCmdS c => exact decodeTmCmd_short (of_decide_eq_true wf) rest
    | tmCmdX x e => exact decodeTmCmd_extended x e rest
    | _ => cases offered
  | tmPropA => cases i with
    | tmPropRun => rfl
    | tmPropStop => rfl
    | _ => cases offered
  | tmPropB => cases i with
    | tmPropCell => rfl
    | tmPropEndrun => rfl
    | _ => cases offered
  | tmCopy => cases i with
    | tmCopy => rfl
    | _ => cases offered
  | tmLit n0 n1 => cases i with
    | tmLitRaw n v =>
      obtain rfl : n = n0 := of_decide_eq_true offered
      simp only [decode, decodeTmLit, encode, List.cons_append, readFlag_cons, ok_bind,
        readNat_natBits (of_decide_eq_true wf)]
    | tmLitOfs n v =>
      obtain rfl : n = n1 := of_decide_eq_true offered
      simp only [decode, decodeTmLit, encode, List.cons_append, readFlag_cons, ok_bind,
        readNat_natBits (of_decide_eq_true wf)]
    | tmLitCnt0 => rfl
    | tmLitCnt1 => rfl
    | _ => cases offered
  | tmAlign k => cases i with
    | tmAlign pad =>
      obtain rfl : pad.length = k := of_decide_eq_true offered
      simp only [decode, encode, List.take_left', List.drop_left']
    | _ => cases offered
  | hmDim => cases i with
    | hmDim hw hh => simp only [decode, encode, List.append_assoc, readField_fieldBits, ok_bind]
    | _ => cases offered
  | hmRun => cases i with
    | hmRun pat k last =>
      have ended : last ≠ 0xFF := of_decide_eq_true wf
      simp only [decode, encode, List.append_assoc, readField_fieldBits, ok_bind, readChain_bits 0 k ended,
        Nat.zero_add]
    | _ => cases offered
  | hmCell => cases i with
    | hmCell => rfl
    | _ => cases offered
  | sprHeader => cases i with
    | sprSf y w r x h => exact decodeSprHeader_bits ..
    | sprSfLast y w r x h => exact decodeSprHeader_bits ..
    | _ => cases offered
  | sprWord => cases i with
    | sprZero stop l r count => exact decodeSprWord_bits ..
    | sprLz stop r count => exact decodeSprWord_bits ..
    | sprRaw stop r count => exact decodeSprWord_bits ..
    | _ => cases offered

/-- Settles O1. -/
theorem decodeInvertsEncode : Obligations.DecodeInvertsEncode :=
  fun _ _ _ rest wf offered => decode_encode wf offered rest

/-! ## Nothing else is read -/

/-- What a read of a token says of the bits before it: the token is well formed, the point of the grammar offers it, and
the bits are its encoding and the input after it. -/
def Reads (cfg : Params) (want : Expect) (bits rest : List Bool) (i : Instr) : Prop :=
  i.wf cfg = true ∧ want.offers i = true ∧ bits = encode i ++ rest

theorem decodeLzPair_ok {cfg : Params} {bits rest : List Bool} {i : Instr} (h : decodeLzPair bits = .ok (i, rest)) :
    Reads cfg .lzPair bits rest i := by
  simp only [decodeLzPair, bind_eq_ok, Prod.exists, readField_iff, Except.ok.injEq, Prod.mk.injEq] at h
  obtain ⟨hi, _, rfl, lcode, _, rfl, lo, _, rfl, rfl, rfl⟩ := h
  have bits (rest) :
      fieldBits hi ++ (fieldBits lcode ++ (fieldBits lo ++ rest)) = lzPairBits (hi ++ lo) lcode ++ rest := by
    simp only [lzPairBits, offset_high, offset_low, List.append_assoc]
  split
  next h0 => exact ⟨rfl, rfl, by rw [bits, h0]; rfl⟩
  next h0 => exact ⟨decide_eq_true h0, rfl, bits _⟩

theorem decodeTmCmd_ok {cfg : Params} {bits rest : List Bool} {i : Instr} (h : decodeTmCmd bits = .ok (i, rest)) :
    Reads cfg .tmCmd bits rest i := by
  simp only [decodeTmCmd, bind_eq_ok, Prod.exists, readField_iff] at h
  obtain ⟨c, _, rfl, h⟩ := h
  split at h
  next short => cases h; exact ⟨decide_eq_true short, rfl, rfl⟩
  next extended =>
    simp only [bind_eq_ok, Prod.exists, readField_iff, Except.ok.injEq, Prod.mk.injEq] at h
    obtain ⟨e, _, rfl, rfl, rfl⟩ := h
    exact ⟨rfl, rfl, by rw [bits_of_extendedCommand extended]; simp [encode]⟩

theorem decodeTmLit_ok {cfg : Params} {n0 n1 : Nat} {bits rest : List Bool} {i : Instr}
    (h : decodeTmLit n0 n1 bits = .ok (i, rest)) : Reads cfg (.tmLit n0 n1) bits rest i := by
  simp only [decodeTmLit, bind_eq_ok, Prod.exists, readFlag_iff] at h
  obtain ⟨s1, _, rfl, s0, _, rfl, h⟩ := h
  split at h
  · simp only [bind_eq_ok, Prod.exists, readNat_iff, Except.ok.injEq, Prod.mk.injEq] at h
    obtain ⟨v, _, ⟨fits, rfl⟩, rfl, rfl⟩ := h
    exact ⟨decide_eq_true fits, decide_eq_true rfl, rfl⟩
  · simp only [bind_eq_ok, Prod.exists, readNat_iff, Except.ok.injEq, Prod.mk.injEq] at h
    obtain ⟨v, _, ⟨fits, rfl⟩, rfl, rfl⟩ := h
    exact ⟨decide_eq_true fits, decide_eq_true rfl, rfl⟩
  · cases h; exact ⟨rfl, rfl, rfl⟩
  · cases h; exact ⟨rfl, rfl, rfl⟩

theorem decodeSprHeader_ok {cfg : Params} {bits rest : List Bool} {i : Instr}
    (h : decodeSprHeader bits = .ok (i, rest)) : Reads cfg .sprHeader bits rest i := by
  simp only [decodeSprHeader, bind_eq_ok, Prod.exists, readFlag_iff, readField_iff, Except.ok.injEq, Prod.mk.injEq] at h
  obtain ⟨s, _, rfl, y, _, rfl, w, _, rfl, r, _, rfl, x, _, rfl, h, _, rfl, rfl, rfl⟩ := h
  cases s <;> exact ⟨rfl, rfl, by simp [encode, sprHeaderBits]⟩

theorem decodeSprWord_ok {cfg : Params} {bits rest : List Bool} {i : Instr} (h : decodeSprWord bits = .ok (i, rest)) :
    Reads cfg .sprWord bits rest i := by
  simp only [decodeSprWord, bind_eq_ok, Prod.exists, readFlag_iff, readField_iff, Except.ok.injEq, Prod.mk.injEq] at h
  obtain ⟨z, _, rfl, s, _, rfl, l, _, rfl, r, _, rfl, count, _, rfl, rfl, rfl⟩ := h
  cases z
  case true => exact ⟨rfl, rfl, rfl⟩
  case false => cases l <;> exact ⟨rfl, rfl, rfl⟩

/-- The reads of a token, field by field: each field read is the bits of the field. -/
theorem decode_ok {cfg : Params} {want : Expect} {bits rest : List Bool} {i : Instr}
    (padding : ∀ k, want = .tmAlign k → k < 8 ∧ k ≤ bits.length) (h : decode cfg want bits = .ok (i, rest)) :
    Reads cfg want bits rest i := by
  cases want with
  | lzPair => exact decodeLzPair_ok h
  | tmCmd => exact decodeTmCmd_ok h
  | tmLit n0 n1 => exact decodeTmLit_ok h
  | sprHeader => exact decodeSprHeader_ok h
  | sprWord => exact decodeSprWord_ok h
  | tmCopy => cases h; exact ⟨rfl, rfl, rfl⟩
  | hmCell => cases h; exact ⟨rfl, rfl, rfl⟩
  | tmAlign k =>
    obtain ⟨short, inside⟩ := padding k rfl
    cases h
    have length : (bits.take k).length = k := List.length_take_of_le inside
    exact ⟨by simp [Instr.wf, length, short], decide_eq_true length, (List.take_append_drop k bits).symm⟩
  | varint | btSkip0 | btSkip | btApply =>
    simp only [decode, bind_eq_ok, Prod.exists, readVar_iff, Except.ok.injEq, Prod.mk.injEq] at h
    obtain ⟨c, _, ⟨wf, rfl⟩, rfl, rfl⟩ := h
    exact ⟨wf, rfl, rfl⟩
  | tmDelta room =>
    simp only [decode, bind_eq_ok, Prod.exists, readVar_iff, Except.ok.injEq, Prod.mk.injEq] at h
    obtain ⟨c, _, ⟨wf, rfl⟩, rfl, rfl⟩ := h
    split
    next reached => exact ⟨wf, decide_eq_true reached, rfl⟩
    next below => exact ⟨wf, decide_eq_true (Nat.lt_of_not_le below), rfl⟩
  | btCompanion | tmPropA | tmPropB =>
    simp only [decode, bind_eq_ok, Prod.exists, readFlag_iff, Except.ok.injEq, Prod.mk.injEq] at h
    obtain ⟨flag, _, rfl, rfl, rfl⟩ := h
    cases flag <;> exact ⟨rfl, rfl, rfl⟩
  | btIndex =>
    simp only [decode, bind_eq_ok, Prod.exists, readFlag_iff] at h
    obtain ⟨flag, _, rfl, h⟩ := h
    cases flag <;> simp [bind_eq_ok, Prod.exists, readField_iff] at h
    · obtain ⟨r, rfl, rfl⟩ := h; exact ⟨rfl, rfl, rfl⟩
    · obtain ⟨j, rfl, rfl⟩ := h; exact ⟨rfl, rfl, rfl⟩
  | hmRun =>
    simp only [decode, bind_eq_ok, Prod.exists, readField_iff, readChain_iff, Except.ok.injEq, Prod.mk.injEq] at h
    obtain ⟨pat, _, rfl, k, last, _, ⟨ended, rfl⟩, rfl, rfl⟩ := h
    exact ⟨decide_eq_true ended, rfl, by simp [encode]⟩
  | lzCtrl | lzLit | btCount =>
    simp only [decode, bind_eq_ok, Prod.exists, readField_iff, Except.ok.injEq, Prod.mk.injEq] at h
    obtain ⟨v, _, rfl, rfl, rfl⟩ := h
    exact ⟨rfl, rfl, rfl⟩
  | tmTdict | hmDim =>
    simp only [decode, bind_eq_ok, Prod.exists, readField_iff, Except.ok.injEq, Prod.mk.injEq] at h
    obtain ⟨a, _, rfl, b, _, rfl, rfl, rfl⟩ := h
    exact ⟨rfl, rfl, by simp [encode]⟩
  | tmHdr =>
    simp only [decode, bind_eq_ok, Prod.exists, readField_iff, Except.ok.injEq, Prod.mk.injEq] at h
    obtain ⟨left, _, rfl, top, _, rfl, wm1, _, rfl, hs, _, rfl, rfl, rfl⟩ := h
    exact ⟨rfl, rfl, by simp [encode]⟩
  | tmOdict =>
    simp only [decode, bind_eq_ok, Prod.exists, readField_iff, Except.ok.injEq, Prod.mk.injEq] at h
    obtain ⟨v6, _, rfl, v7, _, rfl, v8, _, rfl, v9, _, rfl, v10, _, rfl, v11, _, rfl, v12, _, rfl, v13, _, rfl, rfl,
      rfl⟩ := h
    exact ⟨rfl, rfl, by simp [encode]⟩

/-- Settles O2. -/
theorem decodeReadsOnlyEncodings : Obligations.DecodeReadsOnlyEncodings :=
  fun _ _ _ _ _ padding h => decode_ok padding h

/-- Settles O3, by reading each word. -/
theorem specExampleWordsDecode : Obligations.SpecExampleWordsDecode :=
  ⟨rfl, rfl, rfl, rfl, rfl, rfl, rfl⟩

/-! ## The values of the coded numbers -/

/-- The value of a coded number and its terminating 1 as one binary number of `exp + 1` digits
(40_bitstream.md R156). -/
theorem value_add_one (c : VarCode) (wf : c.man < 2 ^ c.exp) : c.value + 1 = 2 ^ c.exp + c.man := by
  unfold VarCode.value
  split
  next h => rw [h] at wf ⊢; omega
  next => have := Nat.two_pow_pos c.exp; omega

/-- The number of digits of that binary number is the exponent and one. -/
theorem log2_value_add_one (c : VarCode) (wf : c.man < 2 ^ c.exp) : (c.value + 1).log2 = c.exp := by
  rw [value_add_one c wf, Nat.log2_eq_iff (by have := Nat.two_pow_pos c.exp; omega), Nat.pow_succ]
  omega

theorem wf_decided_iff (c : VarCode) : c.wf Config.decided = true ↔ c.exp ≤ 15 ∧ c.man < 2 ^ c.exp := by
  rw [VarCode.wf, Bool.and_eq_true, decide_eq_true_eq, decide_eq_true_eq]
  rfl

/-- Settles O4: the digits of v + 1 are the code of v. -/
theorem codedNumbersCoverTheirRange : Obligations.CodedNumbersCoverTheirRange := by
  constructor
  · intro c wf
    obtain ⟨short, fits⟩ := (wf_decided_iff c).mp wf
    have digits := value_add_one c fits
    have bound : 2 ^ c.exp ≤ 2 ^ 15 := Nat.pow_le_pow_right (by decide) short
    omega
  · intro v hv
    have nonzero : v + 1 ≠ 0 := by omega
    have low : 2 ^ (v + 1).log2 ≤ v + 1 := Nat.log2_self_le nonzero
    have high : v + 1 < 2 ^ ((v + 1).log2 + 1) := Nat.lt_log2_self
    have short : (v + 1).log2 < 16 := (Nat.log2_lt nonzero).mpr (by omega)
    rw [Nat.pow_succ] at high
    have fits : v + 1 - 2 ^ (v + 1).log2 < 2 ^ (v + 1).log2 := by omega
    refine ⟨⟨(v + 1).log2, v + 1 - 2 ^ (v + 1).log2⟩, ⟨(wf_decided_iff _).mpr ⟨Nat.le_of_lt_succ short, fits⟩, ?_⟩,
      fun d wf hd => ?_⟩
    · have := value_add_one ⟨(v + 1).log2, v + 1 - 2 ^ (v + 1).log2⟩ fits
      simp only at this
      omega
    · obtain ⟨_, dFits⟩ := (wf_decided_iff d).mp wf
      have digits := value_add_one d dFits
      have exponent := log2_value_add_one d dFits
      rw [hd] at digits exponent
      obtain ⟨exp, man⟩ := d
      simp only at digits exponent
      rw [VarCode.mk.injEq, exponent]
      omega

end Sys2Proof
end

section
/-! From the input to the token. A step of a BUSY machine reads the token its grammar position asks for (O7, O8, O9), or
faults where the input ends inside it (O10), where a coded number has too many zeros (O11) or where a cell has no mode
(O29). The decoder's reads are the machine's own bit reader and MemRead (O6). -/

namespace Sys2Proof

/-! ## Reads that fail -/

theorem readBitsFrom_error {n acc : Nat} {bits : List Bool} {e : DecodeError} (h : readBitsFrom n acc bits = .error e) :
    e = .endOfStream := by
  rcases Nat.lt_or_ge bits.length n with short | long
  · rw [readBitsFrom_of_lt short] at h; cases h; rfl
  · obtain ⟨v, hv⟩ := readBitsFrom_of_le (acc := acc) long
    rw [hv] at h; cases h

theorem readNat_error {n : Nat} {bits : List Bool} {e : DecodeError} (h : readNat n bits = .error e) :
    e = .endOfStream :=
  readBitsFrom_error h

theorem readField_error {w : Nat} {bits : List Bool} {e : DecodeError} (h : readField w bits = .error e) :
    e = .endOfStream := by
  unfold readField at h
  split at h
  · cases h
  next hn => cases h; exact readNat_error hn

theorem readFlag_error {bits : List Bool} {e : DecodeError} (h : readFlag bits = .error e) : e = .endOfStream := by
  cases bits with
  | nil => cases h; rfl
  | cons b bits => cases h

theorem readChain_error {k : Nat} {bits : List Bool} {e : DecodeError} (h : readChain k bits = .error e) :
    e = .endOfStream := by
  fun_induction readChain k bits with
  | case1 k b7 b6 b5 b4 b3 b2 b1 b0 bits v full ih => exact ih h
  | case2 => cases h
  | case3 => cases h; rfl

/-- Only a run of zeros one longer than is allowed is too long, and whatever follows it. -/
theorem readExponent_tooLong_iff {room e : Nat} {bits : List Bool} :
    readExponent room e bits = .error .varintTooLong ↔ ∃ rest, bits = List.replicate (room + 1) false ++ rest := by
  fun_induction readExponent room e bits with
  | case1 => simp [List.replicate_succ]
  | case2 => simp [List.replicate_succ]
  | case3 e bits => simp [List.replicate_succ]
  | case4 room e bits ih => rw [ih]; simp [List.replicate_succ]

theorem readVar_tooLong_iff {cfg : Params} {bits : List Bool} :
    readVar cfg bits = .error .varintTooLong ↔
      ∃ rest, bits = List.replicate (cfg.varintMaxExp + 1) false ++ rest := by
  rw [← readExponent_tooLong_iff (e := 0), readVar, bind_eq_error]
  refine ⟨fun h => ?_, .inl⟩
  obtain h | ⟨⟨e, bits⟩, -, h⟩ := h
  · exact h
  · obtain h | ⟨⟨m, bits⟩, -, h⟩ := bind_eq_error.mp h
    · cases readNat_error h
    · cases h

/-- A read that can only fail at the end of the input. -/
def OnlyEnds {α : Type} (r : Except DecodeError α) : Prop :=
  ∀ e, r = .error e → e = .endOfStream

theorem OnlyEnds.ok {α : Type} {a : α} : OnlyEnds (.ok a : Except DecodeError α) := by
  rintro _ ⟨⟩

theorem OnlyEnds.bind {α β γ : Type} {x : Except DecodeError (α × β)} {f : α × β → Except DecodeError γ}
    (hx : OnlyEnds x) (hf : ∀ a b, OnlyEnds (f (a, b))) : OnlyEnds (x >>= f) := by
  intro e h
  obtain h | ⟨⟨a, b⟩, -, h⟩ := bind_eq_error.mp h
  · exact hx e h
  · exact hf a b e h

theorem OnlyEnds.nat {n : Nat} {bits : List Bool} : OnlyEnds (readNat n bits) := fun _ => readNat_error

theorem OnlyEnds.field {w : Nat} {bits : List Bool} : OnlyEnds (readField w bits) := fun _ => readField_error

theorem OnlyEnds.flag {bits : List Bool} : OnlyEnds (readFlag bits) := fun _ => readFlag_error

theorem OnlyEnds.chain {k : Nat} {bits : List Bool} : OnlyEnds (readChain k bits) := fun _ => readChain_error

open OnlyEnds in
theorem decodeTmLit_onlyEnds (n0 n1 : Nat) (bits : List Bool) : OnlyEnds (decodeTmLit n0 n1 bits) :=
  flag.bind fun s1 _ => flag.bind fun s0 _ => by
    cases s1 <;> cases s0
    exacts [nat.bind fun _ _ => ok, nat.bind fun _ _ => ok, ok, ok]

open OnlyEnds in
theorem decodeTmCmd_onlyEnds (bits : List Bool) : OnlyEnds (decodeTmCmd bits) :=
  field.bind fun c _ => by
    dsimp only
    split
    exacts [ok, field.bind fun _ _ => ok]

/-- The points of the grammar where a coded number is read. -/
def Expect.isVar : Expect → Bool
  | .varint | .btSkip0 | .btSkip | .btApply | .tmDelta _ => true
  | _ => false

open OnlyEnds in
/-- Where no coded number is read, a token can only be cut short by the end of the input. -/
theorem decode_onlyEnds {cfg : Params} {want : Expect} (bits : List Bool) (plain : want.isVar = false) :
    OnlyEnds (decode cfg want bits) := by
  cases want with
  | varint | btSkip0 | btSkip | btApply | tmDelta => cases plain
  | tmCopy | tmAlign | hmCell => exact ok
  | lzCtrl | lzLit | btCount => exact field.bind fun _ _ => ok
  | btCompanion | tmPropA | tmPropB => exact flag.bind fun _ _ => ok
  | tmTdict | hmDim => exact field.bind fun _ _ => field.bind fun _ _ => ok
  | lzPair => exact field.bind fun _ _ => field.bind fun _ _ => field.bind fun _ _ => ok
  | tmHdr => exact field.bind fun _ _ => field.bind fun _ _ => field.bind fun _ _ => field.bind fun _ _ => ok
  | tmOdict =>
    exact field.bind fun _ _ => field.bind fun _ _ => field.bind fun _ _ => field.bind fun _ _ =>
      field.bind fun _ _ => field.bind fun _ _ => field.bind fun _ _ => field.bind fun _ _ => ok
  | btIndex =>
    refine flag.bind fun flag _ => ?_
    cases flag
    exacts [field.bind fun _ _ => ok, field.bind fun _ _ => ok]
  | tmCmd => exact decodeTmCmd_onlyEnds bits
  | tmLit n0 n1 => exact decodeTmLit_onlyEnds n0 n1 bits
  | hmRun => exact field.bind fun _ _ => chain.bind fun _ _ => ok
  | sprHeader =>
    exact flag.bind fun _ _ => field.bind fun _ _ => field.bind fun _ _ => flag.bind fun _ _ => field.bind fun _ _ =>
      field.bind fun _ _ => ok
  | sprWord =>
    exact flag.bind fun _ _ => flag.bind fun _ _ => flag.bind fun _ _ => flag.bind fun _ _ => field.bind fun _ _ => ok

/-- Where a coded number is read, the token fails as the number does. -/
theorem decode_error_of_isVar {cfg : Params} {want : Expect} {bits : List Bool} {e : DecodeError}
    (coded : want.isVar = true) : decode cfg want bits = .error e ↔ readVar cfg bits = .error e := by
  cases want with
  | varint | btSkip0 | btSkip | btApply | tmDelta => simp [decode, bind_eq_error]
  | _ => cases coded

theorem decode_tooLong_iff {cfg : Params} {want : Expect} {bits : List Bool} :
    decode cfg want bits = .error .varintTooLong ↔
      want.isVar = true ∧ ∃ rest, bits = List.replicate (cfg.varintMaxExp + 1) false ++ rest := by
  rw [← readVar_tooLong_iff]
  cases coded : want.isVar with
  | false => exact ⟨fun h => absurd (decode_onlyEnds bits coded _ h) (by decide), fun h => absurd h.1 (by decide)⟩
  | true => rw [decode_error_of_isVar coded]; simp

/-- A proper beginning of a token's encoding is cut short by the end of the input: any other answer would also be the
answer to the whole encoding, which is the token. -/
theorem decode_of_proper_prefix {cfg : Params} {want : Expect} {i : Instr} {bits missing : List Bool}
    (wf : i.wf cfg = true) (offered : want.offers i = true) (notPadding : ∀ pad, i ≠ .tmAlign pad)
    (cut : missing ≠ []) (whole : bits ++ missing = encode i) : decode cfg want bits = .error .endOfStream := by
  have answer : decode cfg want (bits ++ missing) = .ok (i, []) := by
    rw [whole, ← List.append_nil (encode i)]
    exact decode_encode wf offered []
  match h : decode cfg want bits with
  | .error .endOfStream => rfl
  | .error .varintTooLong =>
    obtain ⟨coded, rest, rfl⟩ := decode_tooLong_iff.mp h
    have same : decode cfg want (List.replicate (cfg.varintMaxExp + 1) false ++ rest ++ missing) =
        .error .varintTooLong := decode_tooLong_iff.mpr ⟨coded, rest ++ missing, List.append_assoc ..⟩
    rw [same] at answer
    cases answer
  | .ok (j, rest) =>
    have unpadded : ∀ k, want = .tmAlign k → k < 8 ∧ k ≤ bits.length := by
      rintro k rfl
      cases i with
      | tmAlign pad => exact absurd rfl (notPadding pad)
      | _ => cases offered
    obtain ⟨jWf, jOffered, rfl⟩ := decode_ok unpadded h
    rw [List.append_assoc, decode_encode jWf jOffered] at answer
    have : rest ++ missing = [] := (Prod.mk.inj (Except.ok.inj answer)).2
    exact absurd (List.append_eq_nil_iff.mp this).2 cut

end Sys2Proof

namespace Sys2Proof.Machine

/-! ## The unread input -/

@[simp] theorem length_bitsAt (s : State) (n k : Nat) : (s.bitsAt n k).length = n := by
  induction n generalizing k with
  | zero => rfl
  | succ n ih => simp [State.bitsAt, ih]

@[simp] theorem length_inputBits (s : State) : s.inputBits.length = 8 * s.win.srcLen.toNat - s.p :=
  length_bitsAt ..

theorem bitsAt_congr {s t : State} {n k : Nat} (h : ∀ j, j < k + n → s.srcBit j = t.srcBit j) :
    s.bitsAt n k = t.bitsAt n k := by
  induction n generalizing k with
  | zero => rfl
  | succ n ih => rw [State.bitsAt, State.bitsAt, h k (by omega), ih fun j hj => h j (by omega)]

/-- The unread input is a matter of p, SRC_LEN and SRC below SRC_LEN alone (40_bitstream.md R150). -/
theorem inputBits_congr {s t : State} (p : s.p = t.p) (srcLen : s.win.srcLen = t.win.srcLen)
    (src : ∀ i, i < s.win.srcLen.toNat → s.srcByte i = t.srcByte i) : s.inputBits = t.inputBits := by
  rcases Nat.lt_or_ge s.p (8 * s.win.srcLen.toNat) with inside | past
  · rw [State.inputBits, State.inputBits, ← p, ← srcLen]
    refine bitsAt_congr fun j hj => ?_
    rw [State.srcBit, State.srcBit, src (j / 8) (by omega)]
  · exact List.eq_nil_of_length_eq_zero (by rw [length_inputBits]; omega) |>.trans
      (List.eq_nil_of_length_eq_zero (by rw [length_inputBits, ← srcLen, ← p]; omega)).symm

theorem inputBits_of_lt {s : State} (h : s.p < 8 * s.win.srcLen.toNat) :
    s.inputBits = s.srcBit s.p :: { s with p := s.p + 1 }.inputBits := by
  obtain ⟨n, hn⟩ : ∃ n, 8 * s.win.srcLen.toNat - s.p = n + 1 := ⟨8 * s.win.srcLen.toNat - s.p - 1, by omega⟩
  have rest : 8 * s.win.srcLen.toNat - (s.p + 1) = n := by omega
  simp only [State.inputBits, hn, rest, State.bitsAt, List.cons.injEq, true_and]
  exact bitsAt_congr fun _ _ => rfl

theorem inputBits_of_le {s : State} (h : 8 * s.win.srcLen.toNat ≤ s.p) : s.inputBits = [] :=
  List.eq_nil_of_length_eq_zero (by rw [length_inputBits]; omega)

/-! ## ReadBits and MemRead -/

/-- ReadBits(n) takes the bits the decoder takes, and fails where it fails (R151). -/
theorem readBitsFrom_eq (n acc : Nat) (s : State) :
    s.readBitsFrom n acc =
      match Sys2Proof.readBitsFrom n acc s.inputBits with
      | .ok (v, _) => .ok (v, { s with p := s.p + n })
      | .error _ => .error .unexpectedEndOfStream := by
  induction n generalizing acc s with
  | zero => rfl
  | succ n ih =>
    rcases Nat.lt_or_ge s.p (8 * s.win.srcLen.toNat) with inside | past
    · have next := inputBits_of_lt inside
      rw [State.readBitsFrom, readBit_of_lt (by omega), next, Sys2Proof.readBitsFrom]
      simp only [ih, Nat.add_assoc, Nat.add_comm 1 n]
    · rw [State.readBitsFrom, readBit_of_le (by omega), inputBits_of_le past]
      rfl

/-- The eight bits of an input byte (20_memory.md R86). -/
theorem bitsAt_byte (s : State) (m q : Nat) :
    s.bitsAt (m + 8) (8 * q) = fieldBits (s.srcByte q) ++ s.bitsAt m (8 * (q + 1)) := by
  have bit (j : Nat) (hj : j < 8) : s.srcBit (8 * q + j) = (s.srcByte q).toNat.testBit (7 - j) := by
    rw [State.srcBit, Nat.mul_add_div (by decide), Nat.div_eq_of_lt hj, Nat.mul_add_mod, Nat.mod_eq_of_lt hj,
      Nat.add_zero, BitVec.testBit_toNat]
  have first : s.srcBit (8 * q) = (s.srcByte q).toNat.testBit 7 := bit 0 (by decide)
  simp only [State.bitsAt, Nat.add_assoc, Nat.reduceAdd, first, bit, Nat.reduceLT]
  rfl

theorem readBitsFrom_add {a b acc v : Nat} {bits rest : List Bool}
    (h : Sys2Proof.readBitsFrom a acc bits = .ok (v, rest)) :
    Sys2Proof.readBitsFrom (a + b) acc bits = Sys2Proof.readBitsFrom b v rest := by
  induction a generalizing acc bits with
  | zero => cases h; rw [Nat.zero_add]
  | succ a ih =>
    cases bits with
    | nil => cases h
    | cons x bits => rw [Nat.succ_add]; exact ih h

/-- The bits of n whole bytes are the big-endian number MemRead returns (20_memory.md R81, R86). -/
theorem readBitsFrom_bitsAt (s : State) (n m q acc : Nat) :
    ∃ rest, Sys2Proof.readBitsFrom (8 * n) acc (s.bitsAt (m + 8 * n) (8 * q)) = .ok (s.srcBytes q n acc, rest) := by
  induction n generalizing q acc with
  | zero => exact ⟨_, rfl⟩
  | succ n ih =>
    obtain ⟨rest, h⟩ := ih (q + 1) (256 * acc + (s.srcByte q).toNat)
    have byte := readBitsFrom_natBits 8 acc (s.srcByte q).toNat (s.bitsAt (m + 8 * n) (8 * (q + 1)))
    rw [Nat.mod_eq_of_lt (s.srcByte q).isLt, Nat.mul_comm acc] at byte
    refine ⟨rest, ?_⟩
    rw [show m + 8 * (n + 1) = m + 8 * n + 8 by omega, show 8 * (n + 1) = 8 + 8 * n by omega, bitsAt_byte]
    exact (readBitsFrom_add byte).trans h

/-- Settles O6. -/
theorem decoderReadsAsTheBitReader : Obligations.DecoderReadsAsTheBitReader := by
  refine fun s n => ⟨readBitsFrom_eq n 0 s, fun aligned some => ?_⟩
  have boundary : s.p = 8 * (s.p / 8) := by omega
  unfold State.memRead readNat
  split
  next past => rw [readBitsFrom_of_lt (by rw [length_inputBits]; omega)]
  next inside =>
    obtain ⟨m, hm⟩ : ∃ m, 8 * s.win.srcLen.toNat - s.p = m + 8 * n :=
      ⟨8 * s.win.srcLen.toNat - s.p - 8 * n, by omega⟩
    obtain ⟨rest, h⟩ := readBitsFrom_bitsAt s n m (s.p / 8) 0
    rw [← boundary, ← hm] at h
    rw [State.inputBits, h, show 8 * (s.p / 8 + n) = s.p + 8 * n by omega]

/-! ## The token fetched -/

theorem decStep_of_busy {s : State} (busy : s.win.engine = .busy) :
    decStep s =
      match s.fetch with
      | .instr i => exec i s
      | .trap f reached => .next (reached.raise f)
      | .stuck => .fault .noGrammarPosition :=
  if_pos busy

theorem fetch_of_decode_ok {s : State} {want : Expect} {i : Instr} {rest : List Bool} (asked : s.select = .token want)
    (read : decode s.cfg want s.inputBits = .ok (i, rest)) : s.fetch = .instr i := by
  simp only [State.fetch, asked, read]

theorem fetch_of_decode_error {s : State} {want : Expect} {e : DecodeError} (asked : s.select = .token want)
    (failed : decode s.cfg want s.inputBits = .error e) :
    s.fetch = .trap ⟨decodeFault e, s.p⟩ (s.readFailed want e) := by
  simp only [State.fetch, asked, failed]

theorem fetch_of_trap {s : State} {k : FaultKind} (asked : s.select = .trap k) : s.fetch = .trap ⟨k, s.p⟩ s := by
  simp only [State.fetch, asked]

theorem decStep_of_instr {s : State} {i : Instr} (busy : s.win.engine = .busy) (fetched : s.fetch = .instr i) :
    decStep s = exec i s := by
  rw [decStep_of_busy busy, fetched]

theorem decStep_of_trap {s reached : State} {f : Trap} (busy : s.win.engine = .busy)
    (fetched : s.fetch = .trap f reached) : decStep s = .next (reached.raise f) := by
  rw [decStep_of_busy busy, fetched]

theorem step_of_sched_dec {s : State} {turns : List Turn} (turn : s.sched = .dec :: turns) :
    step s = decStep { s with sched := turns } := by
  simp only [step, turn]

/-- Settles O7: the schedule is no part of what is fetched. -/
theorem stepRunsTheDecodedToken : Obligations.StepRunsTheDecodedToken := by
  intro s want i rest busy asked read
  refine ⟨fun alone => ?_, fun turns turn => ?_⟩
  · rw [step_of_sched_nil alone, decStep_of_instr busy (fetch_of_decode_ok asked read)]
  · have sameInput : { s with sched := turns }.inputBits = s.inputBits := inputBits_congr rfl rfl fun _ _ => rfl
    rw [step_of_sched_dec turn]
    refine decStep_of_instr busy (fetch_of_decode_ok (want := want) (rest := rest) asked ?_)
    rw [sameInput]
    exact read

/-- Settles O10. -/
theorem inputEndingInsideATokenFaults : Obligations.InputEndingInsideATokenFaults := by
  intro s want i missing busy alone asked wf offered notPadding cut whole
  have failed := decode_of_proper_prefix wf offered notPadding cut whole
  refine ⟨?_, readFailed_p s want⟩
  rw [step_of_sched_nil alone, decStep_of_trap busy (fetch_of_decode_error asked failed)]
  rfl

/-- Settles O11. -/
theorem sixteenZerosFault : Obligations.SixteenZerosFault := by
  refine ⟨fun bits => readVar_tooLong_iff, fun s want rest busy alone decided asked coded zeros => ?_⟩
  have isVar : want.isVar = true := by
    obtain rfl | rfl | rfl | ⟨room, rfl⟩ := coded <;> rfl
  have failed : decode s.cfg want s.inputBits = .error .varintTooLong := by
    rw [decode_tooLong_iff, decided]
    exact ⟨isVar, rest, zeros⟩
  rw [step_of_sched_nil alone, decStep_of_trap busy (fetch_of_decode_error asked failed)]
  simp only [State.readFailed, State.tooManyZeros, decided]
  rfl

/-! ## What the grammar asks for -/

/-- Where phase 1 reads a delta. -/
theorem select_tmDelta {s : State} (whole : s.cfg.tmPassExtent = .whole) (position : s.phase = .tmDelta) :
    s.select = .token (.tmDelta ((s.tm.t : Int) - s.tm.c).toNat) := by
  simp only [State.select, position, passEnd_whole whole]

/-- Settles O9: the room the grammar allows a delta is what is left up to T. -/
theorem deltaReachingTheEndEndsPhaseOne : Obligations.DeltaReachingTheEndEndsPhaseOne := by
  intro s c rest busy alone whole position wf input
  have read : decode s.cfg (.tmDelta ((s.tm.t : Int) - s.tm.c).toNat) s.inputBits =
      .ok (if ((s.tm.t : Int) - s.tm.c).toNat ≤ c.delta then .tmEnd c else .tmDelta c, rest) := by
    rw [input]
    simp only [decode, readVar_bits wf, ok_bind]
  have reaches : ((s.tm.t : Int) - s.tm.c).toNat ≤ c.delta ↔ (s.tm.t : Int) ≤ s.tm.c + (c.delta : Int) := by omega
  rw [step_of_sched_nil alone, decStep_of_instr busy (fetch_of_decode_ok (select_tmDelta whole position) read)]
  simp only [reaches, apply_ite (exec · s)]
  rfl

theorem alignedPos_decided_sub (p : Nat) : alignedPos Config.decided p - p = (8 - p % 8) % 8 := by
  rcases Nat.eq_zero_or_pos (p % 8) with aligned | unaligned
  · rw [alignedPos_of_aligned rfl aligned]; omega
  · rw [alignedPos_of_unaligned _ (by omega), or_seven_eq]; omega

/-- The LZD loop with a control bit in hand. -/
theorem selectLz_of_bit {s : State} {c : Bool} (bit : s.lz.bit = some c) :
    s.selectLz = .token (if c then .lzLit else .lzPair) := by
  cases c <;> simp [State.selectLz, State.ctlBit, bit]

/-- The LZD loop with no control bit in hand and some left in LZ_CTL. -/
theorem selectLz_of_nctl {s : State} (bit : s.lz.bit = none) (left : s.lz.nctl ≠ 0) :
    s.selectLz = .token (if s.lz.ctl.getLsbD 7 then .lzLit else .lzPair) := by
  simp only [State.selectLz, bit, left, and_false, if_false, State.ctlBit, State.shiftCtl]
  cases s.lz.ctl.getLsbD 7 <;> rfl

/-- The LZD loop with no control bit left. -/
theorem selectLz_of_empty {s : State} (bit : s.lz.bit = none) (empty : s.lz.nctl = 0) :
    s.selectLz = .token .lzCtrl :=
  if_pos ⟨bit, empty⟩

theorem literalBits_decided (bound : BitVec 10) :
    literalBits Config.decided bound.toNat = if bound = 0 then 0 else bound.toNat.log2 := by
  have zero : bound.toNat = 0 ↔ bound = 0 := by rw [← BitVec.toNat_inj]; rfl
  simp only [literalBits, zero]
  rfl

/-- What is asked for at a grammar position that no other register has a say in. -/
theorem select_of_phase {s : State} {ph : Phase} {want : Expect} (h : { s with phase := ph }.select = .token want)
    (position : s.phase = ph) : s.select = .token want := by
  subst position
  exact h

/-- Settles O8: each position's arm of `State.select`. -/
theorem grammarSelectsTheToken : Obligations.GrammarSelectsTheToken := by
  intro s
  refine ⟨fun b position bit empty => ?_, fun b position bit left => ?_, fun b c position bit => ?_,
    select_of_phase rfl, fun position first => ?_, fun position later => ?_, select_of_phase rfl, select_of_phase rfl,
    select_of_phase rfl, select_of_phase rfl, select_of_phase rfl, select_of_phase rfl, select_of_phase rfl,
    select_of_phase rfl, select_of_phase rfl, select_of_phase rfl, fun position m mode copy => ?_,
    fun position decided mode => ?_, fun position decided => ?_, select_of_phase rfl, fun position empty => ?_,
    fun position running => ?_, select_of_phase rfl, select_of_phase rfl⟩
  · rw [State.select, position]; exact selectLz_of_empty bit empty
  · rw [State.select, position]; exact selectLz_of_nctl bit left
  · rw [State.select, position]; exact selectLz_of_bit bit
  · simp only [State.select, position, first, if_true]
  · simp only [State.select, position, later, Bool.false_eq_true, if_false]
  · simp only [State.select, position, State.selectCell, mode, copy, if_false]
  · simp only [State.select, position, State.selectCell, mode, if_true, decided, State.bound0, State.bound1,
      State.sel1Bound, ← literalBits_decided]
    rfl
  · rw [State.select, position, decided]
    simp only [alignedPos_decided_sub]
  · simp only [State.select, position, empty, if_true]
  · simp only [State.select, position, running, if_false]

/-- Settles O29. -/
theorem cellsSetOrContinueTheMode : Obligations.CellsSetOrContinueTheMode := by
  intro s decided
  have set (h : s.tmCellAt s.tm.i ≠ 0) : s.cellMode = some (s.tmCellAt s.tm.i) := if_pos h
  have continued (h : s.tmCellAt s.tm.i = 0) : s.cellMode = s.tm.mode := by
    unfold State.cellMode
    rw [if_neg (not_not.mpr h), decided]
    cases s.tm.mode <;> rfl
  refine ⟨set, continued, fun busy alone position zero noMode => ?_⟩
  have asked : s.select = .trap .invalidControlCode := by
    simp only [State.select, position, State.selectCell, continued zero, noMode]
  rw [step_of_sched_nil alone, decStep_of_trap busy (fetch_of_trap asked)]

end Sys2Proof.Machine
end

section
/-! HOST's side: fault entry as HOST sees it (O41), the register window and its writes (O43, O44, O45), what changes
STATE (O46), the output spaces of a tilemap job (O35, O47), reset and START (O48, O49, O50, O53). -/

namespace Sys2Proof.Machine

/-! ## Fault entry -/

theorem word32_toNat {n : Nat} (h : n < 2 ^ 32) (tag stamp : Nat) : (word32 n tag stamp).toNat = n := by
  rw [word32_of_lt h, BitVec.toNat_ofNat, Nat.mod_eq_of_lt h]

/-- Settles O41: fault entry leaves a waiting state. -/
theorem faultEntryEndsTheJob : Obligations.FaultEntryEndsTheJob := by
  intro s k pos
  refine ⟨rfl, by cases k <;> rfl, fun fits => word32_toNat fits _ _, rfl, rfl, rfl, rfl, fun alone n => ?_⟩
  exact waitingStatesHoldEverything _ n (by rw [raise_win_engine]; decide) alone

/-! ## The window -/

theorem status_fields (code : BitVec 4) (state : BitVec 2) :
    let status : Word32 := (code.setWidth 32 <<< 4) ||| state.setWidth 32
    status.extractLsb' 0 2 = state ∧ status.extractLsb' 2 2 = 0 ∧ status.extractLsb' 4 4 = code ∧
      status.extractLsb' 8 24 = 0 := by
  revert code state; decide

theorem ctrl_fields (codec : BitVec 2) :
    (codec.setWidth 32 : Word32).extractLsb' 0 2 = codec ∧ (codec.setWidth 32 : Word32).extractLsb' 2 30 = 0 := by
  revert codec; decide

/-- Offsets of 0x28 and above are reserved (10_state.md R40). -/
theorem readWindow_reserved (s : State) {offset : Nat} (h : 0x28 ≤ offset) : s.readWindow offset = 0 := by
  unfold State.readWindow
  iterate 10 rw [if_neg (by omega)]
  rw [if_neg (by omega)]

/-- Settles O43. -/
theorem statusAndControlReadAsPacked : Obligations.StatusAndControlReadAsPacked := by
  intro s
  obtain ⟨state, gap, code, top⟩ := status_fields s.win.faultCode s.win.engine.code
  obtain ⟨codec, reserved⟩ := ctrl_fields s.win.codec
  refine ⟨?_, gap, code, top, codec, reserved, fun offset => readWindow_reserved s⟩
  refine state.trans ?_
  cases s.win.engine <;> rfl

/-! ## HOST's writes -/

theorem writeWindow_of_busy {s : State} (busy : s.win.engine = .busy) (offset : Nat) (v : Word32) :
    s.writeWindow offset v = .next s :=
  if_pos busy

/-- A write of CTRL while no job runs. -/
theorem writeWindow_ctrl {s : State} (waiting : s.win.engine ≠ .busy) (v : Word32) :
    s.writeWindow 0x00 v = .next (s.writeCtrl v) := by
  simp only [State.writeWindow, if_neg waiting, if_true]

theorem step_of_sched_host {s : State} {m : HostMove} {turns : List Turn} (turn : s.sched = .host m :: turns) :
    step s = State.hostMove { s with sched := turns } m := by
  simp only [step, turn]

/-- Settles O45. -/
theorem windowWritesWhileBusyAreIgnored : Obligations.WindowWritesWhileBusyAreIgnored := by
  intro s offset v turns busy turn
  rw [step_of_sched_host turn]
  exact writeWindow_of_busy (s := { s with sched := turns }) busy offset v

/-- CTRL keeps the low two bits of a word (10_state.md R32). -/
theorem ctrl_of_codec (v : Word32) : (v.setWidth 2).setWidth 32 = v &&& 3 := by
  apply BitVec.eq_of_toNat_eq
  have low : (v &&& 3).toNat = v.toNat % 2 ^ 2 := by
    rw [BitVec.toNat_and]
    exact Nat.and_two_pow_sub_one_eq_mod v.toNat 2
  rw [low, BitVec.toNat_setWidth_of_le (by decide), BitVec.toNat_setWidth]

/-- What a write of the window leaves: the written offset takes `reads`, and every other offset reads as before. -/
def WindowWrite (s : State) (offset : Nat) (v reads : Word32) : Prop :=
  ∃ t : State, s.writeWindow offset v = .next t ∧ t = { s with win := t.win } ∧
    (∀ other, other ≠ offset → t.readWindow other = s.readWindow other) ∧ t.readWindow offset = reads

theorem writeWindow_codec {s : State} (waiting : s.win.engine ≠ .busy) {v : Word32} (noStart : v.getLsbD 8 = false) :
    WindowWrite s 0x00 v (v &&& 3) := by
  refine ⟨{ s with win := { s.win with codec := v.setWidth 2 } }, ?_, rfl, fun other h => ?_, ctrl_of_codec v⟩
  · simp only [writeWindow_ctrl waiting, State.writeCtrl, noStart, Bool.false_eq_true, if_false]
  · simp only [State.readWindow, if_neg h]
    rfl

theorem writeWindow_srcLen {s : State} (waiting : s.win.engine ≠ .busy) (v : Word32) : WindowWrite s 0x08 v v := by
  refine ⟨{ s with win := { s.win with srcLen := v } }, ?_, rfl, fun other h => ?_, rfl⟩
  · simp only [State.writeWindow, if_neg waiting]; rfl
  · simp only [State.readWindow, if_neg h]
    rfl

theorem writeWindow_outCap {s : State} (waiting : s.win.engine ≠ .busy) (v : Word32) : WindowWrite s 0x0C v v := by
  refine ⟨{ s with win := { s.win with outCap := v } }, ?_, rfl, fun other h => ?_, rfl⟩
  · simp only [State.writeWindow, if_neg waiting]; rfl
  · simp only [State.readWindow, if_neg h]
    rfl

theorem writeWindow_of_other {s : State} {offset : Nat} (ctrl : offset ≠ 0x00) (srcLen : offset ≠ 0x08)
    (outCap : offset ≠ 0x0C) (v : Word32) : s.writeWindow offset v = .next s := by
  simp only [State.writeWindow, if_neg ctrl, if_neg srcLen, if_neg outCap, ite_self]

/-- Settles O44, by the register the offset names. -/
theorem hostWritesReachTheirTarget : Obligations.HostWritesReachTheirTarget := by
  refine ⟨fun s offset v waiting noStart => ?_, fun s i v waiting => ?_⟩
  · by_cases ctrl : offset = 0x00
    · subst ctrl; exact writeWindow_codec waiting (noStart rfl)
    by_cases srcLen : offset = 0x08
    · subst srcLen; exact writeWindow_srcLen waiting v
    by_cases outCap : offset = 0x0C
    · subst outCap; exact writeWindow_outCap waiting v
    refine ⟨s, writeWindow_of_other ctrl srcLen outCap v, rfl, fun _ _ => rfl, ?_⟩
    rw [if_neg ctrl, if_neg (by omega)]
  · exact ⟨_, if_neg waiting, rfl, fun a => read_write ..⟩

/-! ## What changes STATE -/

/-- A turn of DEC changes STATE only from BUSY, and then to DONE or FAULT: by fault entry before a token, or by a token
that ends the job (`exec_leaves`). -/
theorem decStep_engine {s t : State} (h : decStep s = .next t) (changed : t.win.engine ≠ s.win.engine) :
    s.win.engine = .busy ∧ (t.win.engine = .done ∨ t.win.engine = .fault) := by
  by_cases busy : s.win.engine = .busy
  · refine ⟨busy, ?_⟩
    rw [decStep_of_busy busy] at h
    split at h
    next i _ =>
      obtain same | ⟨-, ended⟩ := (exec_leaves i s t h).window
      · exact absurd (congrArg Window.engine same) changed
      · exact ended
    next => cases h; exact .inr rfl
    next => cases h
  · rw [decStep_of_not_busy busy] at h
    cases h
    exact absurd rfl changed

/-- A write of the window changes STATE only by START, which bit 8 of CTRL asks for (10_state.md R32). -/
theorem writeWindow_engine {s t : State} {offset : Nat} {v : Word32} (h : s.writeWindow offset v = .next t)
    (changed : t.win.engine ≠ s.win.engine) : t.win.engine = .busy ∧ offset = 0x00 ∧ v.getLsbD 8 = true := by
  unfold State.writeWindow at h
  split at h
  · cases h; exact absurd rfl changed
  split at h
  next ctrl =>
    simp only [State.writeCtrl] at h
    split at h
    next start => cases h; exact ⟨rfl, ctrl, start⟩
    next => cases h; exact absurd rfl changed
  split at h
  · cases h; exact absurd rfl changed
  split at h <;> (cases h; exact absurd rfl changed)

theorem writeSrc_engine {s t : State} {i : Nat} {v : Byte} (h : s.writeSrc i v = .next t) :
    t.win.engine = s.win.engine := by
  unfold State.writeSrc at h
  split at h
  · cases h
  · cases h; rfl

/-- Settles O46, by whose turn the step is. -/
theorem engineStateChangesAsListed : Obligations.EngineStateChangesAsListed := by
  intro s t h changed
  match turn : s.sched with
  | [] =>
    rw [step_of_sched_nil turn] at h
    obtain ⟨busy, ended⟩ := decStep_engine h changed
    exact .inr (.inr ⟨ended, busy, .inl rfl⟩)
  | .dec :: turns =>
    rw [step_of_sched_dec turn] at h
    obtain ⟨busy, ended⟩ := decStep_engine h changed
    exact .inr (.inr ⟨ended, busy, .inr ⟨turns, rfl⟩⟩)
  | .host .reset :: turns =>
    rw [step_of_sched_host turn] at h
    cases h
    exact .inl ⟨rfl, turns, rfl⟩
  | .host (.writeSrc i v) :: turns =>
    rw [step_of_sched_host turn] at h
    exact absurd (writeSrc_engine h) changed
  | .host (.writeWindow offset v) :: turns =>
    rw [step_of_sched_host turn] at h
    obtain ⟨busy, rfl, start⟩ := writeWindow_engine h changed
    exact .inr (.inl ⟨busy, v, turns, start, rfl⟩)

/-! ## The results of a tilemap job -/

/-- Four bytes in a register, from the least significant up. -/
def packed (a b c d : Byte) : Word32 :=
  a.setWidth 32 ||| (b.setWidth 32 <<< 8) ||| (c.setWidth 32 <<< 16) ||| (d.setWidth 32 <<< 24)

/-- Bit j of byte k of a register is bit 8k + j. -/
theorem packed_bytes (a b c d : Byte) :
    (packed a b c d).extractLsb' 0 8 = a ∧ (packed a b c d).extractLsb' 8 8 = b ∧
      (packed a b c d).extractLsb' 16 8 = c ∧ (packed a b c d).extractLsb' 24 8 = d := by
  refine ⟨?_, ?_, ?_, ?_⟩ <;> ext i hi <;> interval_cases i <;> simp [packed]

theorem packed_high (a b : Byte) : (packed a b 0 0).extractLsb' 16 16 = 0 := by
  ext i hi
  interval_cases i <;> simp [packed]

/-- A number below 256 is a byte, whatever the width of its register. -/
theorem setWidth_ofNat_byte {n : Nat} (h : n < 256) : (BitVec.ofNat 8 n).setWidth 32 = BitVec.ofNat 32 n := by
  apply BitVec.eq_of_toNat_eq
  rw [BitVec.toNat_setWidth, BitVec.toNat_ofNat, BitVec.toNat_ofNat]
  omega

theorem geom_eq_packed {t : TmRegs} (w : t.w ≤ 256) (l : t.l ≤ 256) :
    t.geom = packed t.left t.top (BitVec.ofNat 8 (t.w - 1)) (BitVec.ofNat 8 (t.l - 1)) := by
  rw [packed, setWidth_ofNat_byte (by omega), setWidth_ofNat_byte (by omega)]
  rfl

theorem dims_eq_packed (h : HmRegs) : h.dims = packed h.w h.h 0 0 := by
  simp [HmRegs.dims, packed]

/-- Settles O35. -/
theorem tilemapResultsArePacked : Obligations.TilemapResultsArePacked := by
  refine ⟨fun t w1 w2 l1 l2 => ?_, fun h => ?_⟩
  · rw [geom_eq_packed w2 l2]
    obtain ⟨left, top, w, l⟩ := packed_bytes t.left t.top (BitVec.ofNat 8 (t.w - 1)) (BitVec.ofNat 8 (t.l - 1))
    refine ⟨left, top, ?_, ?_⟩
    · rw [w, BitVec.toNat_ofNat]; omega
    · rw [l, BitVec.toNat_ofNat]; omega
  · rw [dims_eq_packed]
    obtain ⟨w, hh, -, -⟩ := packed_bytes h.w h.h 0 0
    exact ⟨w, hh, packed_high h.w h.h⟩

/-! ## What HOST reads of a tilemap job -/

theorem hostReadTmbuf_of_lt {s : State} {i : Nat} (done : s.win.engine = .done) (codec : s.jobCodec = 2)
    (h : i < s.win.resultCount.toNat) : s.hostReadTmbuf i = s.tmCellAt i := by
  simp [State.hostReadTmbuf, State.inResult, done, codec, h]

theorem hostReadHm_of_lt {s : State} {i : Nat} (done : s.win.engine = .done) (codec : s.jobCodec = 2)
    (h : i < s.win.resultAux.toNat) : s.hostReadHm i = s.hmCellAt i := by
  simp [State.hostReadHm, State.inResult, done, codec, h]

/-- A cell of a row-major layer lies in the layer. -/
theorem rowMajor_lt {x y w l : Nat} (hx : x < w) (hy : y < l) : y * w + x < w * l :=
  calc y * w + x < y * w + w := Nat.add_lt_add_left hx _
    _ = (y + 1) * w := (Nat.succ_mul y w).symm
    _ ≤ l * w := Nat.mul_le_mul_right w hy
    _ = w * l := Nat.mul_comm l w

/-- Settles O47. -/
theorem layersAreTheHalvesOfTheBuffer : Obligations.LayersAreTheHalvesOfTheBuffer := by
  intro s x y done codec
  refine ⟨fun w1 w2 l1 l2 geom count hx hy => ?_, fun aux2 aux hx hy => ?_⟩
  · have width : s.hostWidth = s.tm.w := by
      rw [State.hostWidth, geom]
      exact (tilemapResultsArePacked.1 s.tm w1 w2 l1 l2).2.2.1
    have cell := rowMajor_lt hx hy
    have both : s.win.resultCount.toNat = 2 * (s.tm.w * s.tm.l) := by rw [count]; ring
    have half : s.win.resultCount.toNat / 2 = s.tm.w * s.tm.l := by omega
    constructor
    · rw [State.hostReadFg, width, hostReadTmbuf_of_lt done codec (by omega)]
    · rw [State.hostReadBg, width, half, hostReadTmbuf_of_lt done codec (by omega), Nat.add_assoc]
  · have width : s.win.resultAux2.extractLsb' 0 8 = s.hm.w := by
      rw [aux2]
      exact (tilemapResultsArePacked.2 s.hm).1
    have cell := rowMajor_lt hx hy
    rw [State.hostReadHmAt, width, hostReadHm_of_lt done codec (by omega)]

/-! ## Reset -/

@[simp] theorem get?_unknown {α : Type} [Inhabited α] (stamp a : Nat) :
    (Memory.unknown stamp : Memory α).get? a = none := rfl

/-- The window of the reset state reads 0 at every register and every reserved offset. -/
theorem readWindow_of_reset {s : State} (window : s.win = State.reset.win) {offset : Nat}
    (register : offset % 4 = 0 ∨ 0x28 ≤ offset) : s.readWindow offset = 0 := by
  have noPart : ¬(offset < 0x28 ∧ offset % 4 ≠ 0) := by omega
  simp only [State.readWindow, window, if_neg noPart]
  repeat' split
  all_goals rfl

/-- Settles O48. -/
theorem blockResetClearsTheWindow : Obligations.BlockResetClearsTheWindow := by
  refine ⟨fun s turns turn => ?_, rfl, fun _ => readWindow_of_reset rfl⟩
  exact ⟨_, step_of_sched_host turn, rfl, fun _ => readWindow_of_reset (blockReset_win _), fun a =>
    ⟨rfl, rfl, rfl, rfl, rfl, rfl, rfl⟩⟩

/-- Settles O53. -/
theorem resetHasTheInvariants : Obligations.ResetHasTheInvariants :=
  ⟨by decide, rfl, fun _ => rfl, by decide, fun busy => (by cases busy), trivial⟩

/-! ## START -/

/-- The state START begins from takes CODEC of the same write (70_reset_and_hazards.md R381 step 1). -/
theorem writeCtrl_of_start (s : State) {v : Word32} (start : v.getLsbD 8 = true) :
    s.writeCtrl v = { s with win := { s.win with codec := v.setWidth 2 } }.startJob := by
  simp only [State.writeCtrl, start, if_true]

theorem startJob_select (s : State) :
    s.startJob.select =
      .token
        (if s.win.codec = 0 then .lzCtrl
        else if s.win.codec = 1 then .btCount
        else if s.win.codec = 2 then .tmHdr
        else .sprHeader) := by
  have phase : s.startJob.phase = firstPhase s.win.codec := rfl
  unfold firstPhase at phase
  split
  next h =>
    rw [State.select, phase, if_pos h]
    exact selectLz_of_empty rfl rfl
  next lz =>
    rw [if_neg lz] at phase
    split
    next h => exact select_of_phase rfl (phase.trans (if_pos h))
    next bt =>
      rw [if_neg bt] at phase
      split
      next h => exact select_of_phase rfl (phase.trans (if_pos h))
      next h => exact select_of_phase rfl (phase.trans (if_neg h))

/-- Settles O49. -/
theorem startSetsTheJobStartValues : Obligations.StartSetsTheJobStartValues := by
  intro s v waiting start
  let u : State := { s with win := { s.win with codec := v.setWidth 2 } }
  refine ⟨u.startJob, ?_, rfl, rfl, rfl, rfl, rfl, rfl, rfl, rfl, rfl, rfl, rfl, rfl, rfl, rfl, rfl, rfl, rfl, rfl,
    rfl, rfl, rfl, rfl, fun a ha => ⟨read_zeros freeAttr _ _ ha, read_zeros _ _ _ ha⟩, rfl, rfl, rfl,
    startJob_select u⟩
  rw [writeWindow_ctrl waiting, writeCtrl_of_start s start]

/-- The state a job begins from is a matter of the parameters, SRC, SRC_LEN, OUT_CAP, CODEC, the turns to come and the
counter of free values. -/
theorem startJob_congr {s t : State} (cfg : s.cfg = t.cfg) (src : s.mem.src = t.mem.src)
    (srcLen : s.win.srcLen = t.win.srcLen) (outCap : s.win.outCap = t.win.outCap) (codec : s.win.codec = t.win.codec)
    (stamp : s.stamp = t.stamp) (sched : s.sched = t.sched) : s.startJob = t.startJob := by
  simp only [State.startJob, cfg, src, srcLen, outCap, codec, stamp, sched]

/-- Settles O50: the two machines are in one state right after START. -/
theorem noValueSurvivesIntoTheNextJob : Obligations.NoValueSurvivesIntoTheNextJob := by
  intro s s' v n waiting waiting' start cfg src srcLen outCap stamp sched t t' h h'
  rw [writeWindow_ctrl waiting, writeCtrl_of_start s start] at h
  rw [writeWindow_ctrl waiting', writeCtrl_of_start s' start] at h'
  cases h
  cases h'
  exact congrArg (core.run n) (startJob_congr cfg src srcLen outCap rfl stamp sched)

end Sys2Proof.Machine
end

section
/-! VARINT (O12) and the tokens of LZD (O13 to O16): each token's next state as an equation per branch of its rule. -/

namespace Sys2Proof.Machine

/-! ## VARINT -/

/-- Settles O12. -/
theorem varintReturnsItsValue : Obligations.VarintReturnsItsValue := by
  refine fun s c => ⟨fun short => ?_, fun long => ?_⟩
  · exact congrArg settle (takeVarint_of_le short)
  · exact congrArg settle (takeVarint_of_lt long)

/-! ## Control bits -/

theorem takeCtl_lz_of_none {s : State} (bit : s.lz.bit = none) :
    s.takeCtl.lz = { s.lz with ctl := s.lz.ctl <<< 1, nctl := s.lz.nctl - 1 } := by
  simp only [State.takeCtl, bit, shiftCtl_lz]

theorem takeCtl_lz_of_some {s : State} {b : Bool} (bit : s.lz.bit = some b) :
    s.takeCtl.lz = { s.lz with bit := none } := by
  simp only [State.takeCtl, bit]

/-- With no bit in hand, k control bits taken are k bits shifted out of LZ_CTL and counted off LZ_NCTL. -/
theorem takeCtl_iterate_lz {s : State} (bit : s.lz.bit = none) (k : Nat) :
    (State.takeCtl^[k] s).lz = { s.lz with ctl := s.lz.ctl <<< k, nctl := s.lz.nctl - k } := by
  induction k with
  | zero => simp
  | succ k ih =>
    rw [Function.iterate_succ_apply', takeCtl_lz_of_none (by rw [ih]; exact bit), ih]
    simp only [LzRegs.mk.injEq, and_true]
    exact ⟨(BitVec.shiftLeft_add ..).symm, Nat.sub_sub ..⟩

/-- The first bit of a byte shifted k times is bit 7 - k of the byte. -/
theorem getLsbD_seven_shiftLeft (c : Byte) {k : Nat} (h : k < 8) : (c <<< k).getLsbD 7 = c.getLsbD (7 - k) := by
  rw [BitVec.getLsbD_shiftLeft]
  simp
  omega

theorem execLzCtrl_eq (c : Byte) (s : State) :
    exec (.lzCtrl c) s = .next
      { s with p := s.p + 8, lz := { s.lz with ctl := c <<< 1, nctl := 7, bit := some (c.getLsbD 7) } } := rfl

/-- Settles O13: the first control bit waits in `lz.bit`, the other seven in LZ_CTL. -/
theorem lzCtrlGivesEightControlBits : Obligations.LzCtrlGivesEightControlBits := by
  intro s c
  refine ⟨_, execLzCtrl_eq c s, rfl, ?_⟩
  set t : State := { s with p := s.p + 8, lz := { s.lz with ctl := c <<< 1, nctl := 7, bit := some (c.getLsbD 7) } }
  have first : t.takeCtl.lz = { s.lz with ctl := c <<< 1, nctl := 7, bit := none } := takeCtl_lz_of_some rfl
  have later (k : Nat) :
      (State.takeCtl^[k + 1] t).lz = { s.lz with ctl := c <<< (1 + k), nctl := 7 - k, bit := none } := by
    rw [Function.iterate_succ_apply, takeCtl_iterate_lz (by rw [first]), first, BitVec.shiftLeft_add]
  refine ⟨fun k hk => ?_, ?_⟩
  · cases k with
    | zero => exact selectLz_of_bit rfl
    | succ k =>
      rw [selectLz_of_nctl (by rw [later]) (by rw [later]; simp only; omega), later]
      rw [Nat.add_comm 1 k, getLsbD_seven_shiftLeft c hk]
  · exact selectLz_of_empty (by rw [later]) (by rw [later])

/-! ## Literals and back-references -/

theorem execLzLit_of_lt {s : State} (room : s.lz.out < s.win.outCap.toNat) (lit : Byte) :
    exec (.lzLit lit) s = .next
      { s with
        p := s.p + 8, lz := { s.takeCtl.lz with out := s.lz.out + 1 }
        mem := { s.mem with out := s.mem.out.write s.lz.out lit } } := by
  simp only [exec, execLzLit, takeCtl_advance, takeCtl_lz_out]
  rw [outWrite_of_lt (by exact room)]
  simp only [settle_ok, takeCtl_lz_out]

theorem execLzLit_of_le {s : State} (full : s.win.outCap.toNat ≤ s.lz.out) (lit : Byte) :
    exec (.lzLit lit) s = .next ({ s with p := s.p + 8, lz := s.takeCtl.lz }.raise ⟨.sizeMismatch, s.p⟩) := by
  simp only [exec, execLzLit, takeCtl_advance, takeCtl_lz_out]
  rw [outWrite_of_le (by exact full)]
  rfl

/-- Settles O14. -/
theorem lzLitWritesItsByte : Obligations.LzLitWritesItsByte := fun _ lit =>
  ⟨fun room => ⟨_, execLzLit_of_lt room lit, rfl, fun _ => read_write ..⟩, fun full => execLzLit_of_le full lit⟩

theorem execLzRef_of_far {s : State} {offset : BitVec 12} (far : s.lz.out - s.lz.base < offset.toNat)
    (lcode : BitVec 4) :
    exec (.lzRef offset lcode) s = .next
      ({ s with p := s.p + 16, lz := s.takeCtl.lz }.raise ⟨.backRefOutOfWindow, s.p⟩) := by
  simp only [exec, execLzRef, takeCtl_advance, takeCtl_lz_out, takeCtl_lz_base, if_pos far, settle_error]

theorem execLzRef_of_near {s : State} {offset : BitVec 12} (near : offset.toNat ≤ s.lz.out - s.lz.base)
    (lcode : BitVec 4) :
    exec (.lzRef offset lcode) s =
      settle (lzCopy offset.toNat s.p (lzLength lcode) { s with p := s.p + 16, lz := s.takeCtl.lz }) := by
  simp only [exec, execLzRef, takeCtl_advance, takeCtl_lz_out, takeCtl_lz_base, if_neg (Nat.not_lt.mpr near)]

theorem lzLength_pos (lcode : BitVec 4) : 0 < lzLength lcode := by
  have := lcode.isLt
  unfold lzLength
  omega

/-- A back-reference past OUT_CAP: what the copy had written by then does not show after the fault. -/
theorem execLzRef_of_lt {s : State} {offset : BitVec 12} {lcode : BitVec 4}
    (near : offset.toNat ≤ s.lz.out - s.lz.base) (full : s.win.outCap.toNat < s.lz.out + lzLength lcode) :
    exec (.lzRef offset lcode) s = .next
      ({ s with
          p := s.p + 16, lz := { s.takeCtl.lz with out := max s.lz.out s.win.outCap.toNat } }.raise
        ⟨.sizeMismatch, s.p⟩) := by
  obtain ⟨m, copy⟩ := lzCopy_of_lt (offset := offset.toNat) s.p (lzLength lcode)
    { s with p := s.p + 16, lz := s.takeCtl.lz } (by simpa using full) (lzLength_pos lcode)
  rw [execLzRef_of_near near, copy, settle_error]
  simp only [takeCtl_lz_out]
  rfl

/-- A back-reference that fits repeats the last `offset` bytes of the window. -/
theorem execLzRef_of_le {s : State} {offset : BitVec 12} {lcode : BitVec 4} (nonzero : offset ≠ 0)
    (near : offset.toNat ≤ s.lz.out - s.lz.base) (fits : s.lz.out + lzLength lcode ≤ s.win.outCap.toNat) :
    ∃ m, exec (.lzRef offset lcode) s = .next
        { s with
          p := s.p + 16, lz := { s.takeCtl.lz with out := s.lz.out + lzLength lcode }
          mem := { s.mem with out := m } } ∧
      (s.mem.out.wf = true → m.wf = true) ∧
      ∀ a, m.read (Config.freeBits 8 tagOut) a =
        if s.lz.out ≤ a ∧ a < s.lz.out + lzLength lcode then
          s.outByte (s.lz.out - offset.toNat + (a - s.lz.out) % offset.toNat)
        else s.outByte a := by
  have positive : 0 < offset.toNat := Nat.pos_of_ne_zero fun h => nonzero (BitVec.eq_of_toNat_eq h)
  obtain ⟨m, copy, wf, bytes⟩ := lzCopy_of_le (offset := offset.toNat) s.p (lzLength lcode)
    { s with p := s.p + 16, lz := s.takeCtl.lz } positive (by rw [takeCtl_lz_out]; omega) (by simpa using fits)
  simp only [takeCtl_lz_out] at copy bytes
  exact ⟨m, by rw [execLzRef_of_near near, copy, settle_ok], wf, bytes⟩

/-- Settles O15. -/
theorem lzRefRepeatsTheWindow : Obligations.LzRefRepeatsTheWindow := by
  refine fun s offset lcode nonzero => ⟨fun far => execLzRef_of_far far lcode, fun near full => ?_, fun near fits => ?_⟩
  · exact execLzRef_of_lt near full
  · obtain ⟨m, next, -, bytes⟩ := execLzRef_of_le nonzero near fits
    exact ⟨_, next, rfl, bytes⟩

/-! ## The end of a stream -/

theorem execLzEnd_decided {s : State} (decided : s.cfg = Config.decided) (lcode : BitVec 4) :
    exec (.lzEnd lcode) s = settle { s with p := s.p + 16, lz := s.takeCtl.lz }.endLz := by
  simp only [exec, execLzEnd, takeCtl_advance, decided, Config.decided]

theorem endLz_standalone {s : State} (phase : s.phase = .lz false) :
    s.endLz = .ok (s.finishJob s.lz.out (s.p / 8) 0 0 0) := by
  simp [State.endLz, phase]

/-- The return from a sub-stream at the decided values, which refuse an odd length and take any count (D41, D43). -/
theorem endLz_nested {s : State} (decided : s.cfg = Config.decided) (phase : s.phase = .lz true)
    (q : s.sp.q ≤ s.p / 8) (o : s.sp.o ≤ s.lz.out) :
    s.endLz =
      if (s.lz.out - s.sp.o) % 2 = 1 then
        .error (⟨.invalidControlCode, 8 * (s.sp.q - 2)⟩, { s with sp := { s.sp with q := s.p / 8, o := s.lz.out } })
      else .ok { s with sp := { s.sp with q := s.p / 8, o := s.lz.out } }.endWord := by
  simp only [State.endLz, if_pos phase, State.returnFromLz, Nat.add_sub_cancel' q, Nat.add_sub_cancel' o]
  simp [decided, Config.decided, lzCountRefuses]

/-- Settles O16, by whether the stream is nested. -/
theorem lzEndEndsTheStream : Obligations.LzEndEndsTheStream := by
  intro s lcode decided
  rw [execLzEnd_decided decided]
  refine ⟨fun phase count consumed => ?_, fun phase q o => ?_⟩
  · rw [endLz_standalone (by exact phase), settle_ok,
      finishJob_of_lt _ _ _ (by simpa using count) (by exact consumed) (by decide)]
    simp only [takeCtl_lz_out]
  · rw [endLz_nested (by exact decided) (by exact phase) (by exact q) (by simpa using o)]
    simp only [takeCtl_lz_out]
    refine ⟨fun even => ?_, fun odd => ?_⟩
    · rw [if_neg (by omega), settle_ok]
    · rw [if_pos odd, settle_error]

end Sys2Proof.Machine
end

section
/-! The tokens of BTD (O17 to O20, O22 to O24): each token's next state as an equation per branch of its rule, and the
loops that say what follows it. -/

namespace Sys2Proof.Machine

/-! ## The loops of the job -/

theorem nextMask_of_priority {s : State} (attr : s.bt.attr = .priority) : s.nextMask = s.beginMask .vflip := by
  simp only [State.nextMask, attr]

theorem nextMask_of_vflip {s : State} (attr : s.bt.attr = .vflip) : s.nextMask = s.beginMask .hflip := by
  simp only [State.nextMask, attr]

theorem nextMask_of_hflip {s : State} (attr : s.bt.attr = .hflip) : s.nextMask = s.beginPairs := by
  simp only [State.nextMask, attr]

theorem beginPairs_of_ne {s : State} (some : s.bt.n ≠ 0) :
    s.beginPairs = { s with bt := { s.bt with occ := 0, k := 0 }, phase := .btIndex } :=
  if_neg some

theorem beginPairs_of_eq {s : State} (none : s.bt.n = 0) :
    s.beginPairs = { s with bt := { s.bt with occ := 0, k := 0 } }.finishBigTiles :=
  if_pos none

theorem endPair_of_lt {s : State} (more : s.bt.k + 1 < 2 * s.bt.n.toNat) :
    s.endPair = { s with bt := { s.bt with k := s.bt.k + 1 }, phase := .btIndex } :=
  if_pos more

theorem endPair_of_le {s : State} (last : 2 * s.bt.n.toNat ≤ s.bt.k + 1) :
    s.endPair = { s with bt := { s.bt with k := s.bt.k + 1 } }.finishBigTiles :=
  if_neg (Nat.not_lt.mpr last)

/-- The results of a BTD job fit their registers where the bytes consumed do. -/
theorem finishBigTiles_of_lt {s : State} (consumed : (s.p + 7) / 8 < 2 ^ 32) :
    s.finishBigTiles =
      { s with
        win := s.win.ended s.bt.n.toNat ((s.p + 7) / 8) 0 0 0, phase := .none, stamp := s.stamp + 1 } :=
  finishJob_of_lt s 0 0 (Nat.lt_trans s.bt.n.isLt (by decide)) consumed (by decide)

/-- Settles O20. -/
theorem maskPassesAndPairsComeInOrder : Obligations.MaskPassesAndPairsComeInOrder := by
  intro s
  refine ⟨nextMask_of_priority, nextMask_of_vflip, fun attr some => ?_, fun attr none consumed => ?_, endPair_of_lt,
    fun last consumed => ?_⟩
  · rw [nextMask_of_hflip attr, beginPairs_of_ne some]
  · rw [nextMask_of_hflip attr, beginPairs_of_eq none, finishBigTiles_of_lt (by exact consumed)]
    simp only [none]
    rfl
  · rw [endPair_of_le last, finishBigTiles_of_lt (by exact consumed)]

/-! ## BT.COUNT -/

theorem execBtCount_of_lt {s : State} {n : Half} (large : s.win.outCap.toNat < 4 * n.toNat) :
    exec (.btCount n) s = .next
      ({ s with p := s.p + 16, bt := { s.bt with n := n, total := 4 * n.toNat } }.raise ⟨.sizeMismatch, s.p⟩) := by
  simp only [exec, execBtCount, if_pos large, settle_error]
  rfl

theorem execBtCount_of_le {s : State} {n : Half} (fits : 4 * n.toNat ≤ s.win.outCap.toNat) :
    exec (.btCount n) s = .next
      { s with
        p := s.p + 16, bt := { s.bt with n := n, total := 4 * n.toNat }
        mem := { s.mem with tileAttr := s.mem.tileAttr.clearTo (4 * n.toNat) } }.beginMasks := by
  simp only [exec, execBtCount, if_neg (Nat.not_lt.mpr fits), settle_ok]
  rfl

theorem beginMasks_of_pos {s : State} (some : 0 < s.bt.total) : s.beginMasks = s.beginMask .priority :=
  if_neg (Nat.pos_iff_ne_zero.mp some)

theorem beginMasks_of_zero {s : State} (none : s.bt.total = 0) :
    s.beginMasks = { s with bt := { s.bt with attr := .hflip, pos := 0, first := true } }.beginPairs :=
  if_pos none

/-- Settles O17. -/
theorem btCountSizesTheJob : Obligations.BtCountSizesTheJob := by
  refine fun s n => ⟨execBtCount_of_lt, fun some fits => ?_, ?_⟩
  · have next := execBtCount_of_le fits
    rw [beginMasks_of_pos (by simp only; omega)] at next
    exact ⟨_, next, rfl, fun i => read_clearTo ..⟩
  · rintro rfl consumed
    have next := execBtCount_of_le (s := s) (n := 0) (Nat.zero_le _)
    rw [beginMasks_of_zero rfl, beginPairs_of_eq rfl, finishBigTiles_of_lt (by exact consumed)] at next
    exact ⟨_, next, rfl, fun i => read_clearTo ..⟩

/-! ## The runs of a mask -/

theorem skipTiles_of_lt {s : State} {n : Nat} (past : s.bt.total < s.bt.pos + n) (pos : Nat) :
    s.skipTiles n pos = .error (⟨.runOverrun, pos⟩, { s with bt := { s.bt with pos := s.bt.pos + n } }) :=
  if_pos past

theorem skipTiles_of_le {s : State} {n : Nat} (within : s.bt.pos + n ≤ s.bt.total) (pos : Nat) :
    s.skipTiles n pos = .ok { s with bt := { s.bt with pos := s.bt.pos + n, first := false } }.afterSkip :=
  if_neg (Nat.not_lt.mpr within)

/-- The two skip rows differ in the length of their run alone (42_bigtile.md R213, R214). -/
def IsSkip (i : Instr) (c : VarCode) (n : Nat) : Prop :=
  i = .btSkip0 c ∧ n = c.value ∨ i = .btSkip c ∧ n = c.value + 1

/-- A skip run as a move over its coded number and a move of the mask. -/
theorem exec_of_isSkip {s : State} {i : Instr} {c : VarCode} {n : Nat} (skip : IsSkip i c n)
    (short : c.exp ≤ s.cfg.varintMaxExp) :
    exec i s = settle ({ s with p := s.p + (2 * c.exp + 1), ve := c.exp, varVal := c.value }.skipTiles n s.p) := by
  obtain ⟨rfl, rfl⟩ | ⟨rfl, rfl⟩ := skip
  · simp only [exec, execBtSkip0, takeVarint_of_le short]
  · simp only [exec, execBtSkip, takeVarint_of_le short]

/-- Settles O18. -/
theorem skipRunsMoveTheMask : Obligations.SkipRunsMoveTheMask := by
  intro s i c n short skip
  rw [exec_of_isSkip skip short]
  refine ⟨fun past => ?_, fun reached => ?_, fun below => ?_⟩
  · rw [skipTiles_of_lt (by exact past), settle_error]
  · rw [skipTiles_of_le (by exact reached.le), settle_ok]
    exact congrArg _ (if_pos reached)
  · rw [skipTiles_of_le (by exact below.le), settle_ok]
    exact congrArg _ (if_neg below.ne)

theorem execBtApply_of_lt {s : State} {c : VarCode} (short : c.exp ≤ s.cfg.varintMaxExp)
    (past : s.bt.total < s.bt.pos + (c.value + 1)) :
    exec (.btApply c) s = .next
      ({ s with p := s.p + (2 * c.exp + 1), ve := c.exp, varVal := c.value }.raise ⟨.runOverrun, s.p⟩) := by
  simp only [exec, execBtApply, takeVarint_of_le short, if_pos past, settle_error]

/-- The state after an apply run, before the mask goes on. -/
def State.applied (s : State) (c : VarCode) : State :=
  { s with
    p := s.p + (2 * c.exp + 1), ve := c.exp, varVal := c.value
    bt := { s.bt with pos := s.bt.pos + (c.value + 1) }
    mem := { s.mem with tileAttr := setAttrRun s.mem.tileAttr s.bt.attr s.bt.pos (c.value + 1) } }

theorem execBtApply_of_le {s : State} {c : VarCode} (short : c.exp ≤ s.cfg.varintMaxExp)
    (within : s.bt.pos + (c.value + 1) ≤ s.bt.total) :
    exec (.btApply c) s = .next (s.applied c).afterApply := by
  simp only [exec, execBtApply, takeVarint_of_le short, if_neg (Nat.not_lt.mpr within), settle_ok]
  rfl

theorem set_eq (a : TileAttr) (attr : Attr) :
    a.set attr =
      { hflip := a.hflip || decide (attr = .hflip), vflip := a.vflip || decide (attr = .vflip)
        priority := a.priority || decide (attr = .priority) } := by
  cases attr <;> simp [TileAttr.set]

/-- Settles O19. -/
theorem applyRunsSetTheAttribute : Obligations.ApplyRunsSetTheAttribute := by
  refine fun s c short => ⟨execBtApply_of_lt short, fun within => ⟨s.applied c, ?_, rfl, fun i => ?_⟩⟩
  · rw [execBtApply_of_le short within, State.afterApply]
    rfl
  · rw [State.tileAttrs, State.applied, read_setAttrRun, set_eq]
    rfl

/-! ## Indices -/

theorem placeIndex_of_companion {s : State} (phase : s.phase = .btCompIndex) (v : Half) :
    s.placeIndex v = (s.setTileIndex (2 * s.bt.k + 1) v).endPair :=
  if_pos phase

theorem placeIndex_of_first {s : State} (phase : s.phase ≠ .btCompIndex) (v : Half) :
    s.placeIndex v = { s.setTileIndex (2 * s.bt.k) v with phase := .btCompanion } :=
  if_neg phase

theorem tileIndex_setTileIndex (s : State) (i : Nat) (v : Half) (a : Nat) :
    (s.setTileIndex i v).tileIndex a = if a = i then v else s.tileIndex a :=
  read_write ..

theorem execBtIdxRaw_eq (r : BitVec 11) (s : State) :
    exec (.btIdxRaw r) s = .next
      ({ s with p := s.p + 12, bt := s.bt.pushFront (r.setWidth 16) }.placeIndex (r.setWidth 16)) := rfl

/-- Settles O22, by the tile the index is for. -/
theorem rawIndexIsPushedAndPlaced : Obligations.RawIndexIsPushedAndPlaced := by
  intro s r
  rw [execBtIdxRaw_eq]
  refine ⟨fun first => ?_, fun companion => ?_⟩
  · rw [placeIndex_of_first (by exact first)]
    refine ⟨_, rfl, rfl, fun a => (tileIndex_setTileIndex _ _ _ a).trans ?_⟩
    rw [pushFront_k]
    rfl
  · rw [placeIndex_of_companion (by exact companion)]
    refine ⟨_, rfl, rfl, fun a => ?_⟩
    rw [tileIndex_setTileIndex, pushFront_k]
    rfl

theorem execBtIdxMtf_of_le {s : State} {i : BitVec 4} (faults : s.cfg.btMtfOor = .fault) (empty : s.bt.occ ≤ i.toNat) :
    exec (.btIdxMtf i) s = .next ({ s with p := s.p + 5 }.raise ⟨.invalidDictionaryIndex, s.p⟩) := by
  simp only [exec, execBtIdxMtf, advance_bt, if_pos empty, faults, settle_error]
  rfl

theorem execBtIdxMtf_of_lt {s : State} {i : BitVec 4} (filled : i.toNat < s.bt.occ) :
    exec (.btIdxMtf i) s = .next
      ({ s with p := s.p + 5, bt := s.bt.moveToFront i }.placeIndex (s.bt.q[i.toNat]'i.isLt)) := by
  simp only [exec, execBtIdxMtf, advance_bt, if_neg (Nat.not_le.mpr filled), settle_ok, moveToFront_q_zero]
  rfl

/-- Settles O23, by the tile the index is for. -/
theorem queueIndexIsMovedAndPlaced : Obligations.QueueIndexIsMovedAndPlaced := by
  intro s i
  refine ⟨fun decided => execBtIdxMtf_of_le (by rw [decided]; rfl), fun filled first => ?_, fun filled companion => ?_⟩
  · rw [execBtIdxMtf_of_lt filled, placeIndex_of_first (by exact first)]
    refine ⟨_, rfl, rfl, fun a => (tileIndex_setTileIndex _ _ _ a).trans ?_⟩
    rw [moveToFront_k]
    rfl
  · rw [execBtIdxMtf_of_lt filled, placeIndex_of_companion (by exact companion)]
    refine ⟨_, rfl, rfl, fun a => ?_⟩
    rw [tileIndex_setTileIndex, moveToFront_k]
    rfl

/-- The companion BT.COMP.DER derives from tile 2k (42_bigtile.md R220). -/
def State.derived (s : State) : Half :=
  if (s.tileAttrs (2 * s.bt.k)).hflip then s.tileIndex (2 * s.bt.k) - 1 else s.tileIndex (2 * s.bt.k) + 1

theorem execBtCompDer_eq {s : State} (plain : s.cfg.btPushDerived = false) :
    exec .btCompDer s = .next ({ s with p := s.p + 1 }.setTileIndex (2 * s.bt.k + 1) s.derived).endPair := by
  simp only [exec, execBtCompDer, plain, Bool.false_eq_true, if_false]
  rfl

/-- Settles O24. -/
theorem companionIsDerivedOrFollows : Obligations.CompanionIsDerivedOrFollows := by
  refine fun s => ⟨fun decided => ?_, rfl⟩
  exact ⟨_, execBtCompDer_eq (by rw [decided]; rfl), rfl, fun a => tileIndex_setTileIndex ..⟩

end Sys2Proof.Machine
end

section
/-! The tokens of TMD (O25 to O28, O30 to O34): each token's next state as an equation per branch of its rule. -/

namespace Sys2Proof.Machine

/-! ## Header and dictionaries -/

/-- The state TM.HDR has reached when it checks T against OUT_CAP (43_tilemap.md R251). -/
def State.sized (s : State) (left top wm1 hs : Byte) : State :=
  { s with
    p := s.p + 32
    tm :=
      { s.tm with
        left := left, top := top, w := wm1.toNat + 1, l := hs.toNat + 1, h := 2 * (hs.toNat + 1)
        t := (wm1.toNat + 1) * (2 * (hs.toNat + 1)) } }

theorem execTmHdr_of_lt {s : State} {left top wm1 hs : Byte}
    (large : s.win.outCap.toNat < (wm1.toNat + 1) * (2 * (hs.toNat + 1))) :
    exec (.tmHdr left top wm1 hs) s = .next ((s.sized left top wm1 hs).raise ⟨.sizeMismatch, s.p⟩) := by
  simp only [exec, execTmHdr, if_pos large, settle_error]
  rfl

theorem execTmHdr_of_le {s : State} {left top wm1 hs : Byte}
    (fits : (wm1.toNat + 1) * (2 * (hs.toNat + 1)) ≤ s.win.outCap.toNat) :
    exec (.tmHdr left top wm1 hs) s = .next { s.sized left top wm1 hs with phase := .tmTdict } := by
  simp only [exec, execTmHdr, if_neg (Nat.not_lt.mpr fits), settle_ok]
  rfl

theorem execTmTdict_eq (b0 b1 : BitVec 10) (s : State) :
    exec (.tmTdict b0 b1) s = .next
      { s with
        p := s.p + 20
        tm :=
          if s.cfg.tmCountersAlias then { s.tm with c0 := b0.setWidth 16, c1 := b1.setWidth 16 }
          else { s.tm with b0 := b0, b1 := b1 }
        phase := .tmOdict } := by
  simp only [exec, execTmTdict, setB1_setB0]
  rfl

/-- Settles O25. -/
theorem headerAndDictionariesAreSet : Obligations.HeaderAndDictionariesAreSet := fun s =>
  ⟨fun _ _ _ _ => ⟨execTmHdr_of_lt, execTmHdr_of_le⟩, fun b0 b1 => execTmTdict_eq b0 b1 s,
    fun _ _ _ _ _ _ _ _ => rfl⟩

/-! ## Phase 1 -/

/-- The state after a coded number has moved the phase-1 cursor (43_tilemap.md R255). -/
def State.movedBy (s : State) (c : VarCode) : State :=
  { s with
    p := s.p + (2 * c.exp + 1), ve := c.exp, varVal := c.value, tm := { s.tm with c := s.tm.c + (c.delta : Int) } }

theorem execTmDelta_of_le {s : State} {c : VarCode} (short : c.exp ≤ s.cfg.varintMaxExp) :
    exec (.tmDelta c) s = .next { s.movedBy c with phase := .tmCmd } := by
  simp only [exec, execTmDelta, takeVarint_of_le short, settle_ok]
  rfl

theorem execTmEnd_of_le {s : State} {c : VarCode} (short : c.exp ≤ s.cfg.varintMaxExp) :
    exec (.tmEnd c) s = .next (s.movedBy c).beginFill := by
  simp only [exec, execTmEnd, takeVarint_of_le short, settle_ok]
  rfl

/-- Settles O26. -/
theorem deltasMoveTheCursor : Obligations.DeltasMoveTheCursor := by
  refine fun s c short => ⟨execTmDelta_of_le short, fun whole => ?_⟩
  rw [execTmEnd_of_le short, beginFill_whole (by exact whole)]
  rfl

/-- The dictionary index of an extended command at the decided values (30_encoding.md R131). -/
theorem extIndex_decided (x : BitVec 1) (e : BitVec 2) :
    (extIndex Config.decided x e).val = 6 + 4 * x.toNat + e.toNat := by
  revert x e; decide

/-- The two command rows differ in their length and in how they name the dictionary entry (43_tilemap.md R257, R258). -/
def IsCommand (i : Instr) (len k : Nat) : Prop :=
  (∃ c : BitVec 3, c.toNat ≤ 5 ∧ i = .tmCmdS c ∧ len = 3 ∧ k = c.toNat) ∨
    ∃ (x : BitVec 1) (e : BitVec 2), i = .tmCmdX x e ∧ len = 5 ∧ k = 6 + 4 * x.toNat + e.toNat

theorem exec_of_isCommand {s : State} {i : Instr} {len k : Nat} (hk : k < 14) (decided : s.cfg = Config.decided)
    (command : IsCommand i len k) : exec i s = settle ((s.advance len).placeCommand s.tm.od[k] s.p) := by
  obtain ⟨c, -, rfl, rfl, rfl⟩ | ⟨x, e, rfl, rfl, rfl⟩ := command
  · rfl
  · simp only [exec, execTmCmdX, Fin.getElem_fin, decided, extIndex_decided]

theorem placeCommand_decided {s : State} (decided : s.cfg = Config.decided) (room : s.tm.c.toNat < s.win.outCap.toNat)
    (v : Half) (pos : Nat) :
    s.placeCommand v pos =
      .ok
        { s with
          tm := { s.tm with v := v, pc := s.tm.c.toNat, sel := false }, phase := .tmPropA
          mem := { s.mem with tmbuf := s.mem.tmbuf.write s.tm.c.toNat v } } := by
  rw [placeCommand_of_lt room, decided]
  rfl

/-- Settles O27. -/
theorem commandsPlaceDictionaryValues : Obligations.CommandsPlaceDictionaryValues := by
  intro s i len k hk decided _ command
  rw [exec_of_isCommand hk decided command]
  refine ⟨fun full => ?_, fun room => ?_⟩
  · rw [placeCommand_of_le (by exact full)]
    rfl
  · rw [placeCommand_decided (by exact decided) (by exact room)]
    exact ⟨_, rfl, rfl, fun a => read_write ..⟩

/-! ## Propagation -/

/-- The cell of TM.PROP.CELL: the stride below the last one (43_tilemap.md R262). -/
def TmRegs.nextPc (t : TmRegs) : Nat :=
  t.pc + t.stride

theorem tmPropagate_decided {s : State} (decided : s.cfg = Config.decided) :
    s.cfg.tmPropagate = Propagation.reference := by
  rw [decided]; rfl

theorem tmPassExtent_decided {s : State} (decided : s.cfg = Config.decided) : s.cfg.tmPassExtent = .whole := by
  rw [decided]; rfl

theorem execTmPropRun_decided {s : State} (decided : s.cfg = Config.decided) :
    exec .tmPropRun s = .next { s with p := s.p + 1, phase := .tmPropB } := by
  simp only [exec, execTmPropRun, tmPropagate_decided decided]
  rfl

theorem execTmPropStop_decided {s : State} (decided : s.cfg = Config.decided) :
    exec .tmPropStop s = .next { s with p := s.p + 1, phase := .tmDelta } := by
  simp only [exec, execTmPropStop, tmPropagate_decided decided]
  rfl

theorem execTmPropEndrun_decided {s : State} (decided : s.cfg = Config.decided) :
    exec .tmPropEndrun s =
      .next { s with p := s.p + 1, tm := { s.tm with sel := !s.tm.sel }, phase := .tmPropA } := by
  simp only [exec, execTmPropEndrun, tmPropagate_decided decided]
  rfl

/-- The state in which TM.PROP.CELL has reached its cell. -/
def State.propagated (s : State) : State :=
  { s with p := s.p + 1, tm := { s.tm with pc := s.tm.nextPc } }

/-- TM.PROP.CELL at the decided values: past the end it faults, else it writes its cell, and a bit B follows. -/
theorem execTmPropCell_decided {s : State} (decided : s.cfg = Config.decided) :
    exec .tmPropCell s =
      settle
        (if s.tm.t ≤ s.tm.nextPc then .error (⟨.runOverrun, s.p⟩, s.propagated)
        else
          match s.propagated.tmWrite s.tm.nextPc s.tm.v s.p with
          | .ok t => .ok { t with phase := .tmPropB }
          | .error f => .error f) := by
  simp only [exec, execTmPropCell]
  rw [passEnd_whole (by exact tmPassExtent_decided decided), tmPropagate_decided decided]
  rfl

theorem execTmPropCell_of_past {s : State} (decided : s.cfg = Config.decided) (past : s.tm.t ≤ s.tm.nextPc) :
    exec .tmPropCell s = .next (s.propagated.raise ⟨.runOverrun, s.p⟩) := by
  rw [execTmPropCell_decided decided, if_pos past, settle_error]

theorem execTmPropCell_of_full {s : State} (decided : s.cfg = Config.decided) (below : s.tm.nextPc < s.tm.t)
    (full : s.win.outCap.toNat ≤ s.tm.nextPc) :
    exec .tmPropCell s = .next (s.propagated.raise ⟨.sizeMismatch, s.p⟩) := by
  rw [execTmPropCell_decided decided, if_neg (Nat.not_le.mpr below), tmWrite_of_le (by exact full), settle_error]

theorem execTmPropCell_of_room {s : State} (decided : s.cfg = Config.decided) (below : s.tm.nextPc < s.tm.t)
    (room : s.tm.nextPc < s.win.outCap.toNat) :
    exec .tmPropCell s = .next
      { s with
        p := s.p + 1, tm := { s.tm with pc := s.tm.nextPc }, phase := .tmPropB
        mem := { s.mem with tmbuf := s.mem.tmbuf.write s.tm.nextPc s.tm.v } } := by
  rw [execTmPropCell_decided decided, if_neg (Nat.not_le.mpr below), tmWrite_of_lt (by exact room), settle_ok]
  rfl

/-- Settles O28. -/
theorem propagationFollowsItsBits : Obligations.PropagationFollowsItsBits := by
  intro s decided
  exact ⟨execTmPropRun_decided decided, execTmPropStop_decided decided, execTmPropEndrun_decided decided,
    execTmPropCell_of_past decided, execTmPropCell_of_full decided,
    fun below room => ⟨_, execTmPropCell_of_room decided below room, rfl, fun _ => read_write ..⟩⟩

/-! ## Phase 2 -/

theorem fillCell_whole {s : State} (whole : s.cfg.tmPassExtent = .whole) (room : s.tm.i < s.win.outCap.toNat) (v : Half)
    (pos : Nat) :
    s.fillCell v pos =
      .ok
        { s with
          tm := { s.tm with i := s.tm.i + 1 }, mem := { s.mem with tmbuf := s.mem.tmbuf.write s.tm.i v }
          phase := if s.tm.i + 1 < s.tm.t then .tmCell else .tmAlign } := by
  rw [fillCell_of_lt room, nextCell_whole (by exact whole)]

theorem setMode_of_cellMode {s : State} {d : Half} (mode : s.cellMode = some d) :
    s.setMode = { s with tm := { s.tm with mode := some d } } := by
  rw [State.setMode, mode]

theorem execTmCopy_of_mode {s : State} {d : Half} (mode : s.cellMode = some d) :
    exec .tmCopy s =
      settle
        (if s.tm.i < d.toNat then
          .error (⟨.backRefOutOfWindow, s.p⟩, { s with tm := { s.tm with mode := some d } })
        else { s with tm := { s.tm with mode := some d } }.fillCell (s.tmCellAt (s.tm.i - d.toNat)) s.p) := by
  simp only [exec, execTmCopy, mode, setMode_of_cellMode mode]
  rfl

/-- Settles O30. -/
theorem copyRepeatsAnEarlierCell : Obligations.CopyRepeatsAnEarlierCell := by
  intro s d whole mode
  rw [execTmCopy_of_mode mode]
  refine ⟨fun far => ?_, fun near full => ?_, fun near room => ?_⟩
  · rw [if_pos far, settle_error]
  · rw [if_neg (Nat.not_lt.mpr near), fillCell_of_le (by exact full), settle_error]
  · rw [if_neg (Nat.not_lt.mpr near), fillCell_whole (by exact whole) (by exact room), settle_ok]
    exact ⟨_, rfl, rfl, fun a => read_write ..⟩

/-- The state from which a literal of `len` bits fills its cell: its bits read, its mode set. -/
def State.literalRead (s : State) (len : Nat) : State :=
  { s with p := s.p + len, tm := { s.tm with mode := s.cellMode } }

theorem bound0_decided {s : State} (decided : s.cfg = Config.decided) : s.bound0 = s.tm.b0.toNat := by
  rw [State.bound0, decided]; rfl

theorem bound1_decided {s : State} (decided : s.cfg = Config.decided) : s.bound1 = s.tm.b1.toNat := by
  rw [State.bound1, decided]; rfl

theorem sel1Bound_decided {s : State} (decided : s.cfg = Config.decided) : s.sel1Bound = s.tm.b1.toNat := by
  rw [State.sel1Bound, decided]; exact bound1_decided decided

theorem toNat_eq_zero_iff {w : Nat} (b : BitVec w) : b.toNat = 0 ↔ b = 0 := by
  rw [← BitVec.toNat_inj, BitVec.ofNat_eq_ofNat, BitVec.toNat_ofNat, Nat.zero_mod]

theorem execTmLitRaw_of_zero {s : State} (decided : s.cfg = Config.decided) (zero : s.tm.b0 = 0) (n v : Nat) :
    exec (.tmLitRaw n v) s = .next ((s.literalRead 2).raise ⟨.invalidDictionaryIndex, s.p⟩) := by
  have bound : s.bound0 = 0 := by rw [bound0_decided decided, zero]; rfl
  simp only [exec, execTmLitRaw, if_pos bound, settle_error]
  rfl

theorem execTmLitOfs_of_zero {s : State} (decided : s.cfg = Config.decided) (zero : s.tm.b1 = 0) (n v : Nat) :
    exec (.tmLitOfs n v) s = .next ((s.literalRead 2).raise ⟨.invalidDictionaryIndex, s.p⟩) := by
  have bound : s.sel1Bound = 0 := by rw [sel1Bound_decided decided, zero]; rfl
  simp only [exec, execTmLitOfs, if_pos bound, settle_error]
  rfl

theorem execTmLitRaw_of_ne {s : State} (decided : s.cfg = Config.decided) (nonzero : s.tm.b0 ≠ 0) (n v : Nat) :
    exec (.tmLitRaw n v) s = settle ((s.literalRead (2 + n)).fillCell (BitVec.ofNat 16 v) s.p) := by
  have bound : s.bound0 ≠ 0 := by rw [bound0_decided decided]; exact (toNat_eq_zero_iff _).not.mpr nonzero
  simp only [exec, execTmLitRaw, if_neg bound]
  rfl

theorem execTmLitOfs_of_ne {s : State} (decided : s.cfg = Config.decided) (nonzero : s.tm.b1 ≠ 0) (n v : Nat) :
    exec (.tmLitOfs n v) s =
      settle ((s.literalRead (2 + n)).fillCell (BitVec.ofNat 16 (s.tm.b1.toNat + v)) s.p) := by
  have bound : s.sel1Bound ≠ 0 := by rw [sel1Bound_decided decided]; exact (toNat_eq_zero_iff _).not.mpr nonzero
  simp only [exec, execTmLitOfs, if_neg bound, bound1_decided decided]
  rfl

/-- The state after a literal of `len` bits has given its cell the value x and left the counters at c0 and c1. -/
def State.literalFilled (s : State) (len : Nat) (x c0 c1 : Half) : State :=
  { s with
    p := s.p + len, tm := { s.tm with i := s.tm.i + 1, mode := s.cellMode, c0 := c0, c1 := c1 }
    phase := if s.tm.i + 1 < s.tm.t then .tmCell else .tmAlign
    mem := { s.mem with tmbuf := s.mem.tmbuf.write s.tm.i x } }

theorem fillCell_literalRead {s : State} (decided : s.cfg = Config.decided) (room : s.tm.i < s.win.outCap.toNat)
    (len : Nat) (x : Half) :
    (s.literalRead len).fillCell x s.p = .ok (s.literalFilled len x s.tm.c0 s.tm.c1) := by
  rw [fillCell_whole (by exact tmPassExtent_decided decided) (by exact room)]
  rfl

theorem execTmLitCnt0_of_lt {s : State} (decided : s.cfg = Config.decided) (room : s.tm.i < s.win.outCap.toNat) :
    exec .tmLitCnt0 s = .next (s.literalFilled 2 s.tm.c0 (s.tm.c0 + 1) s.tm.c1) := by
  have filled := fillCell_literalRead decided room 2 s.tm.c0
  simp only [exec, execTmLitCnt0]
  rw [show (s.advance 2).setMode = s.literalRead 2 from rfl, filled]
  rfl

theorem execTmLitCnt1_of_lt {s : State} (decided : s.cfg = Config.decided) (room : s.tm.i < s.win.outCap.toNat) :
    exec .tmLitCnt1 s = .next (s.literalFilled 2 s.tm.c1 s.tm.c0 (s.tm.c1 + 1)) := by
  have filled := fillCell_literalRead decided room 2 s.tm.c1
  simp only [exec, execTmLitCnt1]
  rw [show (s.advance 2).setMode = s.literalRead 2 from rfl, filled]
  rfl

/-- Settles O31. -/
theorem literalsFillTheCell : Obligations.LiteralsFillTheCell := by
  refine ⟨fun s i len x c0 c1 decided room literal => ⟨s.literalFilled len x c0 c1, ?_, rfl, fun a => read_write ..⟩,
    fun s n v decided => ⟨fun zero => execTmLitRaw_of_zero decided zero n v,
      fun zero => execTmLitOfs_of_zero decided zero n v⟩⟩
  obtain ⟨n, v, rfl, -, nonzero, rfl, rfl, rfl, rfl⟩ | ⟨n, v, rfl, -, nonzero, rfl, rfl, rfl, rfl⟩ |
    ⟨rfl, rfl, rfl, rfl, rfl⟩ | ⟨rfl, rfl, rfl, rfl, rfl⟩ := literal
  · rw [execTmLitRaw_of_ne decided nonzero, fillCell_literalRead decided room, settle_ok]
  · rw [execTmLitOfs_of_ne decided nonzero, fillCell_literalRead decided room, settle_ok]
  · exact execTmLitCnt0_of_lt decided room
  · exact execTmLitCnt1_of_lt decided room

/-! ## Alignment and the heightmap -/

theorem execTmAlign_eq (pad : List Bool) (s : State) :
    exec (.tmAlign pad) s = .next { s with p := alignedPos s.cfg s.p, phase := .hmDim } := rfl

/-- Align at the decided values: the next multiple of 8, or p where it is one (40_bitstream.md R153). -/
theorem alignedPos_decided (p : Nat) :
    alignedPos Config.decided p % 8 = 0 ∧ p ≤ alignedPos Config.decided p ∧ alignedPos Config.decided p < p + 8 := by
  rcases Nat.eq_zero_or_pos (p % 8) with aligned | unaligned
  · rw [alignedPos_of_aligned rfl aligned]; omega
  · rw [alignedPos_of_unaligned _ (by omega), or_seven_eq]; omega

/-- Settles O32. -/
theorem alignReachesTheByteBoundary : Obligations.AlignReachesTheByteBoundary := by
  intro s pad decided
  refine ⟨_, execTmAlign_eq pad s, ?_⟩
  rw [decided]
  exact alignedPos_decided s.p

theorem execHmDim_of_lt {s : State} {hw hh : Byte} (large : s.win.outCap.toNat < hw.toNat * hh.toNat) :
    exec (.hmDim hw hh) s = .next
      ({ s with p := s.p + 16, hm := { s.hm with w := hw, h := hh } }.raise ⟨.sizeMismatch, s.p⟩) := by
  simp only [exec, execHmDim, if_pos large, settle_error]
  rfl

/-- The state after HM.DIM with dimensions that fit (43_tilemap.md R272). -/
def State.dimensioned (s : State) (hw hh : Byte) : State :=
  { s with p := s.p + 16, hm := { s.hm with w := hw, h := hh, j := 0, run := 0 } }

theorem execHmDim_of_pos {s : State} {hw hh : Byte} (fits : hw.toNat * hh.toNat ≤ s.win.outCap.toNat)
    (some : 0 < hw.toNat * hh.toNat) :
    exec (.hmDim hw hh) s = .next { s.dimensioned hw hh with phase := .hmCell } := by
  simp only [exec, execHmDim, if_neg (Nat.not_lt.mpr fits), if_neg some.ne', settle_ok]
  rfl

theorem execHmDim_of_zero {s : State} {hw hh : Byte} (none : hw.toNat * hh.toNat = 0) :
    exec (.hmDim hw hh) s = .next (s.dimensioned hw hh).finishTilemap := by
  simp only [exec, execHmDim, none, if_neg (Nat.not_lt_zero _), if_true, settle_ok]
  rfl

theorem cells_lt (h : HmRegs) : h.cells < 2 ^ 32 :=
  calc h.w.toNat * h.h.toNat
    _ ≤ 255 * 255 := Nat.mul_le_mul (Nat.le_of_lt_succ h.w.isLt) (Nat.le_of_lt_succ h.h.isLt)
    _ < 2 ^ 32 := by decide

/-- The results of a TMD job fit their registers where T and the bytes consumed do. -/
theorem finishTilemap_of_lt {s : State} (count : s.tm.t < 2 ^ 32) (consumed : (s.p + 7) / 8 < 2 ^ 32) :
    s.finishTilemap =
      { s with
        win := s.win.ended s.tm.t ((s.p + 7) / 8) s.hm.cells s.tm.geom s.hm.dims, phase := .none
        stamp := s.stamp + 1 } :=
  finishJob_of_lt s _ _ count consumed (cells_lt s.hm)

theorem execHmRun_of_zero {s : State} (faults : s.cfg.hmZeroRun = .fault) {pat : Half} {k : Nat} {last : Byte}
    (zero : runLength k last = 0) :
    exec (.hmRun pat k last) s = .next
      ({ s with p := s.p + (24 + 8 * k), hm := { s.hm with pat := pat } }.raise ⟨.invalidControlCode, s.p⟩) := by
  simp only [exec, execHmRun, if_pos (And.intro zero faults), settle_error, State.advance,
    show 16 + 8 * (k + 1) = 24 + 8 * k by omega]

theorem execHmRun_of_ne {s : State} {pat : Half} {k : Nat} {last : Byte} (nonzero : runLength k last ≠ 0) :
    exec (.hmRun pat k last) s = .next
      { s with p := s.p + (24 + 8 * k), hm := { s.hm with pat := pat, run := runLength k last } } := by
  simp only [exec, execHmRun, nonzero, false_and, if_false, settle_ok, State.advance,
    show 16 + 8 * (k + 1) = 24 + 8 * k by omega]

theorem runLength_eq_zero_iff {k : Nat} {last : Byte} : runLength k last = 0 ↔ k = 0 ∧ last = 0 := by
  rw [← toNat_eq_zero_iff, runLength]
  omega

/-- Settles O33. -/
theorem heightmapHeadersAreRead : Obligations.HeightmapHeadersAreRead := by
  refine ⟨fun s hw hh => ⟨execHmDim_of_lt, execHmDim_of_pos, fun none count consumed => ?_⟩,
    fun s pat k last decided => ⟨fun k0 last0 => ?_, fun some => ?_⟩⟩
  · rw [execHmDim_of_zero none, finishTilemap_of_lt (by exact count) (by exact consumed)]
    have cells : (s.dimensioned hw hh).hm.cells = 0 := none
    rw [cells]
    rfl
  · rw [execHmRun_of_zero (by rw [decided]; rfl) (runLength_eq_zero_iff.mpr ⟨k0, last0⟩), k0]
  · refine execHmRun_of_ne fun zero => ?_
    obtain ⟨k0, last0⟩ := runLength_eq_zero_iff.mp zero
    exact some.elim (fun h => absurd k0 h.ne') fun h => h last0

/-- The state after HM.CELL, before it is known whether the cell was the last (43_tilemap.md R274). -/
def State.celled (s : State) : State :=
  { s with
    hm := { s.hm with j := s.hm.j + 1, run := s.hm.run - 1 }
    mem := { s.mem with hm := s.mem.hm.write s.hm.j s.hm.pat } }

theorem execHmCell_of_le {s : State} (full : s.win.outCap.toNat ≤ s.hm.j) :
    exec .hmCell s = .next (s.raise ⟨.sizeMismatch, s.p⟩) := by
  simp only [exec, execHmCell, hmWrite_of_le full, settle_error]

theorem execHmCell_of_lt {s : State} (room : s.hm.j < s.win.outCap.toNat) :
    exec .hmCell s = .next (if s.hm.j + 1 < s.hm.cells then s.celled else s.celled.finishTilemap) := by
  simp only [exec, execHmCell, hmWrite_of_lt room, settle_ok]
  rfl

/-- Settles O34, by whether the cell is the last. -/
theorem heightmapCellsTakeThePattern : Obligations.HeightmapCellsTakeThePattern := by
  refine fun s => ⟨execHmCell_of_le, fun room count consumed => ?_⟩
  rw [execHmCell_of_lt room]
  by_cases more : s.hm.j + 1 < s.hm.cells
  · refine ⟨s.celled, by rw [if_pos more], ?_, fun a => read_write ..⟩
    simp only [if_pos (show s.hm.j + 1 < s.hm.w.toNat * s.hm.h.toNat from more)]
    rfl
  · refine ⟨s.celled.finishTilemap, by rw [if_neg more], ?_, fun a => read_write ..⟩
    simp only [if_neg (show ¬s.hm.j + 1 < s.hm.w.toNat * s.hm.h.toNat from more)]
    rw [finishTilemap_of_lt (by exact count) (by exact consumed)]
    rfl

end Sys2Proof.Machine
end

section
/-! The tokens of SPD (O36 to O40): each token's next state as an equation per branch of its rule. -/

namespace Sys2Proof.Machine

/-! ## Subframe headers -/

/-- A position field is a signed count of 8 pixels, whatever the bit above it and the size below it (D36, D37). -/
theorem sprPos_decided (top : Bool) (pos : BitVec 5) (size : BitVec 2) :
    sprPos Config.decided (sprByte top pos size) = 8 * pos.toInt := by
  revert top pos size; decide

/-- The state after a header that is not refused (44_sprite.md R302, R303). -/
def State.withRecord (s : State) (y : BitVec 5) (w : BitVec 2) (x : BitVec 5) (h : BitVec 2) : State :=
  { s with
    p := s.p + 16
    sp :=
      { s.sp with
        q := s.sp.q + 2, nsf := s.sp.nsf + 1
        tidx := s.sp.tidx + (w.toNat + 1) * (h.toNat + 1)
        need := s.sp.need + (w.toNat + 1) * (h.toNat + 1) }
    mem :=
      { s.mem with
        sf :=
          s.mem.sf.write s.sp.nsf
            { x := 8 * x.toInt, y := 8 * y.toInt, w := w.toNat + 1, h := h.toNat + 1
              tileIdx := BitVec.ofNat 16 s.sp.tidx } } }

theorem addSubframe_of_set {s : State} (refused : s.cfg.sprB1Bit7 = .fault) (last : Bool) (y : BitVec 5)
    (w : BitVec 2) (x : BitVec 5) (h : BitVec 2) :
    s.addSubframe last y w true x h =
      .error (⟨.invalidControlCode, s.p⟩, { s with p := s.p + 16, sp := { s.sp with q := s.sp.q + 2 } }) := by
  simp only [State.addSubframe, refused, if_true]
  rfl

theorem addSubframe_of_clear {s : State} (decided : s.cfg = Config.decided) (last : Bool) (y : BitVec 5) (w : BitVec 2)
    (x : BitVec 5) (h : BitVec 2) : s.addSubframe last y w false x h = .ok (s.withRecord y w x h) := by
  have taken : s.cfg.sprB1Bit7 = .fault := by rw [decided]; rfl
  have position (top : Bool) (pos : BitVec 5) (size : BitVec 2) :
      sprPos s.cfg (sprByte top pos size) = 8 * pos.toInt := by
    rw [decided, sprPos_decided]
  simp only [State.addSubframe, taken, Bool.false_eq_true, if_false, position]
  rfl

/-- The two header rows differ in what follows them alone (44_sprite.md R301, R311). -/
theorem exec_of_header {s : State} {y : BitVec 5} {w : BitVec 2} {r : Bool} {x : BitVec 5} {h : BitVec 2} {i : Instr}
    {next : Phase}
    (header : i = .sprSf y w r x h ∧ next = .sprHeader ∨ i = .sprSfLast y w r x h ∧ next = .sprWord) :
    ∃ last, exec i s = settle
      (match s.addSubframe last y w r x h with
        | .ok t => .ok { t with phase := next }
        | .error f => .error f) := by
  obtain ⟨rfl, rfl⟩ | ⟨rfl, rfl⟩ := header
  · exact ⟨false, rfl⟩
  · exact ⟨true, rfl⟩

/-- Settles O36, by the reserved bit. -/
theorem subframeHeadersAppendRecords : Obligations.SubframeHeadersAppendRecords := by
  intro s y w r x h i next decided header
  obtain ⟨last, answer⟩ := exec_of_header (s := s) header
  rw [answer]
  refine ⟨?_, ?_⟩
  · rintro rfl
    rw [addSubframe_of_set (by rw [decided]; rfl)]
    rfl
  · rintro rfl
    rw [addSubframe_of_clear decided]
    exact ⟨{ s.withRecord y w x h with phase := next }, rfl, rfl, fun a => read_write ..⟩

/-! ## Control words -/

/-- The state after a control word has been read into SP_CW (44_sprite.md R304). -/
def State.withWord (s : State) (cw : Half) : State :=
  { s with p := s.p + 16, sp := { s.sp with q := s.sp.q + 2, cw := cw } }

theorem takeWord_false (s : State) (cw : Half) : s.takeWord cw false = .ok (s.withWord cw) :=
  takeWord_of_clear s cw

theorem takeWord_true {s : State} (decided : s.cfg = Config.decided) (cw : Half) :
    s.takeWord cw true = .error (⟨.invalidControlCode, s.p⟩, s.withWord cw) :=
  takeWord_of_set (by rw [decided]; rfl) cw

theorem sprCount_decided {s : State} (decided : s.cfg = Config.decided) (count : BitVec 12) :
    sprCount s.cfg count = count.toNat := by
  rw [decided]; rfl

theorem execSprZero_of_set {s : State} (decided : s.cfg = Config.decided) (stop l : Bool) (count : BitVec 12) :
    exec (.sprZero stop l true count) s = .next
      ((s.withWord (sprWord true stop l true count)).raise ⟨.invalidControlCode, s.p⟩) := by
  simp only [exec, execSprZero, takeWord_true decided, settle_error]

theorem execSprZero_of_clear {s : State} (decided : s.cfg = Config.decided) (stop l : Bool) (count : BitVec 12) :
    exec (.sprZero stop l false count) s =
      settle
        (match zeroWords s.p count.toNat (s.withWord (sprWord true stop l false count)) with
          | .error f => .error f
          | .ok u => .ok u.endWord) := by
  simp only [exec, execSprZero, takeWord_false, sprCount_decided decided] <;> rfl

/-- Settles O37. -/
theorem zeroFillWritesZeroBytes : Obligations.ZeroFillWritesZeroBytes := by
  intro s stop l count decided
  refine ⟨execSprZero_of_set decided stop l count, fun full some => ?_, fun fits => ?_⟩
  · obtain ⟨m, fill⟩ := zeroWords_of_lt s.p count.toNat (s.withWord (sprWord true stop l false count)) full some
    rw [execSprZero_of_clear decided, fill]
    rfl
  · obtain ⟨m, fill, -, bytes⟩ :=
      zeroWords_of_le s.p count.toNat (s.withWord (sprWord true stop l false count)) fits
    rw [execSprZero_of_clear decided, fill]
    exact ⟨_, rfl, rfl, bytes⟩

theorem execSprRaw_of_set {s : State} (decided : s.cfg = Config.decided) (stop : Bool) (count : BitVec 12) :
    exec (.sprRaw stop true count) s = .next
      ((s.withWord (sprWord false stop false true count)).raise ⟨.invalidControlCode, s.p⟩) := by
  simp only [exec, execSprRaw, takeWord_true decided, settle_error]

theorem execSprRaw_of_clear {s : State} (decided : s.cfg = Config.decided) (stop : Bool) (count : BitVec 12) :
    exec (.sprRaw stop false count) s =
      settle
        (match rawWords s.p count.toNat (s.withWord (sprWord false stop false false count)) with
          | .error f => .error f
          | .ok u => .ok u.endWord) := by
  simp only [exec, execSprRaw, takeWord_false, sprCount_decided decided] <;> rfl

/-- Settles O38, by the first word that cannot be read or written. -/
theorem rawWordsAreCopied : Obligations.RawWordsAreCopied := by
  intro s stop count decided boundary
  have next : (s.withWord (sprWord false stop false false count)).p = 8 * (s.sp.q + 2) := by
    simp only [State.withWord]; omega
  refine ⟨execSprRaw_of_set decided stop count, fun short inputFirst => ?_, fun short outputFirst => ?_,
    fun readable writable => ?_⟩
  · obtain ⟨m, copy⟩ := rawWords_endOfStream s.p count.toNat _ next short inputFirst
    rw [execSprRaw_of_clear decided, copy]
    rfl
  · obtain ⟨m, copy⟩ := rawWords_sizeMismatch s.p count.toNat _ next short outputFirst
    rw [execSprRaw_of_clear decided, copy]
    rfl
  · obtain ⟨m, copy, -, bytes⟩ := rawWords_of_le s.p count.toNat _ next readable writable
    rw [execSprRaw_of_clear decided, copy]
    exact ⟨_, rfl, rfl, bytes⟩

theorem execSprLz_of_set {s : State} (decided : s.cfg = Config.decided) (stop : Bool) (count : BitVec 12) :
    exec (.sprLz stop true count) s = .next
      ((s.withWord (sprWord false stop true true count)).raise ⟨.invalidControlCode, s.p⟩) := by
  simp only [exec, execSprLz, takeWord_true decided, settle_error]

/-- The window of a sub-stream begins at its first byte at the decided values (D42). -/
theorem execSprLz_of_clear {s : State} (decided : s.cfg = Config.decided) (stop : Bool) (count : BitVec 12) :
    exec (.sprLz stop false count) s = .next
      ((s.withWord (sprWord false stop true false count)).beginLz (s.sp.q + 2) s.sp.o s.sp.o true) := by
  have window : s.cfg.sprLzWindow = .substream := by rw [decided]; rfl
  simp only [exec, execSprLz, takeWord_false, window, settle_ok]
  rfl

/-- Settles O39. -/
theorem subStreamsBeginAtTheControlWord : Obligations.SubStreamsBeginAtTheControlWord :=
  fun _ stop count decided => ⟨execSprLz_of_set decided stop count, execSprLz_of_clear decided stop count⟩

/-! ## The end of the pixel loop -/

/-- Bit 14 of a control word is its stop field (30_encoding.md R127). -/
theorem sprStop_sprWord (z stop l r : Bool) (count : BitVec 12) : sprStop (sprWord z stop l r count) = stop := by
  have low : 0x2000 * l.toNat + 0x1000 * r.toNat + count.toNat < 2 ^ 14 := by
    have := count.isLt
    have := l.toNat_le
    have := r.toNat_le
    omega
  have high : (0x8000 * z.toNat + 0x4000 * stop.toNat + 0x2000 * l.toNat + 0x1000 * r.toNat + count.toNat) / 2 ^ 14 =
      2 * z.toNat + stop.toNat := by omega
  rw [sprStop, sprWord, BitVec.getLsbD_ofNat, Nat.testBit_eq_decide_div_mod_eq, high]
  cases stop <;> simp

theorem endWord_of_stop {s : State} (stop : sprStop s.sp.cw = true) : s.endWord = s.finishSprite :=
  if_pos stop

theorem endWord_of_go {s : State} (go : sprStop s.sp.cw = false) : s.endWord = { s with phase := .sprWord } :=
  if_neg (by simp [go])

/-- Settles O40. -/
theorem stopBitEndsThePixelLoop : Obligations.StopBitEndsThePixelLoop := by
  intro s z stop l r count word
  have bit : sprStop s.sp.cw = stop := by rw [word, sprStop_sprWord]
  refine ⟨?_, ?_⟩
  · rintro rfl
    exact endWord_of_go bit
  · rintro rfl o q need nsf
    rw [endWord_of_stop bit, State.finishSprite, finishJob_of_lt _ _ _ o q need, word32_of_lt nsf]

end Sys2Proof.Machine
end

section
/-! Every step keeps the address spaces canonical (O52). Each operation keeps them, said once per operation; each token
and each move of HOST is a composition of such operations. -/

namespace Sys2Proof.Machine

/-- Every address space of the state is in its canonical form. -/
def State.Canonical (s : State) : Prop :=
  s.mem.wf = true

/-- The state an effect reaches, or raises its fault from, is canonical. -/
def EffectCanonical : Effect → Prop
  | .ok t => t.Canonical
  | .error e => e.2.Canonical

/-- Every next state this answer can be is canonical. -/
def AnswerCanonical (a : Answer) : Prop :=
  ∀ t, a = .next t → t.Canonical

/-! ## How the predicates compose -/

theorem Spaces.wf_iff (m : Spaces) :
    m.wf = true ↔ m.src.wf = true ∧ m.out.wf = true ∧ m.tileIdx.wf = true ∧ m.tileAttr.wf = true ∧
      m.tmbuf.wf = true ∧ m.hm.wf = true ∧ m.sf.wf = true := by
  simp only [Spaces.wf, Bool.and_eq_true, and_assoc]

theorem canonical_of_mem {s t : State} (h : s.Canonical) (same : t.mem = s.mem) : t.Canonical := by
  rw [State.Canonical, same]; exact h

theorem EffectCanonical.ok {r : Effect} {t : State} (h : EffectCanonical r) (e : r = .ok t) : t.Canonical := by
  subst e; exact h

theorem EffectCanonical.error {r : Effect} {f : Trap × State} (h : EffectCanonical r) (e : r = .error f) :
    f.2.Canonical := by
  subst e; exact h

/-- Fault entry keeps SRC and forgets the other spaces. -/
theorem raise_canonical {s : State} (h : s.Canonical) (f : Trap) : (s.raise f).Canonical := by
  obtain ⟨src, -⟩ := (Spaces.wf_iff _).mp h
  exact (Spaces.wf_iff _).mpr ⟨src, wf_unknown _, wf_unknown _, wf_unknown _, wf_unknown _, wf_unknown _, wf_unknown _⟩

theorem answerCanonical_next {t : State} (h : t.Canonical) : AnswerCanonical (.next t) := by
  rintro _ ⟨⟩
  exact h

theorem answerCanonical_settle {r : Effect} (h : EffectCanonical r) : AnswerCanonical (settle r) := by
  intro t ht
  obtain rfl | ⟨f, u, rfl, rfl⟩ := settle_cases ht
  · exact h
  · exact raise_canonical h f

/-! ## Writes -/

theorem canonical_out {s : State} (h : s.Canonical) {m : Memory Byte} (wf : m.wf = true) :
    { s with mem := { s.mem with out := m } }.Canonical := by
  obtain ⟨src, -, rest⟩ := (Spaces.wf_iff _).mp h
  exact (Spaces.wf_iff _).mpr ⟨src, wf, rest⟩

theorem canonical_tileIdx {s : State} (h : s.Canonical) {m : Memory Half} (wf : m.wf = true) :
    { s with mem := { s.mem with tileIdx := m } }.Canonical := by
  obtain ⟨src, out, -, rest⟩ := (Spaces.wf_iff _).mp h
  exact (Spaces.wf_iff _).mpr ⟨src, out, wf, rest⟩

theorem canonical_tileAttr {s : State} (h : s.Canonical) {m : Memory TileAttr} (wf : m.wf = true) :
    { s with mem := { s.mem with tileAttr := m } }.Canonical := by
  obtain ⟨src, out, tileIdx, -, rest⟩ := (Spaces.wf_iff _).mp h
  exact (Spaces.wf_iff _).mpr ⟨src, out, tileIdx, wf, rest⟩

theorem canonical_tmbuf {s : State} (h : s.Canonical) {m : Memory Half} (wf : m.wf = true) :
    { s with mem := { s.mem with tmbuf := m } }.Canonical := by
  obtain ⟨src, out, tileIdx, tileAttr, -, rest⟩ := (Spaces.wf_iff _).mp h
  exact (Spaces.wf_iff _).mpr ⟨src, out, tileIdx, tileAttr, wf, rest⟩

theorem canonical_hm {s : State} (h : s.Canonical) {m : Memory Half} (wf : m.wf = true) :
    { s with mem := { s.mem with hm := m } }.Canonical := by
  obtain ⟨src, out, tileIdx, tileAttr, tmbuf, -, sf⟩ := (Spaces.wf_iff _).mp h
  exact (Spaces.wf_iff _).mpr ⟨src, out, tileIdx, tileAttr, tmbuf, wf, sf⟩

theorem canonical_sf {s : State} (h : s.Canonical) {m : Memory Subframe} (wf : m.wf = true) :
    { s with mem := { s.mem with sf := m } }.Canonical := by
  obtain ⟨src, out, tileIdx, tileAttr, tmbuf, hm, -⟩ := (Spaces.wf_iff _).mp h
  exact (Spaces.wf_iff _).mpr ⟨src, out, tileIdx, tileAttr, tmbuf, hm, wf⟩

/-- The seven spaces of a canonical state, each in its canonical form. -/
theorem State.Canonical.spaces {s : State} (h : s.Canonical) :
    s.mem.src.wf = true ∧ s.mem.out.wf = true ∧ s.mem.tileIdx.wf = true ∧ s.mem.tileAttr.wf = true ∧
      s.mem.tmbuf.wf = true ∧ s.mem.hm.wf = true ∧ s.mem.sf.wf = true :=
  (Spaces.wf_iff _).mp h

theorem outWrite_canonical {s : State} (h : s.Canonical) (i : Nat) (v : Byte) (pos : Nat) :
    EffectCanonical (s.outWrite i v pos) := by
  obtain ⟨-, out, -⟩ := h.spaces
  unfold State.outWrite
  split
  · exact h
  · exact canonical_out h (wf_write out i v)

theorem tmWrite_canonical {s : State} (h : s.Canonical) (i : Nat) (v : Half) (pos : Nat) :
    EffectCanonical (s.tmWrite i v pos) := by
  obtain ⟨-, -, -, -, tmbuf, -⟩ := h.spaces
  unfold State.tmWrite
  split
  · exact h
  · exact canonical_tmbuf h (wf_write tmbuf i v)

theorem hmWrite_canonical {s : State} (h : s.Canonical) (i : Nat) (v : Half) (pos : Nat) :
    EffectCanonical (s.hmWrite i v pos) := by
  obtain ⟨-, -, -, -, -, hm, -⟩ := h.spaces
  unfold State.hmWrite
  split
  · exact h
  · exact canonical_hm h (wf_write hm i v)

theorem setTileIndex_canonical {s : State} (h : s.Canonical) (i : Nat) (v : Half) : (s.setTileIndex i v).Canonical := by
  obtain ⟨-, -, tileIdx, -⟩ := h.spaces
  exact canonical_tileIdx h (wf_write tileIdx i v)

/-! ## What leaves the spaces alone -/

theorem takeVarint_canonical {s : State} (h : s.Canonical) (c : VarCode) : EffectCanonical (s.takeVarint c) := by
  obtain ⟨-, e⟩ | ⟨-, e⟩ := takeVarint_cases s c <;> rw [e] <;> exact h

theorem memRead_mem {s t : State} {q n v : Nat} (h : s.memRead q n = .ok (v, t)) : t.mem = s.mem := by
  unfold State.memRead at h
  split at h
  · cases h
  · cases h; rfl

theorem endWord_mem (s : State) : s.endWord.mem = s.mem := by
  unfold State.endWord
  split <;> rfl

theorem beginPairs_mem (s : State) : s.beginPairs.mem = s.mem := by
  simp only [State.beginPairs]
  split <;> rfl

theorem beginMasks_mem (s : State) : s.beginMasks.mem = s.mem := by
  unfold State.beginMasks
  split
  · exact beginPairs_mem _
  · rfl

theorem nextMask_mem (s : State) : s.nextMask.mem = s.mem := by
  unfold State.nextMask
  split
  · rfl
  · rfl
  · exact beginPairs_mem s

theorem afterSkip_mem (s : State) : s.afterSkip.mem = s.mem := by
  unfold State.afterSkip
  split
  · exact nextMask_mem s
  · rfl

theorem afterApply_mem (s : State) : s.afterApply.mem = s.mem := by
  unfold State.afterApply
  split
  · exact nextMask_mem s
  · rfl

theorem endPair_mem (s : State) : s.endPair.mem = s.mem := by
  simp only [State.endPair]
  split <;> rfl

theorem nextCell_mem (s : State) : s.nextCell.mem = s.mem := by
  obtain ⟨-, e⟩ | ⟨-, -, -, e⟩ | ⟨-, -, e⟩ := nextCell_cases s <;> rw [e]

theorem beginFill_mem (s : State) : s.beginFill.mem = s.mem :=
  (nextCell_mem _).trans (seedCounters_mem s)

/-! ## LZD and the end of a control word -/

theorem lzCopy_canonical {s : State} (h : s.Canonical) (offset pos n : Nat) :
    EffectCanonical (lzCopy offset pos n s) := by
  induction n generalizing s with
  | zero => exact h
  | succ n ih =>
    rw [lzCopy]
    split
    next t e =>
      have ht := (outWrite_canonical h ..).ok e
      exact ih ht
    next f e => exact (outWrite_canonical h ..).error e

theorem endLz_canonical {s : State} (h : s.Canonical) : EffectCanonical s.endLz := by
  simp only [State.endLz, State.returnFromLz]
  split
  · split
    · exact h
    · exact canonical_of_mem h (endWord_mem _)
  · exact h

theorem execLzLit_canonical {s : State} (h : s.Canonical) (lit : Byte) : AnswerCanonical (execLzLit lit s) := by
  have taken : (s.advance 8).takeCtl.Canonical := canonical_of_mem h (takeCtl_mem _)
  apply answerCanonical_settle
  split
  next u e =>
    have hu := (outWrite_canonical taken ..).ok e
    exact hu
  next f e => exact (outWrite_canonical taken ..).error e

theorem execLzRef_canonical {s : State} (h : s.Canonical) (offset : BitVec 12) (lcode : BitVec 4) :
    AnswerCanonical (execLzRef offset lcode s) := by
  have taken : (s.advance 16).takeCtl.Canonical := canonical_of_mem h (takeCtl_mem _)
  apply answerCanonical_settle
  split
  · exact taken
  · exact lzCopy_canonical taken ..

theorem execLzEnd_canonical {s : State} (h : s.Canonical) (lcode : BitVec 4) :
    AnswerCanonical (execLzEnd lcode s) := by
  have taken : (s.advance 16).takeCtl.Canonical := canonical_of_mem h (takeCtl_mem _)
  apply answerCanonical_settle
  split
  · exact endLz_canonical taken
  split
  · exact endLz_canonical taken
  split
  · exact taken
  next c u e =>
    have read : u.Canonical := canonical_of_mem taken (memRead_mem e)
    exact endLz_canonical read

/-! ## BTD -/

theorem placeIndex_canonical {s : State} (h : s.Canonical) (v : Half) : (s.placeIndex v).Canonical := by
  unfold State.placeIndex
  split
  · exact canonical_of_mem (setTileIndex_canonical h ..) (endPair_mem _)
  · exact setTileIndex_canonical h ..

theorem skipTiles_canonical {s : State} (h : s.Canonical) (n pos : Nat) : EffectCanonical (s.skipTiles n pos) := by
  simp only [State.skipTiles]
  split
  · exact h
  · exact canonical_of_mem h (afterSkip_mem _)

theorem execBtCount_canonical {s : State} (h : s.Canonical) (n : Half) : AnswerCanonical (execBtCount n s) := by
  obtain ⟨-, -, -, tileAttr, -⟩ := h.spaces
  apply answerCanonical_settle
  split
  · exact h
  · exact canonical_of_mem (canonical_tileAttr h (wf_clearTo tileAttr _)) (beginMasks_mem _)

theorem execBtSkip0_canonical {s : State} (h : s.Canonical) (c : VarCode) : AnswerCanonical (execBtSkip0 c s) := by
  apply answerCanonical_settle
  split
  next t e => exact skipTiles_canonical ((takeVarint_canonical h c).ok e) ..
  next f e => exact (takeVarint_canonical h c).error e

theorem execBtSkip_canonical {s : State} (h : s.Canonical) (c : VarCode) : AnswerCanonical (execBtSkip c s) := by
  apply answerCanonical_settle
  split
  next t e => exact skipTiles_canonical ((takeVarint_canonical h c).ok e) ..
  next f e => exact (takeVarint_canonical h c).error e

theorem execBtApply_canonical {s : State} (h : s.Canonical) (c : VarCode) : AnswerCanonical (execBtApply c s) := by
  apply answerCanonical_settle
  split
  next f e => exact (takeVarint_canonical h c).error e
  next t e =>
    have ht := (takeVarint_canonical h c).ok e
    obtain ⟨-, -, -, tileAttr, -⟩ := ht.spaces
    dsimp only
    split
    · exact ht
    · exact canonical_of_mem (canonical_tileAttr ht (wf_setAttrRun tileAttr ..)) (afterApply_mem _)

theorem execBtIdxMtf_canonical {s : State} (h : s.Canonical) (j : BitVec 4) : AnswerCanonical (execBtIdxMtf j s) := by
  apply answerCanonical_settle
  split
  · split
    · exact h
    · exact placeIndex_canonical (s := s.advance 5) h _
  · exact placeIndex_canonical (s := { s.advance 5 with bt := s.bt.moveToFront j }) h _

theorem execBtIdxRaw_canonical {s : State} (h : s.Canonical) (r : BitVec 11) : AnswerCanonical (execBtIdxRaw r s) :=
  answerCanonical_next
    (placeIndex_canonical (s := { s.advance 12 with bt := s.bt.pushFront (r.setWidth 16) }) h _)

theorem execBtCompDer_canonical {s : State} (h : s.Canonical) : AnswerCanonical (execBtCompDer s) := by
  apply answerCanonical_next
  refine canonical_of_mem (setTileIndex_canonical ?_ ..) (endPair_mem _)
  split <;> exact h

/-! ## TMD -/

theorem placeCommand_canonical {s : State} (h : s.Canonical) (v : Half) (pos : Nat) :
    EffectCanonical (s.placeCommand v pos) := by
  have write := tmWrite_canonical (s := { s with tm := { s.tm with v := v } }) h s.tm.c.toNat v pos
  simp only [State.placeCommand]
  split
  next t e =>
    have ht := write.ok e
    exact ht
  next f e => exact write.error e

theorem fillCell_canonical {s : State} (h : s.Canonical) (v : Half) (pos : Nat) :
    EffectCanonical (s.fillCell v pos) := by
  unfold State.fillCell
  split
  next t e => exact canonical_of_mem ((tmWrite_canonical h ..).ok e) (nextCell_mem _)
  next f e => exact (tmWrite_canonical h ..).error e

theorem execTmHdr_canonical {s : State} (h : s.Canonical) (left top wm1 hs : Byte) :
    AnswerCanonical (execTmHdr left top wm1 hs s) := by
  apply answerCanonical_settle
  split <;> exact h

theorem execTmTdict_canonical {s : State} (h : s.Canonical) (b0 b1 : BitVec 10) :
    AnswerCanonical (execTmTdict b0 b1 s) :=
  answerCanonical_next (canonical_of_mem h (by simp))

theorem execTmDelta_canonical {s : State} (h : s.Canonical) (c : VarCode) : AnswerCanonical (execTmDelta c s) := by
  apply answerCanonical_settle
  split
  next t e =>
    have ht := (takeVarint_canonical h c).ok e
    exact ht
  next f e => exact (takeVarint_canonical h c).error e

theorem execTmEnd_canonical {s : State} (h : s.Canonical) (c : VarCode) : AnswerCanonical (execTmEnd c s) := by
  apply answerCanonical_settle
  split
  next t e => exact canonical_of_mem ((takeVarint_canonical h c).ok e) (beginFill_mem _)
  next f e => exact (takeVarint_canonical h c).error e

theorem execTmPropCell_canonical {s : State} (h : s.Canonical) : AnswerCanonical (execTmPropCell s) := by
  let reached : State :=
    { s.passBit s.cfg.tmPropagate.consumeCell with tm := { s.tm with pc := s.tm.pc + s.tm.stride } }
  have write := tmWrite_canonical (s := reached) h
  apply answerCanonical_settle
  split
  · split <;> exact h
  · split
    next t e =>
      have ht := (write ..).ok e
      exact ht
    next f e => exact (write ..).error e

theorem execTmCopy_canonical {s : State} (h : s.Canonical) : AnswerCanonical (execTmCopy s) := by
  apply answerCanonical_settle
  split
  · exact h
  split
  · exact h
  · exact fillCell_canonical (s := s.setMode) h ..

theorem execTmLitRaw_canonical {s : State} (h : s.Canonical) (n v : Nat) : AnswerCanonical (execTmLitRaw n v s) := by
  apply answerCanonical_settle
  split
  · exact h
  · exact fillCell_canonical (s := (s.advance (2 + n)).setMode) h ..

theorem execTmLitOfs_canonical {s : State} (h : s.Canonical) (n v : Nat) : AnswerCanonical (execTmLitOfs n v s) := by
  apply answerCanonical_settle
  split
  · exact h
  · exact fillCell_canonical (s := (s.advance (2 + n)).setMode) h ..

theorem execTmLitCnt0_canonical {s : State} (h : s.Canonical) : AnswerCanonical (execTmLitCnt0 s) := by
  have fill := fillCell_canonical (s := (s.advance 2).setMode) h s.tm.c0 s.p
  apply answerCanonical_settle
  split
  next t e =>
    have ht := fill.ok e
    exact ht
  next f e => exact fill.error e

theorem execTmLitCnt1_canonical {s : State} (h : s.Canonical) : AnswerCanonical (execTmLitCnt1 s) := by
  have fill := fillCell_canonical (s := (s.advance 2).setMode) h s.tm.c1 s.p
  apply answerCanonical_settle
  split
  next t e =>
    have ht := fill.ok e
    exact ht
  next f e => exact fill.error e

theorem execHmDim_canonical {s : State} (h : s.Canonical) (hw hh : Byte) : AnswerCanonical (execHmDim hw hh s) := by
  apply answerCanonical_settle
  split
  · exact h
  · rw [apply_ite Except.ok]
    split <;> exact h

theorem execHmRun_canonical {s : State} (h : s.Canonical) (pat : Half) (k : Nat) (last : Byte) :
    AnswerCanonical (execHmRun pat k last s) := by
  apply answerCanonical_settle
  split <;> exact h

theorem execHmCell_canonical {s : State} (h : s.Canonical) : AnswerCanonical (execHmCell s) := by
  apply answerCanonical_settle
  split
  next f e => exact (hmWrite_canonical h ..).error e
  next t e =>
    have ht := (hmWrite_canonical h ..).ok e
    rw [apply_ite Except.ok]
    split <;> exact ht

/-! ## SPD -/

theorem addSubframe_canonical {s : State} (h : s.Canonical) (last : Bool) (y : BitVec 5) (w : BitVec 2) (r : Bool)
    (x : BitVec 5) (height : BitVec 2) : EffectCanonical (s.addSubframe last y w r x height) := by
  obtain ⟨-, -, -, -, -, -, sf⟩ := h.spaces
  simp only [State.addSubframe]
  split
  · split
    · exact h
    · exact canonical_sf h (wf_write sf ..)
  · exact canonical_sf h (wf_write sf ..)

theorem takeWord_canonical {s : State} (h : s.Canonical) (cw : Half) (r : Bool) :
    EffectCanonical (s.takeWord cw r) := by
  simp only [State.takeWord]
  split
  · split <;> exact h
  · exact h

theorem zeroWords_canonical {s : State} (h : s.Canonical) (pos n : Nat) : EffectCanonical (zeroWords pos n s) := by
  induction n generalizing s with
  | zero => exact h
  | succ n ih =>
    rw [zeroWords]
    split
    next f e => exact (outWrite_canonical h ..).error e
    next t e =>
      have ht := (outWrite_canonical h ..).ok e
      split
      next f e => exact (outWrite_canonical ht ..).error e
      next u e =>
        have hu := (outWrite_canonical ht ..).ok e
        exact ih hu

theorem rawWords_canonical {s : State} (h : s.Canonical) (pos n : Nat) : EffectCanonical (rawWords pos n s) := by
  induction n generalizing s with
  | zero => exact h
  | succ n ih =>
    rw [rawWords]
    split
    next => exact h
    next wd s' e =>
      have read : s'.Canonical := canonical_of_mem h (memRead_mem e)
      have hs : { s' with sp := { s'.sp with q := s'.sp.q + 2 } }.Canonical := read
      dsimp only
      split
      next f e => exact (outWrite_canonical hs ..).error e
      next t e =>
        have ht := (outWrite_canonical hs ..).ok e
        split
        next f e => exact (outWrite_canonical ht ..).error e
        next u e =>
          have hu := (outWrite_canonical ht ..).ok e
          exact ih hu

theorem execSprSf_canonical {s : State} (h : s.Canonical) (y : BitVec 5) (w : BitVec 2) (r : Bool) (x : BitVec 5)
    (height : BitVec 2) : AnswerCanonical (execSprSf y w r x height s) := by
  apply answerCanonical_settle
  split
  next t e =>
    have ht := (addSubframe_canonical h ..).ok e
    exact ht
  next f e => exact (addSubframe_canonical h ..).error e

theorem execSprSfLast_canonical {s : State} (h : s.Canonical) (y : BitVec 5) (w : BitVec 2) (r : Bool) (x : BitVec 5)
    (height : BitVec 2) : AnswerCanonical (execSprSfLast y w r x height s) := by
  apply answerCanonical_settle
  split
  next t e =>
    have ht := (addSubframe_canonical h ..).ok e
    exact ht
  next f e => exact (addSubframe_canonical h ..).error e

theorem execSprZero_canonical {s : State} (h : s.Canonical) (stop l r : Bool) (count : BitVec 12) :
    AnswerCanonical (execSprZero stop l r count s) := by
  apply answerCanonical_settle
  split
  next f e => exact (takeWord_canonical h ..).error e
  next t e =>
    have ht := (takeWord_canonical h ..).ok e
    split
    next f e => exact (zeroWords_canonical ht ..).error e
    next u e => exact canonical_of_mem ((zeroWords_canonical ht ..).ok e) (endWord_mem _)

theorem execSprLz_canonical {s : State} (h : s.Canonical) (stop r : Bool) (count : BitVec 12) :
    AnswerCanonical (execSprLz stop r count s) := by
  apply answerCanonical_settle
  split
  next f e => exact (takeWord_canonical h ..).error e
  next t e =>
    have ht := (takeWord_canonical h ..).ok e
    split <;> exact ht

theorem execSprRaw_canonical {s : State} (h : s.Canonical) (stop r : Bool) (count : BitVec 12) :
    AnswerCanonical (execSprRaw stop r count s) := by
  apply answerCanonical_settle
  split
  next f e => exact (takeWord_canonical h ..).error e
  next t e =>
    have ht := (takeWord_canonical h ..).ok e
    split
    next f e => exact (rawWords_canonical ht ..).error e
    next u e => exact canonical_of_mem ((rawWords_canonical ht ..).ok e) (endWord_mem _)

/-! ## Every step -/

theorem exec_canonical {s : State} (h : s.Canonical) (i : Instr) : AnswerCanonical (exec i s) :=
  match i with
  | .varint c => answerCanonical_settle (takeVarint_canonical h c)
  | .lzCtrl _ => answerCanonical_next h
  | .lzLit lit => execLzLit_canonical h lit
  | .lzRef offset lcode => execLzRef_canonical h offset lcode
  | .lzEnd lcode => execLzEnd_canonical h lcode
  | .btCount n => execBtCount_canonical h n
  | .btSkip0 c => execBtSkip0_canonical h c
  | .btSkip c => execBtSkip_canonical h c
  | .btApply c => execBtApply_canonical h c
  | .btIdxMtf j => execBtIdxMtf_canonical h j
  | .btIdxRaw r => execBtIdxRaw_canonical h r
  | .btCompDer => execBtCompDer_canonical h
  | .btCompInd => answerCanonical_next h
  | .tmHdr left top wm1 hs => execTmHdr_canonical h left top wm1 hs
  | .tmTdict b0 b1 => execTmTdict_canonical h b0 b1
  | .tmOdict .. => answerCanonical_next h
  | .tmDelta c => execTmDelta_canonical h c
  | .tmEnd c => execTmEnd_canonical h c
  | .tmCmdS _ => answerCanonical_settle (placeCommand_canonical (s := s.advance 3) h ..)
  | .tmCmdX .. => answerCanonical_settle (placeCommand_canonical (s := s.advance 5) h ..)
  | .tmPropRun => answerCanonical_next h
  | .tmPropStop => answerCanonical_next h
  | .tmPropCell => execTmPropCell_canonical h
  | .tmPropEndrun => answerCanonical_next h
  | .tmCopy => execTmCopy_canonical h
  | .tmLitRaw n v => execTmLitRaw_canonical h n v
  | .tmLitOfs n v => execTmLitOfs_canonical h n v
  | .tmLitCnt0 => execTmLitCnt0_canonical h
  | .tmLitCnt1 => execTmLitCnt1_canonical h
  | .tmAlign _ => answerCanonical_next h
  | .hmDim hw hh => execHmDim_canonical h hw hh
  | .hmRun pat k last => execHmRun_canonical h pat k last
  | .hmCell => execHmCell_canonical h
  | .sprSf y w r x height => execSprSf_canonical h y w r x height
  | .sprSfLast y w r x height => execSprSfLast_canonical h y w r x height
  | .sprZero stop l r count => execSprZero_canonical h stop l r count
  | .sprLz stop r count => execSprLz_canonical h stop r count
  | .sprRaw stop r count => execSprRaw_canonical h stop r count

/-- What a fetch that faults has reached: the state itself, or what reading a token cut short has left. -/
theorem fetch_trap {s reached : State} {f : Trap} (h : s.fetch = .trap f reached) :
    f.pos = s.p ∧
      (s.select = .trap f.kind ∧ reached = s ∨
        ∃ want e, s.select = .token want ∧ decode s.cfg want s.inputBits = .error e ∧ f.kind = decodeFault e ∧
          reached = s.readFailed want e) := by
  unfold State.fetch at h
  split at h
  · cases h
  next k asked => cases h; exact ⟨rfl, .inl ⟨asked, rfl⟩⟩
  next want asked =>
    split at h
    · cases h
    next e failed => cases h; exact ⟨rfl, .inr ⟨want, e, asked, failed, rfl, rfl⟩⟩

theorem fetch_trap_mem {s reached : State} {f : Trap} (h : s.fetch = .trap f reached) : reached.mem = s.mem := by
  obtain ⟨-, ⟨-, rfl⟩ | ⟨want, e, -, -, -, rfl⟩⟩ := fetch_trap h
  · rfl
  · obtain ⟨-, -, mem, -⟩ := readFailed_frame s want e
    exact mem

theorem decStep_canonical {s : State} (h : s.Canonical) : AnswerCanonical (decStep s) := by
  unfold decStep
  split
  · split
    · exact exec_canonical h _
    next f reached e => exact answerCanonical_next (raise_canonical (canonical_of_mem h (fetch_trap_mem e)) f)
    · rintro _ ⟨⟩
  · exact answerCanonical_next h

/-- START keeps SRC and begins the other spaces anew. -/
theorem startJob_canonical {s : State} (h : s.Canonical) : s.startJob.Canonical := by
  obtain ⟨src, -⟩ := h.spaces
  exact (Spaces.wf_iff _).mpr ⟨src, wf_unknown _, wf_unknown _, wf_zeros _ _, wf_zeros _ _, wf_unknown _, wf_unknown _⟩

theorem writeCtrl_canonical {s : State} (h : s.Canonical) (v : Word32) : (s.writeCtrl v).Canonical := by
  simp only [State.writeCtrl]
  split
  · exact startJob_canonical (s := { s with win := { s.win with codec := v.setWidth 2 } }) h
  · exact h

theorem writeWindow_canonical {s : State} (h : s.Canonical) (offset : Nat) (v : Word32) :
    AnswerCanonical (s.writeWindow offset v) := by
  unfold State.writeWindow
  split
  · exact answerCanonical_next h
  split
  · exact answerCanonical_next (writeCtrl_canonical h v)
  split
  · exact answerCanonical_next h
  split <;> exact answerCanonical_next h

theorem writeSrc_canonical {s : State} (h : s.Canonical) (i : Nat) (v : Byte) : AnswerCanonical (s.writeSrc i v) := by
  obtain ⟨src, rest⟩ := h.spaces
  unfold State.writeSrc
  split
  · rintro _ ⟨⟩
  · exact answerCanonical_next ((Spaces.wf_iff _).mpr ⟨wf_write src i v, rest⟩)

theorem blockReset_canonical (s : State) : s.blockReset.Canonical :=
  (Spaces.wf_iff _).mpr
    ⟨wf_unknown _, wf_unknown _, wf_unknown _, wf_unknown _, wf_unknown _, wf_unknown _, wf_unknown _⟩

theorem hostMove_canonical {s : State} (h : s.Canonical) (m : HostMove) : AnswerCanonical (s.hostMove m) :=
  match m with
  | .writeWindow offset v => writeWindow_canonical h offset v
  | .writeSrc i v => writeSrc_canonical h i v
  | .reset => answerCanonical_next (blockReset_canonical s)

/-- What every turn keeps, whatever the turns after it, every step keeps. -/
theorem step_keeps {P : State → Prop} (sched : ∀ s turns, P s → P { s with sched := turns })
    (dec : ∀ s t, P s → decStep s = .next t → P t) (host : ∀ s m t, P s → State.hostMove s m = .next t → P t)
    {s t : State} (h : P s) (e : step s = .next t) : P t := by
  match turn : s.sched with
  | [] =>
    rw [step_of_sched_nil turn] at e
    exact dec s t h e
  | .dec :: turns =>
    rw [step_of_sched_dec turn] at e
    exact dec _ t (sched s turns h) e
  | .host m :: turns =>
    rw [step_of_sched_host turn] at e
    exact host _ m t (sched s turns h) e

/-- Settles O52. -/
theorem memoryStaysCanonical : Obligations.MemoryStaysCanonical := by
  intro s t h e
  exact step_keeps (P := State.Canonical) (fun _ _ h => h) (fun _ t h e => decStep_canonical h t e)
    (fun _ m t h e => hostMove_canonical h m t e) h e

end Sys2Proof.Machine
end

section
/-! What a token does to a job (for O42, O54 to O58). From a state of the job invariant a fetched token ends in fault
entry with a kind its rules give it, ends the job, or goes on to a grammar position whose ranges hold, with p moved
over its bits. This is said once per token, as `Outcome`; the whole-machine statements are read off it. -/

namespace Sys2Proof.Machine

/-! ## The outcome of a token -/

/-- The end of the input as a position of the cursor (10_state.md R42). -/
def State.inputEnd (s : State) : Nat :=
  8 * s.win.srcLen.toNat

/-- A bound on the steps that read no bit of the input and are still to come in the job: the copies of phase 2, the
alignment, the cells of the heightmap, and the entry into a fault (70_reset_and_hazards.md R392; log 29). -/
def State.freeSteps (s : State) : Nat :=
  match s.phase with
  | .none => 0
  | .tmHdr | .tmTdict | .tmOdict | .tmDelta | .tmCmd | .tmPropA | .tmPropB => 2 * s.win.outCap.toNat + 2
  | .tmCell => (s.win.outCap.toNat - s.tm.i) + s.win.outCap.toNat + 2
  | .tmAlign => s.win.outCap.toNat + 2
  | .hmDim => s.win.outCap.toNat + 1
  | .hmCell => (s.win.outCap.toNat - s.hm.j) + 1
  | _ => 1

/-- The state u is reached from s over the bits of the token i, with nothing of the interface changed. -/
structure ReadOver (i : Instr) (s u : State) : Prop where
  interface : u.interface = s.interface
  p : u.p = s.p + bitsTaken s.cfg i
  inside : u.p ≤ s.inputEnd

/-- What the token i leaves of the state s: the state t. -/
inductive Outcome (i : Instr) (s : State) : State → Prop
  /-- Fault entry from the state u its rule has reached. -/
  | fault {u : State} {k : FaultKind} {pos : Nat} (listed : k ∈ faultsOf i) (start : pos = faultPosOf i s)
      (interface : u.interface = s.interface) (stamp : u.stamp = s.stamp) (forward : s.p ≤ u.p)
      (inside : u.p ≤ s.inputEnd) : Outcome i s (u.raise ⟨k, pos⟩)
  /-- The end of the job in the state u. -/
  | done {u : State} {count consumed aux : Nat} {geom aux2 : Word32} (taken : ReadOver i s u) :
      Outcome i s (u.finishJob count consumed aux geom aux2)
  /-- The next grammar position, with fewer steps to come than before. -/
  | goesOn {t : State} (taken : ReadOver i s t) (busy : t.phase ≠ .none) (range : PhaseInv t)
      (fewer : t.freeSteps < s.freeSteps + bitsTaken s.cfg i) : Outcome i s t

/-- The token has a next state, and it is one of its outcomes. -/
def HasOutcome (i : Instr) (s : State) : Prop :=
  ∃ t, exec i s = .next t ∧ Outcome i s t

/-! ## LZD -/

section
variable {s : State}

/-- The ranges of an LZD position survive a move forward by whole bytes and a longer output. -/
theorem phaseInv_lz {t : State} {nested : Bool} (position : s.phase = .lz nested) (range : PhaseInv s)
    (phase : t.phase = s.phase) (codec : t.jobCodec = s.jobCodec) (sp : t.sp = s.sp) (cap : t.win.outCap = s.win.outCap)
    (aligned : t.p % 8 = 0) (forward : s.p ≤ t.p) (nctl : t.lz.nctl ≤ 8) (base : t.lz.base = s.lz.base)
    (longer : s.lz.out ≤ t.lz.out) (fits : t.lz.out ≤ s.win.outCap.toNat) : PhaseInv t := by
  rw [position] at phase
  cases nested <;> simp only [PhaseInv, position, phase, codec, sp, cap, base, SubframeSums] at range ⊢
  · obtain ⟨codec, -, -, zero, -⟩ := range
    exact ⟨codec, aligned, nctl, zero, fits⟩
  · obtain ⟨codec, -, -, start, below, -, even, header, behind, some, sums⟩ := range
    exact ⟨codec, aligned, nctl, start, below.trans longer, fits, even, header, behind.trans forward, some, sums⟩

/-- What both LZD positions promise. -/
theorem lz_range {nested : Bool} (position : s.phase = .lz nested) (range : PhaseInv s) :
    s.p % 8 = 0 ∧ s.lz.nctl ≤ 8 ∧ s.lz.out ≤ s.win.outCap.toNat := by
  cases nested <;> simp only [PhaseInv, position] at range
  · obtain ⟨-, aligned, nctl, -, fits⟩ := range
    exact ⟨aligned, nctl, fits⟩
  · obtain ⟨-, aligned, nctl, -, -, fits, -⟩ := range
    exact ⟨aligned, nctl, fits⟩

theorem freeSteps_lz {nested : Bool} (position : s.phase = .lz nested) : s.freeSteps = 1 := by
  rw [State.freeSteps, position]

theorem lzCtrl_outcome {nested : Bool} (position : s.phase = .lz nested) (range : PhaseInv s) (c : Byte)
    (inside : s.p + 8 ≤ s.inputEnd) : HasOutcome (.lzCtrl c) s := by
  obtain ⟨aligned, -, fits⟩ := lz_range position range
  refine ⟨_, execLzCtrl_eq c s, .goesOn ⟨rfl, rfl, inside⟩ ?_ ?_ ?_⟩
  · simp [position]
  · exact phaseInv_lz position range rfl rfl rfl rfl (by simp only; omega) (Nat.le_add_right ..) (Nat.sub_le 8 1)
      rfl le_rfl fits
  · rw [freeSteps_lz (by exact position), freeSteps_lz position]
    simp [bitsTaken, Instr.bitLength]

theorem lzLit_outcome {nested : Bool} (position : s.phase = .lz nested) (range : PhaseInv s) (lit : Byte)
    (inside : s.p + 8 ≤ s.inputEnd) : HasOutcome (.lzLit lit) s := by
  obtain ⟨aligned, nctl, fits⟩ := lz_range position range
  rcases Nat.lt_or_ge s.lz.out s.win.outCap.toNat with room | full
  · refine ⟨_, execLzLit_of_lt room lit, .goesOn ⟨rfl, rfl, inside⟩ ?_ ?_ ?_⟩
    · simp [position]
    · exact phaseInv_lz position range rfl rfl rfl rfl (by simp only; omega) (Nat.le_add_right ..)
        ((takeCtl_lz_nctl_le s).trans nctl) (takeCtl_lz_base s) (Nat.le_succ _) room
    · rw [freeSteps_lz (by exact position), freeSteps_lz position]
      simp [bitsTaken, Instr.bitLength]
  · exact ⟨_, execLzLit_of_le full lit, .fault (by simp [faultsOf]) rfl rfl rfl (Nat.le_add_right ..) inside⟩

theorem lzRef_outcome {nested : Bool} (position : s.phase = .lz nested) (range : PhaseInv s) {offset : BitVec 12}
    (nonzero : offset ≠ 0) (lcode : BitVec 4) (inside : s.p + 16 ≤ s.inputEnd) :
    HasOutcome (.lzRef offset lcode) s := by
  obtain ⟨aligned, nctl, fits⟩ := lz_range position range
  rcases Nat.lt_or_ge (s.lz.out - s.lz.base) offset.toNat with far | near
  · exact ⟨_, execLzRef_of_far far lcode, .fault (by simp [faultsOf]) rfl rfl rfl (Nat.le_add_right ..) inside⟩
  rcases Nat.lt_or_ge s.win.outCap.toNat (s.lz.out + lzLength lcode) with full | room
  · exact ⟨_, execLzRef_of_lt near full, .fault (by simp [faultsOf]) rfl rfl rfl (Nat.le_add_right ..) inside⟩
  · obtain ⟨m, next, -⟩ := execLzRef_of_le nonzero near room
    refine ⟨_, next, .goesOn ⟨rfl, rfl, inside⟩ ?_ ?_ ?_⟩
    · simp [position]
    · exact phaseInv_lz position range rfl rfl rfl rfl (by simp only; omega) (Nat.le_add_right ..)
        ((takeCtl_lz_nctl_le s).trans nctl) (takeCtl_lz_base s) (Nat.le_add_right ..) room
    · rw [freeSteps_lz (by exact position), freeSteps_lz position]
      simp [bitsTaken, Instr.bitLength]

/-- After a control word of SPD: the job ends, or the next word's ranges hold. -/
theorem endWord_outcome {i : Instr} {u : State} (taken : ReadOver i s u) (range : PhaseInv { u with phase := .sprWord })
    (fewer : 1 < s.freeSteps + bitsTaken s.cfg i) : Outcome i s u.endWord := by
  cases stop : sprStop u.sp.cw with
  | true => rw [endWord_of_stop stop]; exact .done taken
  | false => rw [endWord_of_go stop]; exact .goesOn ⟨taken.interface, taken.p, taken.inside⟩ (by simp) range fewer

theorem lzEnd_outcome {nested : Bool} (decided : s.cfg = Config.decided) (position : s.phase = .lz nested)
    (range : PhaseInv s) (lcode : BitVec 4) (inside : s.p + 16 ≤ s.inputEnd) : HasOutcome (.lzEnd lcode) s := by
  unfold HasOutcome
  rw [execLzEnd_decided decided]
  cases nested with
  | false =>
    rw [endLz_standalone (by exact position)]
    exact ⟨_, rfl, .done ⟨rfl, rfl, inside⟩⟩
  | true =>
    simp only [PhaseInv, position] at range
    obtain ⟨codec, aligned, -, start, below, fits, even, header, behind, some, need, records⟩ := range
    rw [endLz_nested (by exact decided) (by exact position) (by simp only; omega)
      (by simp only [takeCtl_lz_out]; omega)]
    simp only [takeCtl_lz_out]
    split
    next odd => exact ⟨_, rfl, .fault (by simp [faultsOf]) rfl rfl rfl (Nat.le_add_right ..) inside⟩
    next notOdd =>
      refine ⟨_, rfl, endWord_outcome ⟨rfl, rfl, inside⟩ ?_ ?_⟩
      · refine And.intro codec (And.intro ?_ (And.intro ?_ (And.intro fits (And.intro some (And.intro need ?_)))))
        · simp only; omega
        · simp only; omega
        · simp only; omega
      · rw [freeSteps_lz position]
        simp [bitsTaken, Instr.bitLength]

end

end Sys2Proof.Machine
end

section
/-! The outcomes of the tokens of BTD. -/

namespace Sys2Proof.Machine

/-- What every position after BT.COUNT promises: BT_TOTAL = 4N tiles fit (42_bigtile.md R211). -/
structure TilesFit (s : State) : Prop where
  codec : s.jobCodec = 1
  total : s.bt.total = 4 * s.bt.n.toNat
  fits : s.bt.total ≤ s.win.outCap.toNat

section
variable {i : Instr} {s u : State}

theorem tilesFit_of_mask (position : s.phase = .btSkip ∨ s.phase = .btApply) (range : PhaseInv s) :
    TilesFit s ∧ s.bt.pos < s.bt.total := by
  rcases position with position | position <;> simp only [PhaseInv, position, MaskRange] at range
  all_goals
    obtain ⟨codec, total, fits, pos⟩ := range
    exact ⟨⟨codec, total, fits⟩, pos⟩

theorem tilesFit_of_pair (position : s.phase = .btIndex ∨ s.phase = .btCompanion ∨ s.phase = .btCompIndex)
    (range : PhaseInv s) : TilesFit s ∧ s.bt.k < 2 * s.bt.n.toNat ∧ s.bt.occ ≤ 16 := by
  rcases position with position | position | position <;> simp only [PhaseInv, position, PairRange] at range
  all_goals
    obtain ⟨codec, total, fits, k, occ⟩ := range
    exact ⟨⟨codec, total, fits⟩, k, occ⟩

/-- Neither phase 2 nor the heightmap is at hand in BTD: a fault is the one step without input. -/
theorem freeSteps_bt
    (position : s.phase = .btCount ∨ s.phase = .btSkip ∨ s.phase = .btApply ∨ s.phase = .btIndex ∨
      s.phase = .btCompanion ∨ s.phase = .btCompIndex) : s.freeSteps = 1 := by
  rcases position with h | h | h | h | h | h <;> rw [State.freeSteps, h]

/-! ## The loops of the job -/

theorem beginMask_outcome (taken : ReadOver i s u) (fit : TilesFit u) (some : 0 < u.bt.total)
    (fewer : 1 < s.freeSteps + bitsTaken s.cfg i) (a : Attr) : Outcome i s (u.beginMask a) :=
  .goesOn ⟨taken.interface, taken.p, taken.inside⟩ (by simp [State.beginMask])
    (And.intro fit.codec (And.intro fit.total (And.intro fit.fits some))) fewer

theorem nextMask_outcome (taken : ReadOver i s u) (fit : TilesFit u) (some : 0 < u.bt.total)
    (fewer : 1 < s.freeSteps + bitsTaken s.cfg i) : Outcome i s u.nextMask := by
  cases attr : u.bt.attr with
  | priority => rw [nextMask_of_priority attr]; exact beginMask_outcome taken fit some fewer _
  | vflip => rw [nextMask_of_vflip attr]; exact beginMask_outcome taken fit some fewer _
  | hflip =>
    have tiles : 0 < u.bt.n.toNat := by have := fit.total; omega
    rw [nextMask_of_hflip attr, beginPairs_of_ne fun none => by rw [none] at tiles; exact absurd tiles (by decide)]
    refine .goesOn ⟨taken.interface, taken.p, taken.inside⟩ (by simp) ?_ fewer
    exact And.intro fit.codec
      (And.intro fit.total (And.intro fit.fits (And.intro (by simp only; omega) (Nat.zero_le 16))))

theorem afterSkip_outcome (taken : ReadOver i s u) (fit : TilesFit u) (some : 0 < u.bt.total)
    (within : u.bt.pos ≤ u.bt.total) (fewer : 1 < s.freeSteps + bitsTaken s.cfg i) : Outcome i s u.afterSkip := by
  rw [State.afterSkip]
  split
  next => exact nextMask_outcome taken fit some fewer
  next more =>
    exact .goesOn ⟨taken.interface, taken.p, taken.inside⟩ (by simp)
      (And.intro fit.codec (And.intro fit.total (And.intro fit.fits (Nat.lt_of_le_of_ne within more)))) fewer

theorem afterApply_outcome (taken : ReadOver i s u) (fit : TilesFit u) (some : 0 < u.bt.total)
    (within : u.bt.pos ≤ u.bt.total) (fewer : 1 < s.freeSteps + bitsTaken s.cfg i) : Outcome i s u.afterApply := by
  rw [State.afterApply]
  split
  next => exact nextMask_outcome taken fit some fewer
  next more =>
    exact .goesOn ⟨taken.interface, taken.p, taken.inside⟩ (by simp)
      (And.intro fit.codec (And.intro fit.total (And.intro fit.fits (Nat.lt_of_le_of_ne within more)))) fewer

theorem endPair_outcome (taken : ReadOver i s u) (fit : TilesFit u) (occ : u.bt.occ ≤ 16)
    (fewer : 1 < s.freeSteps + bitsTaken s.cfg i) : Outcome i s u.endPair := by
  rcases Nat.lt_or_ge (u.bt.k + 1) (2 * u.bt.n.toNat) with more | last
  · rw [endPair_of_lt more]
    exact .goesOn ⟨taken.interface, taken.p, taken.inside⟩ (by simp)
      (And.intro fit.codec (And.intro fit.total (And.intro fit.fits (And.intro more occ)))) fewer
  · rw [endPair_of_le last]
    exact .done ⟨taken.interface, taken.p, taken.inside⟩

theorem placeIndex_outcome (taken : ReadOver i s u) (fit : TilesFit u) (k : u.bt.k < 2 * u.bt.n.toNat)
    (occ : u.bt.occ ≤ 16) (fewer : 1 < s.freeSteps + bitsTaken s.cfg i) (v : Half) :
    Outcome i s (u.placeIndex v) := by
  by_cases companion : u.phase = .btCompIndex
  · rw [placeIndex_of_companion companion]
    exact endPair_outcome ⟨taken.interface, taken.p, taken.inside⟩ ⟨fit.codec, fit.total, fit.fits⟩ occ fewer
  · rw [placeIndex_of_first companion]
    exact .goesOn ⟨taken.interface, taken.p, taken.inside⟩ (by simp)
      (And.intro fit.codec (And.intro fit.total (And.intro fit.fits (And.intro k occ)))) fewer

end

/-! ## Tokens -/

section
variable {s : State}

theorem btCount_outcome (position : s.phase = .btCount) (range : PhaseInv s) (n : Half)
    (inside : s.p + 16 ≤ s.inputEnd) : HasOutcome (.btCount n) s := by
  have codec : s.jobCodec = 1 := by
    simp only [PhaseInv, position] at range
    exact range.1
  rcases Nat.lt_or_ge s.win.outCap.toNat (4 * n.toNat) with large | fits
  · exact ⟨_, execBtCount_of_lt large, .fault (by simp [faultsOf]) rfl rfl rfl (Nat.le_add_right ..) inside⟩
  refine ⟨_, execBtCount_of_le fits, ?_⟩
  rcases Nat.eq_zero_or_pos (4 * n.toNat) with none | some
  · have zero : n = 0 := (toNat_eq_zero_iff n).mp (by omega)
    rw [beginMasks_of_zero (by exact none), beginPairs_of_eq (by exact zero)]
    exact .done ⟨rfl, rfl, inside⟩
  · rw [beginMasks_of_pos (by exact some)]
    refine beginMask_outcome ?_ ?_ some ?_ _
    · exact ⟨rfl, rfl, inside⟩
    · exact ⟨codec, rfl, fits⟩
    · rw [freeSteps_bt (.inl position)]
      simp [bitsTaken, Instr.bitLength]

theorem skip_outcome (position : s.phase = .btSkip) (range : PhaseInv s) {i : Instr} {c : VarCode} {n : Nat}
    (skip : IsSkip i c n) (short : c.exp ≤ s.cfg.varintMaxExp) (inside : s.p + (2 * c.exp + 1) ≤ s.inputEnd) :
    HasOutcome i s := by
  obtain ⟨fit, pos⟩ := tilesFit_of_mask (.inl position) range
  have bits : bitsTaken s.cfg i = 2 * c.exp + 1 := by obtain ⟨rfl, -⟩ | ⟨rfl, -⟩ := skip <;> rfl
  have start : faultPosOf i s = s.p := by obtain ⟨rfl, -⟩ | ⟨rfl, -⟩ := skip <;> rfl
  have listed : .runOverrun ∈ faultsOf i := by obtain ⟨rfl, -⟩ | ⟨rfl, -⟩ := skip <;> simp [faultsOf]
  unfold HasOutcome
  rw [exec_of_isSkip skip short]
  rcases Nat.lt_or_ge s.bt.total (s.bt.pos + n) with past | within
  · rw [skipTiles_of_lt (by exact past), settle_error]
    exact ⟨_, rfl, .fault listed start.symm rfl rfl (Nat.le_add_right ..) inside⟩
  · rw [skipTiles_of_le (by exact within), settle_ok]
    refine ⟨_, rfl, afterSkip_outcome ⟨rfl, by rw [bits], inside⟩ ⟨fit.codec, fit.total, fit.fits⟩ ?_ within ?_⟩
    · exact Nat.zero_lt_of_lt pos
    · rw [freeSteps_bt (.inr (.inl position)), bits]; omega

theorem btApply_outcome (position : s.phase = .btApply) (range : PhaseInv s) {c : VarCode}
    (short : c.exp ≤ s.cfg.varintMaxExp) (inside : s.p + (2 * c.exp + 1) ≤ s.inputEnd) :
    HasOutcome (.btApply c) s := by
  obtain ⟨fit, pos⟩ := tilesFit_of_mask (.inr position) range
  rcases Nat.lt_or_ge s.bt.total (s.bt.pos + (c.value + 1)) with past | within
  · exact ⟨_, execBtApply_of_lt short past, .fault (by simp [faultsOf]) rfl rfl rfl (Nat.le_add_right ..) inside⟩
  · refine ⟨_, execBtApply_of_le short within,
      afterApply_outcome ⟨rfl, rfl, inside⟩ ⟨fit.codec, fit.total, fit.fits⟩ ?_ within ?_⟩
    · exact Nat.zero_lt_of_lt pos
    · rw [freeSteps_bt (.inr (.inr (.inl position)))]
      simp [bitsTaken, Instr.bitLength]

/-- An index token: it moves the queue, which leaves BT_N, BT_TOTAL and BT_K as they are, and places an index. -/
theorem index_outcome (position : s.phase = .btIndex ∨ s.phase = .btCompIndex) (range : PhaseInv s) {i : Instr}
    {b : BtRegs} {v : Half} (answer : exec i s = .next ({ s with p := s.p + bitsTaken s.cfg i, bt := b }.placeIndex v))
    (n : b.n = s.bt.n) (total : b.total = s.bt.total) (k : b.k = s.bt.k) (occ : b.occ ≤ 16)
    (some : 0 < bitsTaken s.cfg i) (inside : s.p + bitsTaken s.cfg i ≤ s.inputEnd) : HasOutcome i s := by
  obtain ⟨fit, pair, -⟩ := tilesFit_of_pair (position.imp_right .inr) range
  refine ⟨_, answer, placeIndex_outcome ?_ ⟨?_, ?_, ?_⟩ ?_ occ ?_ v⟩
  · exact ⟨rfl, rfl, inside⟩
  · exact fit.codec
  · exact total.trans (n ▸ fit.total)
  · exact total.trans_le fit.fits
  · exact (k.trans_lt pair).trans_eq (by rw [n])
  · rw [freeSteps_bt (.inr (.inr (.inr (position.imp_right .inr))))]
    exact Nat.lt_add_of_pos_right some

theorem btIdxRaw_outcome (position : s.phase = .btIndex ∨ s.phase = .btCompIndex) (range : PhaseInv s)
    (r : BitVec 11) (inside : s.p + 12 ≤ s.inputEnd) : HasOutcome (.btIdxRaw r) s :=
  index_outcome position range (execBtIdxRaw_eq r s) (pushFront_n ..) (pushFront_total ..) (pushFront_k ..)
    (Nat.min_le_right ..) (by simp [bitsTaken, Instr.bitLength]) inside

theorem btIdxMtf_outcome (decided : s.cfg = Config.decided) (position : s.phase = .btIndex ∨ s.phase = .btCompIndex)
    (range : PhaseInv s) (i : BitVec 4) (inside : s.p + 5 ≤ s.inputEnd) : HasOutcome (.btIdxMtf i) s := by
  obtain ⟨-, -, occ⟩ := tilesFit_of_pair (position.imp_right .inr) range
  rcases Nat.lt_or_ge i.toNat s.bt.occ with filled | empty
  · exact index_outcome position range (execBtIdxMtf_of_lt filled) (moveToFront_n ..) (moveToFront_total ..)
      (moveToFront_k ..) (by rwa [moveToFront_occ]) (by simp [bitsTaken, Instr.bitLength]) inside
  · exact ⟨_, execBtIdxMtf_of_le (by rw [decided]; rfl) empty,
      .fault (by simp [faultsOf]) rfl rfl rfl (Nat.le_add_right ..) inside⟩

theorem btCompDer_outcome (decided : s.cfg = Config.decided) (position : s.phase = .btCompanion) (range : PhaseInv s)
    (inside : s.p + 1 ≤ s.inputEnd) : HasOutcome .btCompDer s := by
  obtain ⟨fit, -, occ⟩ := tilesFit_of_pair (.inr (.inl position)) range
  refine ⟨_, execBtCompDer_eq (by rw [decided]; rfl),
    endPair_outcome ⟨rfl, rfl, inside⟩ ⟨fit.codec, fit.total, fit.fits⟩ occ ?_⟩
  rw [freeSteps_bt (.inr (.inr (.inr (.inr (.inl position)))))]
  simp [bitsTaken, Instr.bitLength]

theorem btCompInd_outcome (position : s.phase = .btCompanion) (range : PhaseInv s) (inside : s.p + 1 ≤ s.inputEnd) :
    HasOutcome .btCompInd s := by
  obtain ⟨fit, k, occ⟩ := tilesFit_of_pair (.inr (.inl position)) range
  refine ⟨_, rfl, .goesOn ⟨rfl, rfl, inside⟩ (by simp)
    (And.intro fit.codec (And.intro fit.total (And.intro fit.fits (And.intro k occ)))) ?_⟩
  rw [freeSteps_bt (by simp), freeSteps_bt (.inr (.inr (.inr (.inr (.inl position)))))]
  simp [bitsTaken, Instr.bitLength]

end

end Sys2Proof.Machine
end

section
/-! The outcomes of the tokens of TMD. -/

namespace Sys2Proof.Machine

/-! ## Header, dictionaries and phase 1 -/

/-- The positions of TMD before phase 2, all with the same bound on the steps that read nothing. -/
def beforeFill : List Phase :=
  [.tmHdr, .tmTdict, .tmOdict, .tmDelta, .tmCmd, .tmPropA, .tmPropB]

section
variable {s u : State} {i : Instr}

theorem freeSteps_beforeFill (position : s.phase ∈ beforeFill) : s.freeSteps = 2 * s.win.outCap.toNat + 2 := by
  simp only [beforeFill, List.mem_cons, List.not_mem_nil, or_false] at position
  rcases position with h | h | h | h | h | h | h <;> simp only [State.freeSteps, h]

theorem win_of_interface (interface : u.interface = s.interface) : u.win = s.win :=
  congrArg Interface.win interface

/-- The buffer of a tilemap is not empty (43_tilemap.md R251). -/
theorem total_pos (geometry : Geometry s) : 0 < s.tm.t := by
  obtain ⟨w, -, l, -, height, total, -⟩ := geometry
  rw [total, height]
  exact Nat.mul_pos w (by omega)

/-- A token from one of these positions to another. -/
theorem beforeFill_outcome (answer : exec i s = .next u) (before : s.phase ∈ beforeFill) (after : u.phase ∈ beforeFill)
    (taken : ReadOver i s u) (range : PhaseInv u) (some : 0 < bitsTaken s.cfg i) : HasOutcome i s := by
  refine ⟨u, answer, .goesOn taken ?_ range ?_⟩
  · intro none
    simp [none, beforeFill] at after
  · rw [freeSteps_beforeFill before, freeSteps_beforeFill after, win_of_interface taken.interface]
    exact Nat.lt_add_of_pos_right some

theorem tmHdr_outcome (position : s.phase = .tmHdr) (range : PhaseInv s) (left top wm1 hs : Byte)
    (inside : s.p + 32 ≤ s.inputEnd) : HasOutcome (.tmHdr left top wm1 hs) s := by
  have codec : s.jobCodec = 2 := by
    simp only [PhaseInv, position] at range
    exact range.1
  rcases Nat.lt_or_ge s.win.outCap.toNat ((wm1.toNat + 1) * (2 * (hs.toNat + 1))) with large | fits
  · exact ⟨_, execTmHdr_of_lt large, .fault (by simp [faultsOf]) rfl rfl rfl (Nat.le_add_right ..) inside⟩
  · refine beforeFill_outcome (execTmHdr_of_le fits) (by simp [beforeFill, position]) (by simp [beforeFill])
      ⟨rfl, rfl, inside⟩ ?_ (by simp [bitsTaken, Instr.bitLength])
    exact And.intro codec
      (And.intro (Nat.le_add_left ..) (And.intro wm1.isLt (And.intro (Nat.le_add_left ..)
        (And.intro hs.isLt (And.intro rfl (And.intro rfl fits))))))

theorem tmTdict_outcome (decided : s.cfg = Config.decided) (position : s.phase = .tmTdict) (range : PhaseInv s)
    (b0 b1 : BitVec 10) (inside : s.p + 20 ≤ s.inputEnd) : HasOutcome (.tmTdict b0 b1) s := by
  have apart : s.cfg.tmCountersAlias = false := by rw [decided]; rfl
  have answer := execTmTdict_eq b0 b1 s
  simp only [apart, Bool.false_eq_true, if_false] at answer
  simp only [PhaseInv, position] at range
  obtain ⟨codec, geometry⟩ := range
  exact beforeFill_outcome answer (by simp [beforeFill, position]) (by simp [beforeFill]) ⟨rfl, rfl, inside⟩
    (And.intro codec geometry) (by simp [bitsTaken, Instr.bitLength])

theorem tmOdict_outcome (position : s.phase = .tmOdict) (range : PhaseInv s) (v6 v7 v8 v9 v10 v11 v12 v13 : BitVec 12)
    (inside : s.p + 96 ≤ s.inputEnd) : HasOutcome (.tmOdict v6 v7 v8 v9 v10 v11 v12 v13) s := by
  simp only [PhaseInv, position] at range
  obtain ⟨codec, geometry⟩ := range
  have cells := total_pos geometry
  refine beforeFill_outcome rfl (by simp [beforeFill, position]) (by simp [beforeFill]) ⟨rfl, rfl, inside⟩
    (And.intro codec (And.intro geometry (And.intro le_rfl ?_))) (by simp [bitsTaken, Instr.bitLength])
  simp only [advance_tm]
  omega

/-- The cursor stands below T at every position of phase 1. -/
theorem tmDelta_outcome (decided : s.cfg = Config.decided) (position : s.phase = .tmDelta) (range : PhaseInv s)
    {c : VarCode} (short : c.exp ≤ s.cfg.varintMaxExp) (below : c.delta < ((s.passEnd : Int) - s.tm.c).toNat)
    (inside : s.p + (2 * c.exp + 1) ≤ s.inputEnd) : HasOutcome (.tmDelta c) s := by
  rw [passEnd_whole (tmPassExtent_decided decided)] at below
  simp only [PhaseInv, position] at range
  obtain ⟨codec, geometry, cursor, -⟩ := range
  have moves : 1 ≤ c.delta := by rw [VarCode.delta, deltaOf]; split <;> omega
  refine beforeFill_outcome (execTmDelta_of_le short) (by simp [beforeFill, position]) (by simp [beforeFill])
    ⟨rfl, rfl, inside⟩ (And.intro codec (And.intro geometry (And.intro ?_ ?_))) (by simp [bitsTaken, Instr.bitLength])
  · simp only [State.movedBy]; omega
  · simp only [State.movedBy]; omega

theorem command_outcome (decided : s.cfg = Config.decided) (position : s.phase = .tmCmd) (range : PhaseInv s)
    {len k : Nat} (hk : k < 14) (command : IsCommand i len k) (inside : s.p + len ≤ s.inputEnd) : HasOutcome i s := by
  simp only [PhaseInv, position] at range
  obtain ⟨codec, geometry, start, below⟩ := range
  obtain ⟨-, -, -, -, -, -, fits⟩ := id geometry
  have bits : bitsTaken s.cfg i = len ∧ 0 < len := by
    obtain ⟨c, -, rfl, rfl, -⟩ | ⟨x, e, rfl, rfl, -⟩ := command <;> simp [bitsTaken, Instr.bitLength]
  have answer := exec_of_isCommand hk decided command
  rw [placeCommand_decided (by exact decided) (by simp only [advance_tm, advance_win]; omega), settle_ok] at answer
  refine beforeFill_outcome answer (by simp [beforeFill, position]) (by simp [beforeFill]) ⟨rfl, ?_, inside⟩
    (And.intro codec (And.intro geometry (And.intro start (And.intro below ?_)))) (bits.1 ▸ bits.2)
  · rw [bits.1]; rfl
  · simp only [advance_tm]; omega

theorem propRun_outcome (decided : s.cfg = Config.decided) (position : s.phase = .tmPropA) (range : PhaseInv s)
    (inside : s.p + 1 ≤ s.inputEnd) : HasOutcome .tmPropRun s := by
  simp only [PhaseInv, position] at range
  obtain ⟨codec, geometry, start, below, cell⟩ := range
  exact beforeFill_outcome (execTmPropRun_decided decided) (by simp [beforeFill, position]) (by simp [beforeFill])
    ⟨rfl, rfl, inside⟩ (And.intro codec (And.intro geometry (And.intro start (And.intro below cell))))
    (by simp [bitsTaken, Instr.bitLength])

theorem propStop_outcome (decided : s.cfg = Config.decided) (position : s.phase = .tmPropA) (range : PhaseInv s)
    (inside : s.p + 1 ≤ s.inputEnd) : HasOutcome .tmPropStop s := by
  simp only [PhaseInv, position] at range
  obtain ⟨codec, geometry, start, below, -⟩ := range
  exact beforeFill_outcome (execTmPropStop_decided decided) (by simp [beforeFill, position]) (by simp [beforeFill])
    ⟨rfl, rfl, inside⟩ (And.intro codec (And.intro geometry (And.intro (by simp only; omega) below)))
    (by simp [bitsTaken, Instr.bitLength])

theorem propEndrun_outcome (decided : s.cfg = Config.decided) (position : s.phase = .tmPropB) (range : PhaseInv s)
    (inside : s.p + 1 ≤ s.inputEnd) : HasOutcome .tmPropEndrun s := by
  simp only [PhaseInv, position] at range
  obtain ⟨codec, geometry, start, below, cell⟩ := range
  exact beforeFill_outcome (execTmPropEndrun_decided decided) (by simp [beforeFill, position]) (by simp [beforeFill])
    ⟨rfl, rfl, inside⟩ (And.intro codec (And.intro geometry (And.intro start (And.intro below cell))))
    (by simp [bitsTaken, Instr.bitLength])

theorem propCell_outcome (decided : s.cfg = Config.decided) (position : s.phase = .tmPropB) (range : PhaseInv s)
    (inside : s.p + 1 ≤ s.inputEnd) : HasOutcome .tmPropCell s := by
  simp only [PhaseInv, position] at range
  obtain ⟨codec, geometry, start, below, -⟩ := range
  obtain ⟨-, -, -, -, -, -, fits⟩ := id geometry
  rcases Nat.lt_or_ge s.tm.nextPc s.tm.t with within | past
  · exact beforeFill_outcome (execTmPropCell_of_room decided within (within.trans_le fits))
      (by simp [beforeFill, position]) (by simp [beforeFill]) ⟨rfl, rfl, inside⟩
      (And.intro codec (And.intro geometry (And.intro start (And.intro below within))))
      (by simp [bitsTaken, Instr.bitLength])
  · exact ⟨_, execTmPropCell_of_past decided past,
      .fault (by simp [faultsOf]) rfl rfl rfl (Nat.le_add_right ..) inside⟩

/-! ## Phase 2 -/

theorem freeSteps_cell (position : s.phase = .tmCell) :
    s.freeSteps = (s.win.outCap.toNat - s.tm.i) + s.win.outCap.toNat + 2 := by
  simp only [State.freeSteps, position]

theorem freeSteps_align (position : s.phase = .tmAlign) : s.freeSteps = s.win.outCap.toNat + 2 := by
  simp only [State.freeSteps, position]

theorem tmEnd_outcome (decided : s.cfg = Config.decided) (position : s.phase = .tmDelta) (range : PhaseInv s)
    {c : VarCode} (short : c.exp ≤ s.cfg.varintMaxExp) (inside : s.p + (2 * c.exp + 1) ≤ s.inputEnd) :
    HasOutcome (.tmEnd c) s := by
  simp only [PhaseInv, position] at range
  obtain ⟨codec, geometry, -, -⟩ := range
  have cells : 0 < (s.movedBy c).tm.t := total_pos geometry
  have steps : s.freeSteps = _ := freeSteps_beforeFill (by simp [beforeFill, position])
  have answer := execTmEnd_of_le short
  rw [beginFill_whole (by exact tmPassExtent_decided decided), if_pos cells] at answer
  refine ⟨_, answer, .goesOn ⟨rfl, rfl, inside⟩ (by simp) ?_ ?_⟩
  · exact And.intro codec (And.intro geometry (And.intro cells (by simp)))
  · rw [steps, freeSteps_cell rfl]
    simp only [State.movedBy, bitsTaken, Instr.bitLength]
    omega

/-- Mode 0 is never set: a cell sets its own value only where that is not 0 (43_tilemap.md R264). -/
theorem cellMode_ne (decided : s.cfg = Config.decided) (mode : s.tm.mode ≠ some 0) : s.cellMode ≠ some 0 := by
  rw [State.cellMode]
  split
  next nonzero => simpa using nonzero
  next =>
    cases now : s.tm.mode with
    | some m => simpa [now] using mode
    | none => simp [decided, show Config.decided.tmInitialMode = none from rfl]

/-- A cell filled: the next cell, or the alignment after the last, and one step less to come. -/
theorem fill_outcome (position : s.phase = .tmCell) (range : PhaseInv s) (answer : exec i s = .next u)
    (taken : ReadOver i s u) (w : u.tm.w = s.tm.w) (l : u.tm.l = s.tm.l) (h : u.tm.h = s.tm.h) (t : u.tm.t = s.tm.t)
    (next : u.tm.i = s.tm.i + 1) (mode : u.tm.mode ≠ some 0)
    (phase : u.phase = if s.tm.i + 1 < s.tm.t then .tmCell else .tmAlign) : HasOutcome i s := by
  simp only [PhaseInv, position] at range
  obtain ⟨codec, geometry, cell, -⟩ := range
  have kept : u.jobCodec = s.jobCodec := congrArg Interface.jobCodec taken.interface
  have win := win_of_interface taken.interface
  have geometry' : Geometry u := by rw [Geometry, w, l, h, t, win]; exact geometry
  obtain ⟨-, -, -, -, -, -, fits⟩ := geometry
  refine ⟨u, answer, ?_⟩
  split at phase
  next more =>
    refine .goesOn taken (by simp [phase]) ?_ ?_
    · simp only [PhaseInv, phase]
      exact ⟨kept.trans codec, geometry', by omega, mode⟩
    · rw [freeSteps_cell position, freeSteps_cell phase, next, win]
      omega
  next last =>
    refine .goesOn taken (by simp [phase]) ?_ ?_
    · simp only [PhaseInv, phase]
      exact ⟨kept.trans codec, geometry'⟩
    · rw [freeSteps_cell position, freeSteps_align phase, win]
      omega

/-- The cells of phase 2 have room: T cells fit. -/
theorem cell_room (position : s.phase = .tmCell) (range : PhaseInv s) :
    s.tm.i < s.win.outCap.toNat ∧ s.tm.mode ≠ some 0 := by
  simp only [PhaseInv, position] at range
  obtain ⟨-, ⟨-, -, -, -, -, -, fits⟩, cell, mode⟩ := range
  exact ⟨cell.trans_le fits, mode⟩

theorem tmCopy_outcome (decided : s.cfg = Config.decided) (position : s.phase = .tmCell) (range : PhaseInv s)
    {d : Half} (copying : s.cellMode = some d) (inside : s.p ≤ s.inputEnd) : HasOutcome .tmCopy s := by
  obtain ⟨room, mode⟩ := cell_room position range
  have answer := execTmCopy_of_mode copying
  rcases Nat.lt_or_ge s.tm.i d.toNat with far | near
  · rw [if_pos far, settle_error] at answer
    exact ⟨_, answer, .fault (by simp [faultsOf]) rfl rfl rfl le_rfl inside⟩
  · rw [if_neg (Nat.not_lt.mpr near), fillCell_whole (by exact tmPassExtent_decided decided) (by exact room),
      settle_ok] at answer
    exact fill_outcome position range answer ⟨rfl, rfl, inside⟩ rfl rfl rfl rfl rfl
      (copying ▸ cellMode_ne decided mode) rfl

theorem literal_outcome (decided : s.cfg = Config.decided) (position : s.phase = .tmCell) (range : PhaseInv s)
    {len : Nat} {x c0 c1 : Half} (answer : exec i s = .next (s.literalFilled len x c0 c1))
    (bits : bitsTaken s.cfg i = len) (inside : s.p + len ≤ s.inputEnd) : HasOutcome i s := by
  obtain ⟨-, mode⟩ := cell_room position range
  exact fill_outcome position range answer ⟨rfl, by rw [bits]; rfl, inside⟩ rfl rfl rfl rfl rfl
    (cellMode_ne decided mode) rfl

theorem tmLitRaw_outcome (decided : s.cfg = Config.decided) (position : s.phase = .tmCell) (range : PhaseInv s)
    (n v : Nat) (inside : s.p + (2 + n) ≤ s.inputEnd) : HasOutcome (.tmLitRaw n v) s := by
  obtain ⟨room, -⟩ := cell_room position range
  by_cases zero : s.tm.b0 = 0
  · exact ⟨_, execTmLitRaw_of_zero decided zero n v, .fault (by simp [faultsOf]) rfl rfl rfl (Nat.le_add_right ..)
      (by simp only [State.literalRead]; omega)⟩
  · have answer := execTmLitRaw_of_ne decided zero n v
    rw [fillCell_literalRead decided room, settle_ok] at answer
    exact literal_outcome decided position range answer rfl inside

theorem tmLitOfs_outcome (decided : s.cfg = Config.decided) (position : s.phase = .tmCell) (range : PhaseInv s)
    (n v : Nat) (inside : s.p + (2 + n) ≤ s.inputEnd) : HasOutcome (.tmLitOfs n v) s := by
  obtain ⟨room, -⟩ := cell_room position range
  by_cases zero : s.tm.b1 = 0
  · exact ⟨_, execTmLitOfs_of_zero decided zero n v, .fault (by simp [faultsOf]) rfl rfl rfl (Nat.le_add_right ..)
      (by simp only [State.literalRead]; omega)⟩
  · have answer := execTmLitOfs_of_ne decided zero n v
    rw [fillCell_literalRead decided room, settle_ok] at answer
    exact literal_outcome decided position range answer rfl inside

/-! ## Alignment and the heightmap -/

/-- The alignment stays within the input, which ends at a byte boundary (10_state.md R42). -/
theorem alignedPos_le_inputEnd (inside : s.p ≤ s.inputEnd) : alignedPos Config.decided s.p ≤ s.inputEnd := by
  obtain ⟨aligned, -, near⟩ := alignedPos_decided s.p
  rw [State.inputEnd] at *
  omega

theorem tmAlign_outcome (decided : s.cfg = Config.decided) (position : s.phase = .tmAlign) (range : PhaseInv s)
    {pad : List Bool} (length : pad.length = alignedPos s.cfg s.p - s.p) (inside : s.p ≤ s.inputEnd) :
    HasOutcome (.tmAlign pad) s := by
  simp only [PhaseInv, position] at range
  obtain ⟨codec, geometry⟩ := range
  obtain ⟨aligned, forward, -⟩ := alignedPos_decided s.p
  have boundary : alignedPos s.cfg s.p = alignedPos Config.decided s.p := by rw [decided]
  have answer := execTmAlign_eq pad s
  rw [boundary] at length answer
  refine ⟨_, answer, .goesOn ⟨rfl, ?_, alignedPos_le_inputEnd inside⟩ (by simp) ?_ ?_⟩
  · simp only [bitsTaken, Instr.bitLength, length]
    omega
  · exact And.intro codec (And.intro geometry aligned)
  · rw [freeSteps_align position]
    simp only [State.freeSteps]
    omega

theorem freeSteps_hmCell (position : s.phase = .hmCell) :
    s.freeSteps = (s.win.outCap.toNat - s.hm.j) + 1 := by
  simp only [State.freeSteps, position]

theorem hmDim_outcome (position : s.phase = .hmDim) (range : PhaseInv s) (hw hh : Byte)
    (inside : s.p + 16 ≤ s.inputEnd) : HasOutcome (.hmDim hw hh) s := by
  have steps : s.freeSteps = s.win.outCap.toNat + 1 := by simp only [State.freeSteps, position]
  simp only [PhaseInv, position] at range
  obtain ⟨codec, geometry, aligned⟩ := range
  rcases Nat.lt_or_ge s.win.outCap.toNat (hw.toNat * hh.toNat) with large | fits
  · exact ⟨_, execHmDim_of_lt large, .fault (by simp [faultsOf]) rfl rfl rfl (Nat.le_add_right ..) inside⟩
  rcases Nat.eq_zero_or_pos (hw.toNat * hh.toNat) with none | some
  · exact ⟨_, execHmDim_of_zero none, .done ⟨rfl, rfl, inside⟩⟩
  · refine ⟨_, execHmDim_of_pos fits some, .goesOn ⟨rfl, rfl, inside⟩ (by simp) ?_ ?_⟩
    · refine And.intro codec (And.intro geometry (And.intro ?_ (And.intro some fits)))
      simp only [State.dimensioned]
      omega
    · rw [steps, freeSteps_hmCell rfl]
      simp [State.dimensioned, bitsTaken, Instr.bitLength]

theorem hmRun_outcome (decided : s.cfg = Config.decided) (position : s.phase = .hmCell) (range : PhaseInv s)
    (pat : Half) (k : Nat) (last : Byte) (inside : s.p + (24 + 8 * k) ≤ s.inputEnd) :
    HasOutcome (.hmRun pat k last) s := by
  have steps := freeSteps_hmCell position
  by_cases zero : runLength k last = 0
  · exact ⟨_, execHmRun_of_zero (by rw [decided]; rfl) zero,
      .fault (by simp [faultsOf]) rfl rfl rfl (Nat.le_add_right ..) inside⟩
  · simp only [PhaseInv, position] at range
    obtain ⟨codec, geometry, aligned, cell, fits⟩ := range
    refine ⟨_, execHmRun_of_ne zero, .goesOn ⟨rfl, ?_, inside⟩ (by simp [position]) ?_ ?_⟩
    · simp only [bitsTaken, Instr.bitLength]
      omega
    · simp only [PhaseInv, position]
      exact ⟨codec, geometry, by omega, cell, fits⟩
    · rw [steps, freeSteps_hmCell (by exact position)]
      simp only [bitsTaken, Instr.bitLength]
      omega

theorem hmCell_outcome (position : s.phase = .hmCell) (range : PhaseInv s) (inside : s.p ≤ s.inputEnd) :
    HasOutcome .hmCell s := by
  have steps := freeSteps_hmCell position
  simp only [PhaseInv, position] at range
  obtain ⟨codec, geometry, aligned, cell, fits⟩ := range
  refine ⟨_, execHmCell_of_lt (cell.trans_le fits), ?_⟩
  split
  next more =>
    refine .goesOn ⟨rfl, rfl, inside⟩ (by simp [State.celled, position]) ?_ ?_
    · simp only [PhaseInv, State.celled, position]
      exact ⟨codec, geometry, aligned, more, fits⟩
    · rw [steps, freeSteps_hmCell (by exact position)]
      simp only [State.celled]
      omega
  next => exact .done ⟨rfl, rfl, inside⟩

end

end Sys2Proof.Machine
end

section
/-! The outcomes of the tokens of SPD. -/

namespace Sys2Proof.Machine

section
variable {s : State} {i : Instr}

theorem freeSteps_spr (position : s.phase = .sprHeader ∨ s.phase = .sprWord) : s.freeSteps = 1 := by
  rcases position with h | h <;> simp only [State.freeSteps, h]

/-! ## Subframe headers -/

theorem header_outcome (decided : s.cfg = Config.decided) (position : s.phase = .sprHeader) (range : PhaseInv s)
    {y : BitVec 5} {w : BitVec 2} {r : Bool} {x : BitVec 5} {h : BitVec 2} {next : Phase}
    (header : i = .sprSf y w r x h ∧ next = .sprHeader ∨ i = .sprSfLast y w r x h ∧ next = .sprWord)
    (inside : s.p + 16 ≤ s.inputEnd) : HasOutcome i s := by
  have bits : bitsTaken s.cfg i = 16 := by obtain ⟨rfl, -⟩ | ⟨rfl, -⟩ := header <;> rfl
  have start : s.p = faultPosOf i s := by obtain ⟨rfl, -⟩ | ⟨rfl, -⟩ := header <;> rfl
  have listed : .invalidControlCode ∈ faultsOf i := by obtain ⟨rfl, -⟩ | ⟨rfl, -⟩ := header <;> simp [faultsOf]
  obtain ⟨last, answer⟩ := exec_of_header (s := s) header
  cases r with
  | true =>
    rw [addSubframe_of_set (by rw [decided]; rfl)] at answer
    exact ⟨_, answer, .fault listed start rfl rfl (Nat.le_add_right ..) inside⟩
  | false =>
    rw [addSubframe_of_clear decided] at answer
    simp only [PhaseInv, position] at range
    obtain ⟨codec, boundary, empty, sum, records⟩ := range
    have taken : ReadOver i s { s.withRecord y w x h with phase := next } := ⟨rfl, by rw [bits]; rfl, inside⟩
    have sum' : s.sp.need + (w.toNat + 1) * (h.toNat + 1) = s.sp.tidx + (w.toNat + 1) * (h.toNat + 1) := by rw [sum]
    refine ⟨_, answer, .goesOn taken ?_ ?_ ?_⟩
    · obtain ⟨-, rfl⟩ | ⟨-, rfl⟩ := header <;> simp
    · obtain ⟨-, rfl⟩ | ⟨-, rfl⟩ := header
      · refine And.intro codec (And.intro ?_ (And.intro empty (And.intro sum' ?_)))
        · simp only [State.withRecord]; omega
        · simp only [State.withRecord]; omega
      · simp only [PhaseInv, State.withRecord, SubframeSums]
        exact ⟨codec, by omega, by omega, by omega, by omega, sum', by omega⟩
    · rw [freeSteps_spr (.inl position), freeSteps_spr (by obtain ⟨-, rfl⟩ | ⟨-, rfl⟩ := header <;> simp), bits]
      omega

/-! ## Control words -/

/-- After a control word's branch has written whole words below OUT_CAP. -/
theorem word_outcome {u : State} (position : s.phase = .sprWord) (range : PhaseInv s) (taken : ReadOver i s u)
    (some : 0 < bitsTaken s.cfg i) (boundary : u.p = 8 * u.sp.q) (even : u.sp.o % 2 = 0)
    (fits : u.sp.o ≤ s.win.outCap.toNat) (nsf : u.sp.nsf = s.sp.nsf) (need : u.sp.need = s.sp.need)
    (tidx : u.sp.tidx = s.sp.tidx) (forward : s.sp.q ≤ u.sp.q) : Outcome i s u.endWord := by
  simp only [PhaseInv, position] at range
  obtain ⟨codec, -, -, -, frames, sum, records⟩ := range
  have kept : u.jobCodec = s.jobCodec := congrArg Interface.jobCodec taken.interface
  have win := win_of_interface taken.interface
  refine endWord_outcome taken ?_ ?_
  · simp only [PhaseInv, SubframeSums, win, nsf, need, tidx]
    exact ⟨kept.trans codec, boundary, even, fits, frames, sum, by omega⟩
  · rw [freeSteps_spr (.inr position)]
    omega

theorem sprZero_outcome (decided : s.cfg = Config.decided) (position : s.phase = .sprWord) (range : PhaseInv s)
    (stop l r : Bool) (count : BitVec 12) (inside : s.p + 16 ≤ s.inputEnd) :
    HasOutcome (.sprZero stop l r count) s := by
  cases r with
  | true =>
    exact ⟨_, execSprZero_of_set decided stop l count,
      .fault (by simp [faultsOf]) rfl rfl rfl (Nat.le_add_right ..) inside⟩
  | false =>
    have word := range
    simp only [PhaseInv, position] at word
    obtain ⟨-, boundary, even, fits, -⟩ := word
    have answer := execSprZero_of_clear decided stop l count
    by_cases full : s.win.outCap.toNat < s.sp.o + 2 * count.toNat ∧ 0 < count.toNat
    · obtain ⟨m, fill⟩ :=
        zeroWords_of_lt s.p count.toNat (s.withWord (sprWord true stop l false count)) full.1 full.2
      rw [fill] at answer
      exact ⟨_, answer, .fault (by simp [faultsOf]) rfl rfl rfl (Nat.le_add_right ..) inside⟩
    · obtain ⟨m, fill, -⟩ :=
        zeroWords_of_le s.p count.toNat (s.withWord (sprWord true stop l false count))
          (by simp only [State.withWord]; omega)
      rw [fill] at answer
      refine ⟨_, answer, word_outcome position range ?_ ?_ ?_ ?_ ?_ rfl rfl rfl ?_⟩
      · exact ⟨rfl, rfl, inside⟩
      · simp [bitsTaken, Instr.bitLength]
      · simp only [State.withWord]; omega
      · simp only [State.withWord]; omega
      · simp only [State.withWord]; omega
      · exact Nat.le_add_right ..

theorem sprLz_outcome (decided : s.cfg = Config.decided) (position : s.phase = .sprWord) (range : PhaseInv s)
    (stop r : Bool) (count : BitVec 12) (inside : s.p + 16 ≤ s.inputEnd) : HasOutcome (.sprLz stop r count) s := by
  cases r with
  | true =>
    exact ⟨_, execSprLz_of_set decided stop count,
      .fault (by simp [faultsOf]) rfl rfl rfl (Nat.le_add_right ..) inside⟩
  | false =>
    have steps := freeSteps_spr (.inr position)
    simp only [PhaseInv, position] at range
    obtain ⟨codec, boundary, even, fits, frames, sum, records⟩ := range
    refine ⟨_, execSprLz_of_clear decided stop count, .goesOn ⟨rfl, ?_, ?_⟩ (by simp [State.beginLz]) ?_ ?_⟩
    · simp only [State.beginLz, bitsTaken, Instr.bitLength]; omega
    · simp only [State.beginLz]; omega
    · simp only [PhaseInv, State.beginLz, State.withWord, SubframeSums]
      exact ⟨codec, by omega, by omega, trivial, le_rfl, fits, even, by omega, by omega, frames, sum, by omega⟩
    · rw [steps, freeSteps_lz (nested := true) rfl]
      simp [bitsTaken, Instr.bitLength]

/-- The data words are read within the token's step: what is missing first, input or room, decides the fault
(44_sprite.md R308). -/
theorem sprRaw_outcome (decided : s.cfg = Config.decided) (position : s.phase = .sprWord) (range : PhaseInv s)
    (stop r : Bool) (count : BitVec 12) (inside : s.p + 16 ≤ s.inputEnd) : HasOutcome (.sprRaw stop r count) s := by
  cases r with
  | true =>
    exact ⟨_, execSprRaw_of_set decided stop count,
      .fault (by simp [faultsOf]) rfl rfl rfl (Nat.le_add_right ..) inside⟩
  | false =>
    have word := range
    simp only [PhaseInv, position] at word
    obtain ⟨-, boundary, even, fits, -⟩ := word
    have answer := execSprRaw_of_clear decided stop count
    rw [State.inputEnd] at inside
    generalize reached : s.withWord (sprWord false stop false false count) = u at answer
    have after : u.p = s.p + 16 ∧ u.sp.q = s.sp.q + 2 ∧ u.sp.o = s.sp.o ∧ u.win = s.win := by
      subst reached; exact ⟨rfl, rfl, rfl, rfl⟩
    have interface : u.interface = s.interface := by subst reached; rfl
    have stamp : u.stamp = s.stamp := by subst reached; rfl
    have sums : u.sp.nsf = s.sp.nsf ∧ u.sp.need = s.sp.need ∧ u.sp.tidx = s.sp.tidx := by
      subst reached; exact ⟨rfl, rfl, rfl⟩
    obtain ⟨p, q, o, win⟩ := after
    obtain ⟨nsf, need, tidx⟩ := sums
    have next : u.p = 8 * u.sp.q := by omega
    have shortage (readable writable : Nat) : count.toNat ≤ readable ∧ count.toNat ≤ writable ∨
        readable < count.toNat ∧ readable ≤ writable ∨ writable < count.toNat ∧ writable < readable := by omega
    obtain ⟨readable, writable⟩ | ⟨short, inputFirst⟩ | ⟨short, outputFirst⟩ :=
      shortage ((u.win.srcLen.toNat - u.sp.q) / 2) ((u.win.outCap.toNat - u.sp.o) / 2)
    · obtain ⟨m, copy, -⟩ := rawWords_of_le s.p count.toNat u next readable writable
      rw [copy] at answer
      have bits : bitsTaken s.cfg (.sprRaw stop false count) = 16 + 16 * count.toNat := by
        rw [bitsTaken, sprCount_decided decided]
      rw [win] at readable writable
      refine ⟨_, answer, word_outcome position range ⟨interface, ?_, ?_⟩ ?_ ?_ ?_ ?_ nsf need tidx ?_⟩
      · simp only [bits]; omega
      · simp only [State.inputEnd]; omega
      · omega
      all_goals (simp only; omega)
    · obtain ⟨m, copy⟩ := rawWords_endOfStream s.p count.toNat u next short inputFirst
      rw [copy] at answer
      refine ⟨_, answer, .fault (by simp [faultsOf]) rfl interface stamp ?_ ?_⟩
      · simp only; omega
      · simp only [win, State.inputEnd]; omega
    · obtain ⟨m, copy⟩ := rawWords_sizeMismatch s.p count.toNat u next short outputFirst
      rw [copy] at answer
      rw [win] at outputFirst
      refine ⟨_, answer, .fault (by simp [faultsOf]) rfl interface stamp ?_ ?_⟩
      · simp only; omega
      · simp only [win, State.inputEnd]; omega

end

end Sys2Proof.Machine
end

section
/-! The outcome of every fetched token, and what it says of the whole machine (O42, O54 to O58). -/

namespace Sys2Proof.Machine

/-! ## What is fetched -/

/-- The encoding of a token has the length its format gives it (30_encoding.md R110). -/
theorem length_encode (i : Instr) : (encode i).length = i.bitLength :=
  match i with
  | .varint c => Laws.EncodeLength.varint c
  | .lzCtrl c => Laws.EncodeLength.lzCtrl c
  | .lzLit lit => Laws.EncodeLength.lzLit lit
  | .lzRef offset lcode => Laws.EncodeLength.lzRef offset lcode
  | .lzEnd lcode => Laws.EncodeLength.lzEnd lcode
  | .btCount n => Laws.EncodeLength.btCount n
  | .btSkip0 c => Laws.EncodeLength.btSkip0 c
  | .btSkip c => Laws.EncodeLength.btSkip c
  | .btApply c => Laws.EncodeLength.btApply c
  | .btIdxMtf j => Laws.EncodeLength.btIdxMtf j
  | .btIdxRaw r => Laws.EncodeLength.btIdxRaw r
  | .btCompDer => Laws.EncodeLength.btCompDer
  | .btCompInd => Laws.EncodeLength.btCompInd
  | .tmHdr left top wm1 hs => Laws.EncodeLength.tmHdr left top wm1 hs
  | .tmTdict b0 b1 => Laws.EncodeLength.tmTdict b0 b1
  | .tmOdict v6 v7 v8 v9 v10 v11 v12 v13 => Laws.EncodeLength.tmOdict v6 v7 v8 v9 v10 v11 v12 v13
  | .tmDelta c => Laws.EncodeLength.tmDelta c
  | .tmEnd c => Laws.EncodeLength.tmEnd c
  | .tmCmdS c => Laws.EncodeLength.tmCmdS c
  | .tmCmdX x e => Laws.EncodeLength.tmCmdX x e
  | .tmPropRun => Laws.EncodeLength.tmPropRun
  | .tmPropStop => Laws.EncodeLength.tmPropStop
  | .tmPropCell => Laws.EncodeLength.tmPropCell
  | .tmPropEndrun => Laws.EncodeLength.tmPropEndrun
  | .tmCopy => Laws.EncodeLength.tmCopy
  | .tmLitRaw n v => Laws.EncodeLength.tmLitRaw n v
  | .tmLitOfs n v => Laws.EncodeLength.tmLitOfs n v
  | .tmLitCnt0 => Laws.EncodeLength.tmLitCnt0
  | .tmLitCnt1 => Laws.EncodeLength.tmLitCnt1
  | .tmAlign pad => Laws.EncodeLength.tmAlign pad
  | .hmDim hw hh => Laws.EncodeLength.hmDim hw hh
  | .hmRun pat k last => Laws.EncodeLength.hmRun pat k last
  | .hmCell => Laws.EncodeLength.hmCell
  | .sprSf y w r x h => Laws.EncodeLength.sprSf y w r x h
  | .sprSfLast y w r x h => Laws.EncodeLength.sprSfLast y w r x h
  | .sprZero stop l r count => Laws.EncodeLength.sprZero stop l r count
  | .sprLz stop r count => Laws.EncodeLength.sprLz stop r count
  | .sprRaw stop r count => Laws.EncodeLength.sprRaw stop r count

/-- What a position of LZD asks for (41_lz77.md R181, R185). -/
theorem selectLz_cases (s : State) : ∃ want ∈ [Expect.lzCtrl, .lzLit, .lzPair], s.selectLz = .token want := by
  unfold State.selectLz
  split
  · exact ⟨.lzCtrl, by simp, rfl⟩
  · split
    · exact ⟨.lzLit, by simp, rfl⟩
    · exact ⟨.lzPair, by simp, rfl⟩

/-- What a cell of phase 2 asks for (43_tilemap.md R264): its mode names a literal or a copy, and no mode is a fault. -/
theorem selectCell_cases (s : State) :
    (∃ n0 n1, s.selectCell = .token (.tmLit n0 n1)) ∨ (∃ d, s.cellMode = some d ∧ s.selectCell = .token .tmCopy) ∨
      s.selectCell = .trap .invalidControlCode := by
  unfold State.selectCell
  split
  next => exact .inr (.inr rfl)
  next d mode =>
    split
    · exact .inl ⟨_, _, rfl⟩
    · exact .inr (.inl ⟨d, mode, rfl⟩)

/-- The one position that asks for padding is the one after phase 2. -/
theorem select_tmAlign {s : State} {k : Nat} (asked : s.select = .token (.tmAlign k)) :
    k = alignedPos s.cfg s.p - s.p := by
  cases position : s.phase with
  | lz nested =>
    obtain ⟨want, among, lz⟩ := selectLz_cases s
    simp only [State.select, position, lz, Selected.token.injEq] at asked
    simp [asked] at among
  | tmCell =>
    obtain ⟨n0, n1, cell⟩ | ⟨d, -, cell⟩ | cell := selectCell_cases s <;>
      simp [State.select, position, cell] at asked
  | btSkip => cases first : s.bt.first <;> simp [State.select, position, first] at asked
  | hmCell => by_cases run : s.hm.run = 0 <;> simp [State.select, position, run] at asked
  | tmAlign =>
    simp only [State.select, position, Selected.token.injEq, Expect.tmAlign.injEq] at asked
    exact asked.symm
  | _ => simp [State.select, position] at asked

/-- A token is fetched where the grammar offers it, well-formed and wholly inside the input. -/
theorem fetch_instr {s : State} {i : Instr} (decided : s.cfg = Config.decided) (cursor : s.p ≤ s.inputEnd)
    (fetched : s.fetch = .instr i) :
    ∃ want, s.select = .token want ∧ i.wf s.cfg = true ∧ want.offers i = true ∧ s.p + i.bitLength ≤ s.inputEnd := by
  unfold State.fetch at fetched
  split at fetched
  next => cases fetched
  next => cases fetched
  next want asked =>
    split at fetched
    next i' rest read =>
      cases fetched
      have padding : ∀ k, want = .tmAlign k → k < 8 ∧ k ≤ s.inputBits.length := by
        rintro k rfl
        have pad := select_tmAlign asked
        have inside := alignedPos_le_inputEnd cursor
        obtain ⟨-, -, near⟩ := alignedPos_decided s.p
        rw [decided] at pad
        rw [State.inputEnd] at cursor inside
        rw [length_inputBits]
        omega
      obtain ⟨wf, offered, bits⟩ := decode_ok padding read
      have length := congrArg List.length bits
      rw [length_inputBits, List.length_append, length_encode] at length
      refine ⟨want, asked, wf, offered, ?_⟩
      rw [State.inputEnd] at *
      omega
    next => cases fetched

/-! ## The outcome of every fetched token -/

section
variable {s : State} {i : Instr}

theorem short_of_wf {c : VarCode} (wf : c.wf s.cfg = true) : c.exp ≤ s.cfg.varintMaxExp := by
  simp only [VarCode.wf, Bool.and_eq_true, decide_eq_true_eq] at wf
  exact wf.1

/-- A token of LZD, by what its position asks for. -/
theorem lz_outcome {nested : Bool} (decided : s.cfg = Config.decided) (position : s.phase = .lz nested)
    (range : PhaseInv s) {want : Expect} (asked : s.selectLz = .token want) (wf : i.wf s.cfg = true)
    (offered : want.offers i = true) (inside : s.p + i.bitLength ≤ s.inputEnd) : HasOutcome i s := by
  obtain ⟨want', among, lz⟩ := selectLz_cases s
  obtain rfl : want' = want := by simpa [lz] using asked
  simp only [List.mem_cons, List.not_mem_nil, or_false] at among
  obtain rfl | rfl | rfl := among
  · cases i with
    | lzCtrl c => exact lzCtrl_outcome position range c inside
    | _ => cases offered
  · cases i with
    | lzLit lit => exact lzLit_outcome position range lit inside
    | _ => cases offered
  · cases i with
    | lzRef offset lcode => exact lzRef_outcome position range (by simpa [Instr.wf] using wf) lcode inside
    | lzEnd lcode => exact lzEnd_outcome decided position range lcode inside
    | _ => cases offered

/-- A token of phase 2, by the mode of its cell. -/
theorem cell_outcome (decided : s.cfg = Config.decided) (position : s.phase = .tmCell) (range : PhaseInv s)
    {want : Expect} (asked : s.selectCell = .token want) (offered : want.offers i = true)
    (inside : s.p + i.bitLength ≤ s.inputEnd) : HasOutcome i s := by
  obtain ⟨room, -⟩ := cell_room position range
  obtain ⟨n0, n1, cell⟩ | ⟨d, mode, cell⟩ | cell := selectCell_cases s
  · obtain rfl : Expect.tmLit n0 n1 = want := by simpa [cell] using asked
    cases i with
    | tmLitRaw n v => exact tmLitRaw_outcome decided position range n v inside
    | tmLitOfs n v => exact tmLitOfs_outcome decided position range n v inside
    | tmLitCnt0 => exact literal_outcome decided position range (execTmLitCnt0_of_lt decided room) rfl inside
    | tmLitCnt1 => exact literal_outcome decided position range (execTmLitCnt1_of_lt decided room) rfl inside
    | _ => cases offered
  · obtain rfl : Expect.tmCopy = want := by simpa [cell] using asked
    cases i with
    | tmCopy => exact tmCopy_outcome decided position range mode inside
    | _ => cases offered
  · simp [cell] at asked

/-- Every token that a position of a job offers has an outcome. -/
theorem outcome_of_offered (decided : s.cfg = Config.decided) (range : PhaseInv s) {want : Expect}
    (asked : s.select = .token want) (wf : i.wf s.cfg = true) (offered : want.offers i = true)
    (inside : s.p + i.bitLength ≤ s.inputEnd) : HasOutcome i s := by
  cases position : s.phase <;> rw [State.select, position] at asked
  case none => cases asked
  case lz nested =>
    exact lz_outcome decided position range asked wf offered inside
  case tmCell =>
    exact cell_outcome decided position range asked offered inside
  case btSkip =>
    cases first : s.bt.first with
    | true =>
      rw [first] at asked
      cases asked
      cases i with
      | btSkip0 c => exact skip_outcome position range (.inl ⟨rfl, rfl⟩) (short_of_wf wf) inside
      | _ => cases offered
    | false =>
      rw [first] at asked
      cases asked
      cases i with
      | btSkip c => exact skip_outcome position range (.inr ⟨rfl, rfl⟩) (short_of_wf wf) inside
      | _ => cases offered
  case hmCell =>
    by_cases run : s.hm.run = 0
    · simp only [run, if_true] at asked
      cases asked
      cases i with
      | hmRun pat k last =>
        refine hmRun_outcome decided position range pat k last ?_
        simp only [Instr.bitLength] at inside
        omega
      | _ => cases offered
    · simp only [run, if_false] at asked
      cases asked
      cases i with
      | hmCell => exact hmCell_outcome position range inside
      | _ => cases offered
  case tmDelta =>
    cases asked; cases i with
    | tmDelta c =>
      exact tmDelta_outcome decided position range (short_of_wf wf) (by simpa [Expect.offers] using offered) inside
    | tmEnd c => exact tmEnd_outcome decided position range (short_of_wf wf) inside
    | _ => cases offered
  case tmCmd =>
    cases asked; cases i with
    | tmCmdS c =>
      have few : c.toNat ≤ 5 := by simpa [Instr.wf] using wf
      exact command_outcome decided position range (by omega) (.inl ⟨c, few, rfl, rfl, rfl⟩) inside
    | tmCmdX x e =>
      have last : 6 + 4 * x.toNat + e.toNat < 14 := by
        have hx := x.isLt
        have he := e.isLt
        omega
      exact command_outcome decided position range last (.inr ⟨x, e, rfl, rfl, rfl⟩) inside
    | _ => cases offered
  case btCount =>
    cases asked; cases i with
    | btCount n => exact btCount_outcome position range n inside
    | _ => cases offered
  case btApply =>
    cases asked; cases i with
    | btApply c => exact btApply_outcome position range (short_of_wf wf) inside
    | _ => cases offered
  case btIndex =>
    cases asked; cases i with
    | btIdxMtf j => exact btIdxMtf_outcome decided (.inl position) range j inside
    | btIdxRaw r => exact btIdxRaw_outcome (.inl position) range r inside
    | _ => cases offered
  case btCompIndex =>
    cases asked; cases i with
    | btIdxMtf j => exact btIdxMtf_outcome decided (.inr position) range j inside
    | btIdxRaw r => exact btIdxRaw_outcome (.inr position) range r inside
    | _ => cases offered
  case btCompanion =>
    cases asked; cases i with
    | btCompDer => exact btCompDer_outcome decided position range inside
    | btCompInd => exact btCompInd_outcome position range inside
    | _ => cases offered
  case tmHdr =>
    cases asked; cases i with
    | tmHdr left top wm1 hs => exact tmHdr_outcome position range left top wm1 hs inside
    | _ => cases offered
  case tmTdict =>
    cases asked; cases i with
    | tmTdict b0 b1 => exact tmTdict_outcome decided position range b0 b1 inside
    | _ => cases offered
  case tmOdict =>
    cases asked; cases i with
    | tmOdict v6 v7 v8 v9 v10 v11 v12 v13 =>
      exact tmOdict_outcome position range v6 v7 v8 v9 v10 v11 v12 v13 inside
    | _ => cases offered
  case tmPropA =>
    cases asked; cases i with
    | tmPropRun => exact propRun_outcome decided position range inside
    | tmPropStop => exact propStop_outcome decided position range inside
    | _ => cases offered
  case tmPropB =>
    cases asked; cases i with
    | tmPropCell => exact propCell_outcome decided position range inside
    | tmPropEndrun => exact propEndrun_outcome decided position range inside
    | _ => cases offered
  case tmAlign =>
    cases asked; cases i with
    | tmAlign pad =>
      exact tmAlign_outcome decided position range (by simpa [Expect.offers] using offered)
        ((Nat.le_add_right ..).trans inside)
    | _ => cases offered
  case hmDim =>
    cases asked; cases i with
    | hmDim hw hh => exact hmDim_outcome position range hw hh inside
    | _ => cases offered
  case sprHeader =>
    cases asked; cases i with
    | sprSf y w r x h => exact header_outcome decided position range (.inl ⟨rfl, rfl⟩) inside
    | sprSfLast y w r x h => exact header_outcome decided position range (.inr ⟨rfl, rfl⟩) inside
    | _ => cases offered
  case sprWord =>
    cases asked; cases i with
    | sprZero stop l r count => exact sprZero_outcome decided position range stop l r count inside
    | sprLz stop r count => exact sprLz_outcome decided position range stop r count inside
    | sprRaw stop r count => exact sprRaw_outcome decided position range stop r count inside
    | _ => cases offered

theorem outcome_of_fetch (inv : JobInv s) (busy : s.win.engine = .busy) (fetched : s.fetch = .instr i) :
    HasOutcome i s := by
  obtain ⟨want, asked, wf, offered, inside⟩ := fetch_instr inv.decided (inv.cursor busy) fetched
  exact outcome_of_offered inv.decided inv.phase asked wf offered inside

end

end Sys2Proof.Machine
end

section
/-! The job invariant, and what it says of the whole machine (O42, O54 to O58), read off the outcomes of its tokens. -/

namespace Sys2Proof.Machine

/-! ## The invariant -/

section
variable {s t u : State} {i : Instr}

/-- With no job running the invariant asks for no more than FAULT_CODE 0 outside FAULT. -/
theorem jobInv_of_waiting (decided : s.cfg = Config.decided) (waiting : s.win.engine ≠ .busy)
    (noCode : s.win.engine ≠ .fault → s.win.faultCode = 0) (none : s.phase = .none) : JobInv s where
  decided := decided
  noCode := noCode
  busyPhase := ⟨fun busy => absurd busy waiting, fun some => absurd none some⟩
  cursor := fun busy => absurd busy waiting
  phase := by simp only [PhaseInv, none]

theorem JobInv.phase_none (inv : JobInv s) (waiting : s.win.engine ≠ .busy) : s.phase = .none := by
  by_contra some
  exact waiting (inv.busyPhase.mpr some)

theorem raise_jobInv (decided : u.cfg = Config.decided) (f : Trap) : JobInv (u.raise f) :=
  jobInv_of_waiting decided (by simp [State.raise]) (by simp [State.raise]) rfl

theorem cfg_of_interface (interface : u.interface = s.interface) : u.cfg = s.cfg :=
  congrArg Interface.cfg interface

/-- An outcome of a token of a job keeps the invariant. -/
theorem Outcome.jobInv (inv : JobInv s) (busy : s.win.engine = .busy) (outcome : Outcome i s t) : JobInv t := by
  have noCode : s.win.faultCode = 0 := inv.noCode (by simp [busy])
  cases outcome with
  | fault _ _ interface => exact raise_jobInv ((cfg_of_interface interface).trans inv.decided) _
  | done taken =>
    refine jobInv_of_waiting ((cfg_of_interface taken.interface).trans inv.decided) (by simp [State.finishJob]) ?_ rfl
    intro _
    simpa only [State.finishJob, win_of_interface taken.interface] using noCode
  | goesOn taken position range =>
    have win := win_of_interface taken.interface
    exact
      { decided := (cfg_of_interface taken.interface).trans inv.decided
        noCode := fun _ => by rw [win]; exact noCode
        busyPhase := ⟨fun _ => position, fun _ => by rw [win]; exact busy⟩
        cursor := fun _ => by rw [win]; exact taken.inside
        phase := range }

/-! ## A turn of DEC -/

/-- A fault before a token has been read leaves the interface, and p where the reader had got to within the input. -/
theorem fetch_trap_inside {f : Trap} (cursor : s.p ≤ s.inputEnd) (trapped : s.fetch = .trap f u) :
    u.interface = s.interface ∧ s.p ≤ u.p ∧ u.p ≤ s.inputEnd := by
  obtain ⟨-, ⟨-, rfl⟩ | ⟨want, e, -, failed, -, rfl⟩⟩ := fetch_trap trapped
  · exact ⟨rfl, le_rfl, cursor⟩
  obtain ⟨win, cfg, mem, codec, -, sched, -⟩ := readFailed_frame s want e
  refine ⟨by rw [State.interface, win, cfg, mem, codec, sched]; rfl, ?_⟩
  rw [State.inputEnd] at *
  cases e with
  | endOfStream =>
    rw [readFailed_p]
    split
    · exact ⟨le_rfl, cursor⟩
    · exact ⟨Nat.le_max_left .., Nat.max_le.mpr ⟨cursor, le_rfl⟩⟩
  | varintTooLong =>
    obtain ⟨-, rest, zeros⟩ := decode_tooLong_iff.mp failed
    have length := congrArg List.length zeros
    rw [length_inputBits, List.length_append, List.length_replicate] at length
    simp only [State.readFailed, State.tooManyZeros]
    omega

/-- The grammar asks for nothing only where no job runs. -/
theorem select_stuck (stuck : s.select = .stuck) : s.phase = .none := by
  cases position : s.phase with
  | none => rfl
  | lz nested =>
    obtain ⟨want, -, lz⟩ := selectLz_cases s
    simp [State.select, position, lz] at stuck
  | tmCell =>
    obtain ⟨n0, n1, cell⟩ | ⟨d, -, cell⟩ | cell := selectCell_cases s <;>
      simp [State.select, position, cell] at stuck
  | _ => simp [State.select, position] at stuck

theorem fetch_ne_stuck (inv : JobInv s) (busy : s.win.engine = .busy) : s.fetch ≠ .stuck := by
  intro stuck
  unfold State.fetch at stuck
  split at stuck
  next nothing => exact inv.busyPhase.mp busy (select_stuck nothing)
  next => cases stuck
  next => split at stuck <;> cases stuck

/-- What a turn of DEC does in a job: it runs a token, or enters a fault of its fetch. -/
theorem decStep_of_jobInv (inv : JobInv s) (busy : s.win.engine = .busy) :
    (∃ i t, s.fetch = .instr i ∧ decStep s = .next t ∧ Outcome i s t) ∨
      ∃ f u, s.fetch = .trap f u ∧ decStep s = .next (u.raise f) ∧ u.interface = s.interface ∧ s.p ≤ u.p ∧
        u.p ≤ s.inputEnd := by
  cases fetched : s.fetch with
  | instr i =>
    obtain ⟨t, answer, outcome⟩ := outcome_of_fetch inv busy fetched
    exact .inl ⟨i, t, rfl, (decStep_of_instr busy fetched).trans answer, outcome⟩
  | trap f u => exact .inr ⟨f, u, rfl, decStep_of_trap busy fetched, fetch_trap_inside (inv.cursor busy) fetched⟩
  | stuck => exact absurd fetched (fetch_ne_stuck inv busy)

/-- Settles O55. -/
theorem decTurnsAlwaysGoOn : Obligations.DecTurnsAlwaysGoOn := by
  intro s inv
  by_cases busy : s.win.engine = .busy
  · obtain ⟨_, t, -, answer, -⟩ | ⟨_, u, -, answer, -⟩ := decStep_of_jobInv inv busy
    · exact ⟨t, answer⟩
    · exact ⟨_, answer⟩
  · exact ⟨s, decStep_of_not_busy busy⟩

theorem decStep_jobInv (inv : JobInv s) (h : decStep s = .next t) : JobInv t := by
  by_cases busy : s.win.engine = .busy
  · obtain ⟨i, t', -, answer, outcome⟩ | ⟨f, u, -, answer, interface, -⟩ := decStep_of_jobInv inv busy <;>
      (rw [answer] at h; cases h)
    · exact outcome.jobInv inv busy
    · exact raise_jobInv ((cfg_of_interface interface).trans inv.decided) f
  · rw [decStep_of_not_busy busy] at h
    cases h
    exact inv

/-! ## Every step -/

/-- The first position of a job has its ranges: every register they speak of is START's (70_reset_and_hazards.md
R382). -/
theorem startJob_jobInv (decided : s.cfg = Config.decided) : JobInv s.startJob where
  decided := decided
  noCode := fun _ => rfl
  busyPhase := by
    refine ⟨fun _ => ?_, fun _ => rfl⟩
    simp only [State.startJob, firstPhase]
    split <;> [skip; split <;> [skip; split]] <;> simp
  cursor := fun _ => Nat.zero_le _
  phase := by
    have first : s.startJob.phase = firstPhase s.win.codec := rfl
    have codec : s.startJob.jobCodec = s.win.codec := rfl
    have cursor : s.startJob.p = 0 := rfl
    unfold firstPhase at first
    split at first
    next lz => simp only [PhaseInv, first, codec]; exact ⟨lz, rfl, Nat.zero_le _, rfl, Nat.zero_le _⟩
    split at first
    next bt => simp only [PhaseInv, first, codec]; exact ⟨bt, rfl⟩
    split at first
    next tm => simp only [PhaseInv, first, codec]; exact ⟨tm, rfl⟩
    next lz bt tm =>
      simp only [PhaseInv, first, codec]
      refine ⟨?_, rfl, rfl, rfl, Nat.zero_le _⟩
      generalize s.win.codec = c at lz bt tm
      revert c
      decide

theorem writeWindow_jobInv {offset : Nat} {v : Word32} (inv : JobInv s) (h : s.writeWindow offset v = .next t) :
    JobInv t := by
  by_cases busy : s.win.engine = .busy
  · rw [writeWindow_of_busy busy] at h
    cases h
    exact inv
  have none := inv.phase_none busy
  have noCode := inv.noCode
  simp only [State.writeWindow, if_neg busy] at h
  split at h
  · cases h
    rw [State.writeCtrl]
    split
    · exact startJob_jobInv inv.decided
    · exact jobInv_of_waiting inv.decided busy noCode none
  · split at h
    · cases h
      exact jobInv_of_waiting inv.decided busy noCode none
    · split at h <;> (cases h; exact jobInv_of_waiting inv.decided busy noCode none)

theorem hostMove_jobInv {m : HostMove} (inv : JobInv s) (h : s.hostMove m = .next t) : JobInv t := by
  cases m with
  | writeWindow offset v => exact writeWindow_jobInv inv h
  | writeSrc k v =>
    simp only [State.hostMove, State.writeSrc] at h
    split at h
    next => cases h
    next waiting =>
      cases h
      exact jobInv_of_waiting inv.decided waiting inv.noCode (inv.phase_none waiting)
  | reset =>
    cases h
    exact jobInv_of_waiting inv.decided (by simp [State.blockReset, State.reset]) (fun _ => rfl) rfl

theorem sched_jobInv (inv : JobInv s) (turns : List Turn) : JobInv { s with sched := turns } where
  decided := inv.decided
  noCode := inv.noCode
  busyPhase := inv.busyPhase
  cursor := inv.cursor
  phase := inv.phase

/-- Settles O54, by whose turn the step is. -/
theorem jobInvariantIsKept : Obligations.JobInvariantIsKept := fun _ _ inv h =>
  step_keeps (P := JobInv) (fun _ turns inv => sched_jobInv inv turns) (fun _ _ => decStep_jobInv)
    (fun _ _ _ => hostMove_jobInv) inv h

end

/-! ## Faults and the cursor -/

/-- Settles O42: a token that ends its job in DONE, or goes on, is not in FAULT. -/
theorem tokensFaultOnlyAsTheirRulesSay : Obligations.TokensFaultOnlyAsTheirRulesSay := by
  intro s t i inv busy fetched answer faulted
  obtain ⟨t', answer', outcome⟩ := outcome_of_fetch inv busy fetched
  rw [answer'] at answer
  cases answer
  cases outcome with
  | fault listed start interface stamp =>
    subst start
    exact ⟨_, _, listed, rfl, win_of_interface interface, congrArg Interface.src interface,
      cfg_of_interface interface, congrArg Interface.jobCodec interface, stamp, congrArg Interface.sched interface⟩
  | done => simp [State.finishJob] at faulted
  | goesOn taken => simp [win_of_interface taken.interface, busy] at faulted

/-- Settles O58. -/
theorem cursorMovesOverTheToken : Obligations.CursorMovesOverTheToken := by
  intro s t inv busy h
  obtain ⟨i, t', fetched, answer, outcome⟩ | ⟨f, u, fetched, answer, -, forward, inside⟩ :=
      decStep_of_jobInv inv busy <;> (rw [answer] at h; cases h)
  · cases outcome with
    | fault _ _ _ _ forward inside =>
      exact ⟨forward, inside, fun _ _ running => absurd rfl running⟩
    | done taken =>
      refine ⟨by simp only [State.finishJob, taken.p]; omega, taken.inside, fun j other _ => ?_⟩
      rw [fetched] at other
      cases other
      exact taken.p
    | goesOn taken =>
      refine ⟨by rw [taken.p]; omega, taken.inside, fun j other _ => ?_⟩
      rw [fetched] at other
      cases other
      exact taken.p
  · exact ⟨forward, inside, fun _ _ running => absurd rfl running⟩

/-- The positions of TMD after TM.HDR, at which the geometry is set. -/
def afterHeader : List Phase :=
  [.tmTdict, .tmOdict, .tmDelta, .tmCmd, .tmPropA, .tmPropB, .tmCell, .tmAlign, .hmDim, .hmCell]

section
variable {s : State}

theorem geometry_of_afterHeader (position : s.phase ∈ afterHeader) (range : PhaseInv s) : Geometry s := by
  simp only [afterHeader, List.mem_cons, List.not_mem_nil, or_false] at position
  rcases position with h | h | h | h | h | h | h | h | h | h <;> simp only [PhaseInv, h] at range
  all_goals simp only [range]

theorem geometry_widths (geometry : Geometry s) :
    s.tm.w < 2 ^ 9 ∧ s.tm.l < 2 ^ 9 ∧ s.tm.h < 2 ^ 10 ∧ s.tm.t < 2 ^ 18 := by
  obtain ⟨-, w, -, l, height, total, -⟩ := geometry
  have cells : s.tm.t ≤ 256 * 512 := by
    rw [total]
    exact Nat.mul_le_mul w (by omega)
  omega

/-- The cursor of phase 1 (10_state.md R49). -/
theorem cursor_range (position : s.phase = .tmDelta ∨ s.phase = .tmCmd ∨ s.phase = .tmPropA ∨ s.phase = .tmPropB)
    (range : PhaseInv s) : -1 ≤ s.tm.c ∧ s.tm.c < s.tm.t := by
  rcases position with h | h | h | h <;> simp only [PhaseInv, h] at range <;> omega

/-- The cell propagation stands at. -/
theorem propagation_range (position : s.phase = .tmPropA ∨ s.phase = .tmPropB) (range : PhaseInv s) :
    s.tm.pc < s.tm.t := by
  rcases position with h | h <;> simp only [PhaseInv, h] at range <;> omega

/-- The window base never lies after the output (41_lz77.md R180). -/
theorem lz_base_le {nested : Bool} (position : s.phase = .lz nested) (range : PhaseInv s) : s.lz.base ≤ s.lz.out := by
  cases nested <;> simp only [PhaseInv, position] at range <;> omega

end

/-- Settles O57. -/
theorem registersFitTheirWidths : Obligations.RegistersFitTheirWidths := by
  intro s inv busy
  have cursor := inv.cursor busy
  have range := inv.phase
  have srcLen := s.win.srcLen.isLt
  have outCap := s.win.outCap.isLt
  have tiles := s.bt.n.isLt
  have widths (position : s.phase ∈ afterHeader) := geometry_widths (geometry_of_afterHeader position range)
  refine ⟨by omega, fun nested position => ?_, fun position => ?_, fun position => ?_,
    fun position => cursor_range position range, widths, fun position => ?_, fun position => ?_, fun position => ?_⟩
  · obtain ⟨-, nctl, fits⟩ := lz_range position range
    have base := lz_base_le position range
    omega
  · obtain ⟨⟨-, total, -⟩, pos⟩ := tilesFit_of_mask position range
    omega
  · obtain ⟨-, k, occ⟩ := tilesFit_of_pair position range
    omega
  · obtain ⟨-, -, -, total⟩ := widths (by rcases position with h | h <;> simp [afterHeader, h])
    exact (propagation_range position range).trans total
  · obtain ⟨-, -, -, total⟩ := widths (by simp [afterHeader, position])
    simp only [PhaseInv, position] at range
    obtain ⟨-, -, cell, mode⟩ := range
    exact ⟨cell.trans total, mode⟩
  · simp only [PhaseInv, position] at range
    obtain ⟨-, -, -, cell, -⟩ := range
    have cells : s.hm.cells ≤ 255 * 255 :=
      Nat.mul_le_mul (Nat.le_of_lt_succ s.hm.w.isLt) (Nat.le_of_lt_succ s.hm.h.isLt)
    omega

/-! ## Every job ends -/

/-- What is left of a job: the bits of the input still to be read, and the steps that read none. -/
def State.stepsLeft (s : State) : Nat :=
  (s.inputEnd - s.p) + s.freeSteps

theorem stepsLeft_le (s : State) : s.stepsLeft ≤ 8 * s.win.srcLen.toNat + 2 * s.win.outCap.toNat + 2 := by
  have free : s.freeSteps ≤ 2 * s.win.outCap.toNat + 2 := by
    unfold State.freeSteps
    split <;> omega
  rw [State.stepsLeft, State.inputEnd]
  omega

theorem stepsLeft_pos {s : State} (position : s.phase ≠ .none) : 0 < s.stepsLeft := by
  have free : 0 < s.freeSteps := by
    unfold State.freeSteps
    split
    next none => exact absurd none position
    all_goals omega
  exact Nat.lt_add_left _ free

/-- A turn of DEC after which the job still runs leaves fewer steps to come. -/
theorem decStep_stepsLeft {s t : State} (inv : JobInv s) (busy : s.win.engine = .busy) (h : decStep s = .next t)
    (running : t.win.engine = .busy) : t.stepsLeft < s.stepsLeft ∧ t.sched = s.sched := by
  obtain ⟨i, t', fetched, answer, outcome⟩ | ⟨f, u, -, answer, -⟩ := decStep_of_jobInv inv busy <;>
    (rw [answer] at h; cases h)
  · cases outcome with
    | fault => simp [State.raise] at running
    | done => simp [State.finishJob] at running
    | goesOn taken position range fewer =>
      obtain ⟨interface, p, inside⟩ := taken
      refine ⟨?_, congrArg Interface.sched interface⟩
      have same : t.inputEnd = s.inputEnd := by rw [State.inputEnd, win_of_interface interface]; rfl
      rw [State.stepsLeft, State.stepsLeft, same]
      omega
  · simp [State.raise] at running

theorem endsWithin_of_stepsLeft (k : Nat) (s : State) (inv : JobInv s) (alone : s.sched = [])
    (bound : s.stepsLeft ≤ k) : EndsWithin k s := by
  induction k generalizing s with
  | zero =>
    refine ⟨0, s, le_rfl, rfl, fun busy => ?_⟩
    have := stepsLeft_pos (inv.busyPhase.mp busy)
    omega
  | succ k ih =>
    by_cases busy : s.win.engine = .busy
    · obtain ⟨t, answer⟩ := decTurnsAlwaysGoOn s inv
      have turn : Sys2Proof.core.step s = .next t := (step_of_sched_nil alone).trans answer
      by_cases running : t.win.engine = .busy
      · obtain ⟨fewer, sched⟩ := decStep_stepsLeft inv busy answer running
        obtain ⟨j, u, few, run, ended⟩ := ih t (decStep_jobInv inv answer) (sched.trans alone) (by omega)
        exact ⟨j + 1, u, by omega, (run_succ_of_step turn j).trans run, ended⟩
      · exact ⟨1, t, by omega, run_succ_of_step turn 0, running⟩
    · exact ⟨0, s, Nat.zero_le _, rfl, busy⟩

/-- Settles O56, by the steps left. -/
theorem everyJobEnds : Obligations.EveryJobEnds := fun s inv alone =>
  endsWithin_of_stepsLeft _ s inv alone (stepsLeft_le s)

end Sys2Proof.Machine
end

section
/-! DEC's turns with another SRC (O60): every operation but the reads of the input commutes with replacing SRC, and the
reads see SRC below SRC_LEN alone. -/

namespace Sys2Proof.Machine

/-! ## Another SRC -/

/-- The state with another SRC. -/
def State.withSrc (s : State) (m : Memory Byte) : State :=
  { s with mem := { s.mem with src := m } }

/-- The effect, with another SRC in the state it reaches. -/
def effectWithSrc (m : Memory Byte) : Effect → Effect
  | .ok t => .ok (t.withSrc m)
  | .error e => .error (e.1, e.2.withSrc m)

/-- The answer, with another SRC in its next state. -/
def answerWithSrc (m : Memory Byte) : Answer → Answer
  | .next t => .next (t.withSrc m)
  | .fault f => .fault f
  | .refused r => .refused r

/-- What is fetched, with another SRC in the state a fault has reached. -/
def fetchedWithSrc (m : Memory Byte) : Fetched → Fetched
  | .instr i => .instr i
  | .trap f u => .trap f (u.withSrc m)
  | .stuck => .stuck

/-- The memory m has the bytes of SRC below SRC_LEN. -/
def SameInput (m : Memory Byte) (s : State) : Prop :=
  ∀ i, i < s.win.srcLen.toNat → m.read (Config.freeBits 8 tagSrc) i = s.srcByte i

section
variable {m : Memory Byte}

theorem withSrc_ite {c : Prop} [Decidable c] (t u : State) :
    (if c then t else u).withSrc m = if c then t.withSrc m else u.withSrc m :=
  apply_ite (State.withSrc · m) c t u

theorem effectWithSrc_ite {c : Prop} [Decidable c] (r r' : Effect) :
    effectWithSrc m (if c then r else r') = if c then effectWithSrc m r else effectWithSrc m r' :=
  apply_ite (effectWithSrc m) c r r'

theorem effectWithSrc_ok (t : State) : effectWithSrc m (.ok t) = .ok (t.withSrc m) := rfl

theorem effectWithSrc_error (e : Trap × State) : effectWithSrc m (.error e) = .error (e.1, e.2.withSrc m) := rfl

theorem answerWithSrc_next (t : State) : answerWithSrc m (.next t) = .next (t.withSrc m) := rfl

/-- Fault entry keeps SRC (60_exceptions.md R349). -/
theorem answerWithSrc_settle (r : Effect) : answerWithSrc m (settle r) = settle (effectWithSrc m r) := by
  cases r <;> rfl

theorem SameInput.of_interface {s t : State} (same : SameInput m s) (interface : t.interface = s.interface) :
    SameInput m t := by
  have src : t.mem.src = s.mem.src := congrArg Interface.src interface
  intro i inside
  rw [win_of_interface interface] at inside
  rw [State.srcByte, src]
  exact same i inside

/-! ## What a state with another SRC shares with it -/

@[simp] theorem withSrc_cfg (s : State) : (s.withSrc m).cfg = s.cfg := rfl
@[simp] theorem withSrc_win (s : State) : (s.withSrc m).win = s.win := rfl
@[simp] theorem withSrc_p (s : State) : (s.withSrc m).p = s.p := rfl
@[simp] theorem withSrc_lz (s : State) : (s.withSrc m).lz = s.lz := rfl
@[simp] theorem withSrc_tm (s : State) : (s.withSrc m).tm = s.tm := rfl
@[simp] theorem withSrc_hm (s : State) : (s.withSrc m).hm = s.hm := rfl
@[simp] theorem withSrc_cellMode (s : State) : (s.withSrc m).cellMode = s.cellMode := rfl
@[simp] theorem withSrc_advance (s : State) (n : Nat) : (s.withSrc m).advance n = (s.advance n).withSrc m := rfl
@[simp] theorem withSrc_setMode (s : State) : (s.withSrc m).setMode = s.setMode.withSrc m := rfl

/-! ## Writes -/

theorem withSrc_outWrite (s : State) (i : Nat) (v : Byte) (pos : Nat) :
    (s.withSrc m).outWrite i v pos = effectWithSrc m (s.outWrite i v pos) := by
  unfold State.outWrite
  rw [effectWithSrc_ite]
  rfl

theorem withSrc_tmWrite (s : State) (i : Nat) (v : Half) (pos : Nat) :
    (s.withSrc m).tmWrite i v pos = effectWithSrc m (s.tmWrite i v pos) := by
  unfold State.tmWrite
  rw [effectWithSrc_ite]
  rfl

theorem withSrc_hmWrite (s : State) (i : Nat) (v : Half) (pos : Nat) :
    (s.withSrc m).hmWrite i v pos = effectWithSrc m (s.hmWrite i v pos) := by
  unfold State.hmWrite
  rw [effectWithSrc_ite]
  rfl

theorem withSrc_takeVarint (s : State) (c : VarCode) :
    (s.withSrc m).takeVarint c = effectWithSrc m (s.takeVarint c) := by
  unfold State.takeVarint
  rw [effectWithSrc_ite]
  rfl

/-! ## LZD -/

theorem withSrc_takeCtl (s : State) : (s.withSrc m).takeCtl = s.takeCtl.withSrc m := by
  unfold State.takeCtl
  cases bit : s.lz.bit <;> simp only [State.withSrc, bit, State.shiftCtl]

theorem withSrc_lzCopy (offset pos n : Nat) (s : State) :
    lzCopy offset pos n (s.withSrc m) = effectWithSrc m (lzCopy offset pos n s) := by
  induction n generalizing s with
  | zero => rfl
  | succ n ih =>
    rcases Nat.lt_or_ge s.lz.out s.win.outCap.toNat with room | full
    · rw [lzCopy, lzCopy, outWrite_of_lt room, outWrite_of_lt (by exact room)]
      simp only [← ih]
      rfl
    · rw [lzCopy, lzCopy, outWrite_of_le full, outWrite_of_le (by exact full)]
      rfl

theorem withSrc_endWord (s : State) : (s.withSrc m).endWord = s.endWord.withSrc m := by
  unfold State.endWord
  rw [withSrc_ite]
  rfl

theorem withSrc_endLz (s : State) : (s.withSrc m).endLz = effectWithSrc m s.endLz := by
  simp only [State.endLz, State.returnFromLz, effectWithSrc_ite, effectWithSrc_ok, ← withSrc_endWord]
  rfl

/-! ## BTD -/

theorem withSrc_beginPairs (s : State) : (s.withSrc m).beginPairs = s.beginPairs.withSrc m := by
  simp only [State.beginPairs, withSrc_ite]
  rfl

theorem withSrc_beginMasks (s : State) : (s.withSrc m).beginMasks = s.beginMasks.withSrc m := by
  simp only [State.beginMasks, withSrc_ite, ← withSrc_beginPairs]
  rfl

theorem withSrc_nextMask (s : State) : (s.withSrc m).nextMask = s.nextMask.withSrc m := by
  cases attr : s.bt.attr with
  | priority => rw [nextMask_of_priority attr, nextMask_of_priority (by exact attr)]; rfl
  | vflip => rw [nextMask_of_vflip attr, nextMask_of_vflip (by exact attr)]; rfl
  | hflip => rw [nextMask_of_hflip attr, nextMask_of_hflip (by exact attr), withSrc_beginPairs]

theorem withSrc_afterSkip (s : State) : (s.withSrc m).afterSkip = s.afterSkip.withSrc m := by
  simp only [State.afterSkip, withSrc_ite, ← withSrc_nextMask]
  rfl

theorem withSrc_afterApply (s : State) : (s.withSrc m).afterApply = s.afterApply.withSrc m := by
  simp only [State.afterApply, withSrc_ite, ← withSrc_nextMask]
  rfl

theorem withSrc_endPair (s : State) : (s.withSrc m).endPair = s.endPair.withSrc m := by
  simp only [State.endPair, withSrc_ite]
  rfl

theorem withSrc_placeIndex (s : State) (v : Half) : (s.withSrc m).placeIndex v = (s.placeIndex v).withSrc m := by
  simp only [State.placeIndex, withSrc_ite, ← withSrc_endPair]
  rfl

theorem withSrc_skipTiles (s : State) (n pos : Nat) :
    (s.withSrc m).skipTiles n pos = effectWithSrc m (s.skipTiles n pos) := by
  simp only [State.skipTiles, effectWithSrc_ite, effectWithSrc_ok, ← withSrc_afterSkip]
  rfl

/-! ## TMD -/

theorem withSrc_nextCell (s : State) : (s.withSrc m).nextCell = s.nextCell.withSrc m := by
  simp only [State.nextCell, State.endPass, withSrc_ite]
  rfl

theorem withSrc_beginFill (s : State) : (s.withSrc m).beginFill = s.beginFill.withSrc m := by
  simp only [State.beginFill, seedCounters_eq, ← withSrc_nextCell]
  rfl

theorem withSrc_placeCommand (s : State) (v : Half) (pos : Nat) :
    (s.withSrc m).placeCommand v pos = effectWithSrc m (s.placeCommand v pos) := by
  rcases Nat.lt_or_ge s.tm.c.toNat s.win.outCap.toNat with room | full
  · rw [placeCommand_of_lt room, placeCommand_of_lt (by exact room)]; rfl
  · rw [placeCommand_of_le full, placeCommand_of_le (by exact full)]; rfl

theorem withSrc_fillCell (s : State) (v : Half) (pos : Nat) :
    (s.withSrc m).fillCell v pos = effectWithSrc m (s.fillCell v pos) := by
  rcases Nat.lt_or_ge s.tm.i s.win.outCap.toNat with room | full
  · rw [fillCell_of_lt room, fillCell_of_lt (by exact room), effectWithSrc_ok, ← withSrc_nextCell]; rfl
  · rw [fillCell_of_le full, fillCell_of_le (by exact full)]; rfl

/-! ## SPD -/

theorem withSrc_takeWord (s : State) (cw : Half) (r : Bool) :
    (s.withSrc m).takeWord cw r = effectWithSrc m (s.takeWord cw r) := by
  cases r with
  | false => rw [takeWord_false, takeWord_false]; rfl
  | true =>
    cases refused : s.cfg.sprBit12 with
    | fault => rw [takeWord_of_set refused, takeWord_of_set (by exact refused)]; rfl
    | accept => simp only [State.takeWord, State.withSrc, refused]; rfl

theorem withSrc_zeroWords (pos n : Nat) (s : State) :
    zeroWords pos n (s.withSrc m) = effectWithSrc m (zeroWords pos n s) := by
  induction n generalizing s with
  | zero => rfl
  | succ n ih =>
    rcases Nat.lt_or_ge s.sp.o s.win.outCap.toNat with room | full
    · rw [zeroWords, zeroWords, outWrite_of_lt room, outWrite_of_lt (by exact room)]
      rcases Nat.lt_or_ge (s.sp.o + 1) s.win.outCap.toNat with room' | full'
      · simp only
        rw [outWrite_of_lt (by exact room'), outWrite_of_lt (by exact room')]
        simp only [← ih]
        rfl
      · simp only
        rw [outWrite_of_le (by exact full'), outWrite_of_le (by exact full')]
        rfl
    · rw [zeroWords, zeroWords, outWrite_of_le full, outWrite_of_le (by exact full)]
      rfl

theorem withSrc_addSubframe (s : State) (last : Bool) (y : BitVec 5) (w : BitVec 2) (r : Bool) (x : BitVec 5)
    (h : BitVec 2) : (s.withSrc m).addSubframe last y w r x h = effectWithSrc m (s.addSubframe last y w r x h) := by
  cases reserved : s.cfg.sprB1Bit7 with
  | accept => simp only [State.addSubframe, State.withSrc, reserved]; rfl
  | fault =>
    cases r with
    | true => rw [addSubframe_of_set reserved, addSubframe_of_set (by exact reserved)]; rfl
    | false => simp only [State.addSubframe, State.withSrc, reserved]; rfl

/-- A raw copy reads its words below SRC_LEN (20_memory.md R81). -/
theorem withSrc_rawWords (pos n : Nat) (s : State) (same : SameInput m s) :
    rawWords pos n (s.withSrc m) = effectWithSrc m (rawWords pos n s) := by
  induction n generalizing s with
  | zero => rfl
  | succ n ih =>
    rcases Nat.lt_or_ge s.win.srcLen.toNat (s.sp.q + 2) with short | there
    · rw [rawWords, rawWords, memRead_of_lt _ _ _ short, memRead_of_lt _ _ _ (by exact short)]
      rfl
    have high : (s.withSrc m).srcByte (s.withSrc m).sp.q = s.srcByte s.sp.q := same s.sp.q (by omega)
    have low : (s.withSrc m).srcByte ((s.withSrc m).sp.q + 1) = s.srcByte (s.sp.q + 1) := same (s.sp.q + 1) (by omega)
    rw [rawWords, rawWords, memRead_two _ _ there, memRead_two _ _ (by exact there), high, low]
    simp only
    rcases Nat.lt_or_ge s.sp.o s.win.outCap.toNat with room | full
    · rw [outWrite_of_lt (by exact room), outWrite_of_lt (by exact room)]
      simp only
      rcases Nat.lt_or_ge (s.sp.o + 1) s.win.outCap.toNat with room' | full'
      · rw [outWrite_of_lt (by exact room'), outWrite_of_lt (by exact room')]
        simp only
        rw [← ih]
        · rfl
        · exact same
      · rw [outWrite_of_le (by exact full'), outWrite_of_le (by exact full')]
        rfl
    · rw [outWrite_of_le (by exact full), outWrite_of_le (by exact full)]
      rfl

/-! ## Tokens -/

section
variable (m)

/-- The answer of a token in the state with another SRC is its answer with another SRC. -/
def Commutes (i : Instr) (s : State) : Prop :=
  exec i (s.withSrc m) = answerWithSrc m (exec i s)

end

theorem lzLit_commutes (lit : Byte) (s : State) : Commutes m (.lzLit lit) s := by
  simp only [Commutes, exec, execLzLit, answerWithSrc_settle, withSrc_advance, withSrc_takeCtl, withSrc_outWrite,
    withSrc_lz, withSrc_p]
  cases (s.advance 8).takeCtl.outWrite (s.advance 8).takeCtl.lz.out lit s.p <;> rfl

theorem lzRef_commutes (offset : BitVec 12) (lcode : BitVec 4) (s : State) : Commutes m (.lzRef offset lcode) s := by
  simp only [Commutes, exec, execLzRef, answerWithSrc_settle, withSrc_advance, withSrc_takeCtl, effectWithSrc_ite,
    withSrc_lzCopy]
  rfl

theorem withSrc_srcBytes {s : State} (same : SameInput m s) {q n : Nat} (inside : q + n ≤ s.win.srcLen.toNat)
    (acc : Nat) : (s.withSrc m).srcBytes q n acc = s.srcBytes q n acc := by
  induction n generalizing q acc with
  | zero => rfl
  | succ n ih =>
    have byte : (s.withSrc m).srcByte q = s.srcByte q := same q (by omega)
    rw [State.srcBytes, State.srcBytes, byte, ih (by omega)]

theorem memRead_of_le {s : State} {q n : Nat} (there : q + n ≤ s.win.srcLen.toNat) :
    s.memRead q n = .ok (s.srcBytes q n 0, { s with p := 8 * (q + n) }) :=
  if_neg (Nat.not_lt.mpr there)

theorem lzEnd_commutes (lcode : BitVec 4) (s : State) (same : SameInput m s) : Commutes m (.lzEnd lcode) s := by
  have same : SameInput m (s.advance 16).takeCtl := same.of_interface (takeCtl_interface _)
  simp only [Commutes, exec, execLzEnd, answerWithSrc_settle, withSrc_advance, withSrc_takeCtl, withSrc_cfg]
  generalize (s.advance 16).takeCtl = t at same
  cases s.cfg.lzCtrlLoad with
  | lazy => exact congrArg settle (withSrc_endLz t)
  | eager =>
    simp only [effectWithSrc_ite, withSrc_endLz, withSrc_lz, withSrc_p]
    rcases Nat.lt_or_ge t.win.srcLen.toNat (t.p / 8 + 1) with short | there
    · rw [memRead_of_lt _ _ _ short, memRead_of_lt _ _ _ (by exact short)]
      rfl
    · rw [memRead_of_le there, memRead_of_le (by exact there), withSrc_srcBytes same there]
      simp only [← withSrc_endLz]
      rfl

theorem btCount_commutes (n : Half) (s : State) : Commutes m (.btCount n) s := by
  simp only [Commutes, exec, execBtCount, answerWithSrc_settle, effectWithSrc_ite, effectWithSrc_ok,
    ← withSrc_beginMasks]
  rfl

theorem btSkip0_commutes (c : VarCode) (s : State) : Commutes m (.btSkip0 c) s := by
  simp only [Commutes, exec, execBtSkip0, answerWithSrc_settle, withSrc_takeVarint]
  cases s.takeVarint c with
  | error e => rfl
  | ok t => exact congrArg settle (withSrc_skipTiles t _ _)

theorem btSkip_commutes (c : VarCode) (s : State) : Commutes m (.btSkip c) s := by
  simp only [Commutes, exec, execBtSkip, answerWithSrc_settle, withSrc_takeVarint]
  cases s.takeVarint c with
  | error e => rfl
  | ok t => exact congrArg settle (withSrc_skipTiles t _ _)

theorem btApply_commutes (c : VarCode) (s : State) : Commutes m (.btApply c) s := by
  simp only [Commutes, exec, execBtApply, answerWithSrc_settle, withSrc_takeVarint]
  cases s.takeVarint c with
  | error e => rfl
  | ok t =>
    simp only [effectWithSrc_ite, effectWithSrc_ok, ← withSrc_afterApply]
    rfl

theorem btIdxMtf_commutes (i : BitVec 4) (s : State) : Commutes m (.btIdxMtf i) s := by
  simp only [Commutes, exec, execBtIdxMtf, answerWithSrc_settle, effectWithSrc_ite, effectWithSrc_ok, withSrc_cfg,
    ← withSrc_placeIndex]
  cases s.cfg.btMtfOor with
  | fault => rfl
  | clamp v =>
    simp only [effectWithSrc_ok, ← withSrc_placeIndex]
    rfl

theorem btIdxRaw_commutes (r : BitVec 11) (s : State) : Commutes m (.btIdxRaw r) s := by
  rw [Commutes, execBtIdxRaw_eq, execBtIdxRaw_eq, answerWithSrc_next, ← withSrc_placeIndex]
  rfl

theorem btCompDer_commutes (s : State) : Commutes m .btCompDer s := by
  cases push : s.cfg.btPushDerived with
  | false =>
    rw [Commutes, execBtCompDer_eq push, execBtCompDer_eq (by exact push), answerWithSrc_next, ← withSrc_endPair]
    rfl
  | true =>
    simp only [Commutes, exec, execBtCompDer, answerWithSrc_next, ← withSrc_endPair, withSrc_cfg, push, if_true]
    rfl

theorem tmHdr_commutes (left top wm1 hs : Byte) (s : State) : Commutes m (.tmHdr left top wm1 hs) s := by
  simp only [Commutes, exec, execTmHdr, answerWithSrc_settle, effectWithSrc_ite]
  rfl

theorem tmTdict_commutes (b0 b1 : BitVec 10) (s : State) : Commutes m (.tmTdict b0 b1) s := by
  rw [Commutes, execTmTdict_eq, execTmTdict_eq]
  rfl

theorem tmDelta_commutes (c : VarCode) (s : State) : Commutes m (.tmDelta c) s := by
  simp only [Commutes, exec, execTmDelta, answerWithSrc_settle, withSrc_takeVarint]
  cases s.takeVarint c <;> rfl

theorem tmEnd_commutes (c : VarCode) (s : State) : Commutes m (.tmEnd c) s := by
  simp only [Commutes, exec, execTmEnd, answerWithSrc_settle, withSrc_takeVarint]
  cases s.takeVarint c with
  | error e => rfl
  | ok t =>
    simp only [effectWithSrc_ok, ← withSrc_beginFill]
    rfl

theorem tmCmdS_commutes (c : BitVec 3) (s : State) : Commutes m (.tmCmdS c) s := by
  simp only [Commutes, exec, execTmCmdS, answerWithSrc_settle, ← withSrc_placeCommand]
  rfl

theorem tmCmdX_commutes (x : BitVec 1) (e : BitVec 2) (s : State) : Commutes m (.tmCmdX x e) s := by
  simp only [Commutes, exec, execTmCmdX, answerWithSrc_settle, ← withSrc_placeCommand]
  rfl

theorem tmPropCell_commutes (s : State) : Commutes m .tmPropCell s := by
  simp only [Commutes, exec, execTmPropCell, answerWithSrc_settle, effectWithSrc_ite, withSrc_cfg]
  rcases Nat.lt_or_ge (s.tm.pc + s.tm.stride) s.win.outCap.toNat with room | full
  · rw [tmWrite_of_lt (by exact room), tmWrite_of_lt (by exact room)]
    cases s.cfg.tmPropagate.pastEnd <;> rfl
  · rw [tmWrite_of_le (by exact full), tmWrite_of_le (by exact full)]
    cases s.cfg.tmPropagate.pastEnd <;> rfl

theorem tmCopy_commutes (s : State) : Commutes m .tmCopy s := by
  simp only [Commutes, exec, execTmCopy, answerWithSrc_settle, withSrc_cellMode]
  cases s.cellMode with
  | none => rfl
  | some d =>
    simp only [effectWithSrc_ite, ← withSrc_fillCell]
    rfl

theorem tmLitRaw_commutes (n v : Nat) (s : State) : Commutes m (.tmLitRaw n v) s := by
  simp only [Commutes, exec, execTmLitRaw, answerWithSrc_settle, effectWithSrc_ite, ← withSrc_fillCell]
  rfl

theorem tmLitOfs_commutes (n v : Nat) (s : State) : Commutes m (.tmLitOfs n v) s := by
  simp only [Commutes, exec, execTmLitOfs, answerWithSrc_settle, effectWithSrc_ite, ← withSrc_fillCell]
  rfl

theorem tmLitCnt0_commutes (s : State) : Commutes m .tmLitCnt0 s := by
  simp only [Commutes, exec, execTmLitCnt0, answerWithSrc_settle, withSrc_advance, withSrc_setMode, withSrc_fillCell,
    withSrc_tm, withSrc_p]
  cases (s.advance 2).setMode.fillCell s.tm.c0 s.p <;> rfl

theorem tmLitCnt1_commutes (s : State) : Commutes m .tmLitCnt1 s := by
  simp only [Commutes, exec, execTmLitCnt1, answerWithSrc_settle, withSrc_advance, withSrc_setMode, withSrc_fillCell,
    withSrc_tm, withSrc_p]
  cases (s.advance 2).setMode.fillCell s.tm.c1 s.p <;> rfl

theorem hmDim_commutes (hw hh : Byte) (s : State) : Commutes m (.hmDim hw hh) s := by
  simp only [Commutes, exec, execHmDim, answerWithSrc_settle, effectWithSrc_ite, effectWithSrc_ok, withSrc_ite]
  rfl

theorem hmRun_commutes (pat : Half) (k : Nat) (last : Byte) (s : State) : Commutes m (.hmRun pat k last) s := by
  simp only [Commutes, exec, execHmRun, answerWithSrc_settle, effectWithSrc_ite]
  rfl

theorem hmCell_commutes (s : State) : Commutes m .hmCell s := by
  simp only [Commutes, exec, execHmCell, answerWithSrc_settle, withSrc_hmWrite, withSrc_hm, withSrc_p]
  cases s.hmWrite s.hm.j s.hm.pat s.p with
  | error e => rfl
  | ok t =>
    simp only [effectWithSrc_ok, withSrc_ite]
    rfl

theorem sprSf_commutes (y : BitVec 5) (w : BitVec 2) (r : Bool) (x : BitVec 5) (h : BitVec 2) (s : State) :
    Commutes m (.sprSf y w r x h) s := by
  simp only [Commutes, exec, execSprSf, answerWithSrc_settle, withSrc_addSubframe]
  cases s.addSubframe false y w r x h <;> rfl

theorem sprSfLast_commutes (y : BitVec 5) (w : BitVec 2) (r : Bool) (x : BitVec 5) (h : BitVec 2) (s : State) :
    Commutes m (.sprSfLast y w r x h) s := by
  simp only [Commutes, exec, execSprSfLast, answerWithSrc_settle, withSrc_addSubframe]
  cases s.addSubframe true y w r x h <;> rfl

theorem sprZero_commutes (stop l r : Bool) (count : BitVec 12) (s : State) :
    Commutes m (.sprZero stop l r count) s := by
  simp only [Commutes, exec, execSprZero, answerWithSrc_settle, withSrc_takeWord]
  cases s.takeWord (sprWord true stop l r count) r with
  | error e => rfl
  | ok t =>
    simp only [effectWithSrc_ok, withSrc_zeroWords, withSrc_cfg, withSrc_p]
    cases zeroWords s.p (sprCount s.cfg count) t with
    | error e => rfl
    | ok u => exact congrArg Host.Outcome.next (withSrc_endWord u)

theorem sprLz_commutes (stop r : Bool) (count : BitVec 12) (s : State) : Commutes m (.sprLz stop r count) s := by
  simp only [Commutes, exec, execSprLz, answerWithSrc_settle, withSrc_takeWord, withSrc_cfg]
  cases s.takeWord (sprWord false stop true r count) r with
  | error e => rfl
  | ok t => cases s.cfg.sprLzWindow <;> rfl

theorem sprRaw_commutes (stop r : Bool) (count : BitVec 12) (s : State) (same : SameInput m s) :
    Commutes m (.sprRaw stop r count) s := by
  simp only [Commutes, exec, execSprRaw, answerWithSrc_settle, withSrc_takeWord]
  cases taken : s.takeWord (sprWord false stop false r count) r with
  | error e => rfl
  | ok t =>
    have same : SameInput m t := same.of_interface ((takeWord_keeps s _ r).ok taken)
    simp only [effectWithSrc_ok, withSrc_rawWords _ _ _ same, withSrc_cfg, withSrc_p]
    cases rawWords s.p (sprCount s.cfg count) t with
    | error e => rfl
    | ok u => exact congrArg Host.Outcome.next (withSrc_endWord u)

/-- Every token sees SRC below SRC_LEN alone, and only LZ.END and SPR.RAW see it at all. -/
theorem exec_commutes (i : Instr) (s : State) (same : SameInput m s) : Commutes m i s :=
  match i with
  | .varint c => by
    simp only [Commutes, exec, execVarint, answerWithSrc_settle, withSrc_takeVarint]
  | .lzCtrl _ => rfl
  | .lzLit lit => lzLit_commutes lit s
  | .lzRef offset lcode => lzRef_commutes offset lcode s
  | .lzEnd lcode => lzEnd_commutes lcode s same
  | .btCount n => btCount_commutes n s
  | .btSkip0 c => btSkip0_commutes c s
  | .btSkip c => btSkip_commutes c s
  | .btApply c => btApply_commutes c s
  | .btIdxMtf j => btIdxMtf_commutes j s
  | .btIdxRaw r => btIdxRaw_commutes r s
  | .btCompDer => btCompDer_commutes s
  | .btCompInd => rfl
  | .tmHdr left top wm1 hs => tmHdr_commutes left top wm1 hs s
  | .tmTdict b0 b1 => tmTdict_commutes b0 b1 s
  | .tmOdict _ _ _ _ _ _ _ _ => rfl
  | .tmDelta c => tmDelta_commutes c s
  | .tmEnd c => tmEnd_commutes c s
  | .tmCmdS c => tmCmdS_commutes c s
  | .tmCmdX x e => tmCmdX_commutes x e s
  | .tmPropRun => rfl
  | .tmPropStop => rfl
  | .tmPropCell => tmPropCell_commutes s
  | .tmPropEndrun => rfl
  | .tmCopy => tmCopy_commutes s
  | .tmLitRaw n v => tmLitRaw_commutes n v s
  | .tmLitOfs n v => tmLitOfs_commutes n v s
  | .tmLitCnt0 => tmLitCnt0_commutes s
  | .tmLitCnt1 => tmLitCnt1_commutes s
  | .tmAlign _ => rfl
  | .hmDim hw hh => hmDim_commutes hw hh s
  | .hmRun pat k last => hmRun_commutes pat k last s
  | .hmCell => hmCell_commutes s
  | .sprSf y w r x h => sprSf_commutes y w r x h s
  | .sprSfLast y w r x h => sprSfLast_commutes y w r x h s
  | .sprZero stop l r count => sprZero_commutes stop l r count s
  | .sprLz stop r count => sprLz_commutes stop r count s
  | .sprRaw stop r count => sprRaw_commutes stop r count s same

/-! ## The fetch -/

theorem withSrc_inputBits {s : State} (same : SameInput m s) : (s.withSrc m).inputBits = s.inputBits :=
  inputBits_congr rfl rfl same

theorem withSrc_wholeField {s : State} (same : SameInput m s) (width off : Nat) :
    (s.withSrc m).wholeField width off = s.wholeField width off := by
  rw [State.wholeField, State.wholeField, withSrc_inputBits same]

theorem withSrc_zerosAhead {s : State} (same : SameInput m s) : (s.withSrc m).zerosAhead = s.zerosAhead := by
  rw [State.zerosAhead, State.zerosAhead, withSrc_inputBits same]

theorem withSrc_setB0 (s : State) (v : BitVec 10) : (s.withSrc m).setB0 v = (s.setB0 v).withSrc m := by
  rw [State.setB0, State.setB0, withSrc_ite]
  rfl

theorem withSrc_assignRead {s : State} (same : SameInput m s) (want : Expect) :
    (s.withSrc m).assignRead want = (s.assignRead want).withSrc m := by
  cases want with
  | tmTdict =>
    simp only [State.assignRead, withSrc_wholeField same]
    cases s.wholeField 10 0 with
    | none => rfl
    | some v => exact withSrc_setB0 s v
  | _ => simp only [State.assignRead, withSrc_wholeField same, withSrc_zerosAhead same] <;> rfl

theorem withSrc_readFailed {s : State} (same : SameInput m s) (want : Expect) (e : DecodeError) :
    (s.withSrc m).readFailed want e = (s.readFailed want e).withSrc m := by
  cases e with
  | varintTooLong => rfl
  | endOfStream =>
    cases want with
    | lzLit => exact withSrc_takeCtl s
    | lzPair => exact withSrc_takeCtl s
    | lzCtrl => rfl
    | sprHeader => rfl
    | sprWord => rfl
    | _ => simp only [State.readFailed, withSrc_assignRead same]; rfl

theorem withSrc_fetch {s : State} (same : SameInput m s) : (s.withSrc m).fetch = fetchedWithSrc m s.fetch := by
  have asked : (s.withSrc m).select = s.select := rfl
  simp only [State.fetch, asked, withSrc_inputBits same, withSrc_cfg]
  cases s.select with
  | stuck => rfl
  | trap k => rfl
  | token want =>
    simp only
    cases decode s.cfg want s.inputBits with
    | ok r => rfl
    | error e => simp only [withSrc_readFailed same]; rfl

theorem withSrc_decStep {s : State} (same : SameInput m s) : decStep (s.withSrc m) = answerWithSrc m (decStep s) := by
  by_cases busy : s.win.engine = .busy
  · rw [decStep_of_busy busy, decStep_of_busy (by exact busy), withSrc_fetch same]
    cases s.fetch with
    | instr i => exact exec_commutes i s same
    | trap f u => rfl
    | stuck => rfl
  · rw [decStep_of_not_busy busy, decStep_of_not_busy (by exact busy)]
    rfl

end

/-- Settles O60. -/
theorem decReadsOnlyTheGivenInput : Obligations.DecReadsOnlyTheGivenInput := by
  intro s m same
  refine (withSrc_decStep same).trans ?_
  cases decStep s <;> rfl

end Sys2Proof.Machine
end
